-- ==== Sys2Proof/Word.lean ====
section
/-! DEFINITION. The two bit-vector types of the RLE/LZ codec block: the byte of every stream and buffer
(00_scope.md R9) and the 32-bit value of every register (00_scope.md R8). -/

namespace Sys2Proof

/-- A byte: an element of every input, output and wire stream (00_scope.md R9). -/
abbrev Byte := BitVec 8

/-- A register value: "All register values are 32-bit unsigned" (00_scope.md R8). -/
abbrev Word := BitVec 32

end Sys2Proof
end

