-- ==== Sys2Proof/Syntax.lean ====
section
/-! DEFINITION. The command words of the block as syntax: one constructor per row of spec/opcode_table.json
(30_encoding.md R90, R91). -/

namespace Sys2Proof

/-- A command: what a 32-bit write to CTRL with bit 0 set issues (30_encoding.md R91). Each carries the fields of
the command word that its row does not fix; bits 31:5 of the word are ignored (R92) and have no operand. -/
inductive Instr where
  /-- RLE_ENCODE (41_rle.md R141): ALG = 00, DIR = 0. -/
  | rleEncode (ie : Bool)
  /-- RLE_DECODE (41_rle.md R151): ALG = 00, DIR = 1. -/
  | rleDecode (ie : Bool)
  /-- LZ_ENCODE (42_lz.md R172): ALG = 01, DIR = 0. -/
  | lzEncode (ie : Bool)
  /-- LZ_DECODE (42_lz.md R186): ALG = 01, DIR = 1. -/
  | lzDecode (ie : Bool)
  /-- UNSUPPORTED_ALG (40_control.md R122): ALG = 10 or 11, either DIR. -/
  | unsupportedAlg (ie : Bool) (alg : BitVec 2) (dir : Bool)
deriving DecidableEq, Repr

end Sys2Proof
end

