-- ==== Sys2Proof/WellFormed.lean ====
section
/-! DEFINITION. Which terms of `Instr` are command words of the block (30_encoding.md R91). -/

namespace Sys2Proof

/-- A command is well formed when its operands fit its row: "10 or 11" are the only values of ALG that select no
algorithm (30_encoding.md R91, R92). -/
def Instr.wellFormed : Instr → Bool
  | .rleEncode _ => true
  | .rleDecode _ => true
  | .lzEncode _ => true
  | .lzDecode _ => true
  | .unsupportedAlg _ alg _ => alg == 2#2 || alg == 3#2

end Sys2Proof
end

