-- ==== Sys2Proof/Decode.lean ====
section
/-! DEFINITION. The byte lanes of a 32-bit access (20_memory.md R64), the decoder of command words
(30_encoding.md R90 to R93), and the encoder. -/

namespace Sys2Proof

/-- Why four byte lanes, or a word, are no command. -/
inductive Reject where
  /-- The access is not 32 bits wide: "The command word has one length (32 bits)" (30_encoding.md R93). -/
  | wrongLength
  /-- Bit 0 is clear: "A CTRL write with bit 0 = 0 issues no command" (30_encoding.md R90; log 16). -/
  | noStart
deriving DecidableEq, Repr

/-- The value that byte lanes carry, lane 0 holding bits 7:0 (20_memory.md R64). -/
def wordOfLanes : List Byte → Word
  | [] => 0#32
  | b :: bs => b.setWidth 32 ||| (wordOfLanes bs <<< 8)

/-- The four byte lanes of a register value, lane 0 first (20_memory.md R64). -/
def lanesOfWord (w : Word) : List Byte :=
  [w.extractLsb' 0 8, w.extractLsb' 8 8, w.extractLsb' 16 8, w.extractLsb' 24 8]

/-- Command selection by the `match` and `mask` columns (30_encoding.md R91); IE is bit 4, ALG bits 3:2, DIR bit 1
(R90). -/
def decodeWord (w : Word) : Except Reject Instr :=
  if w &&& 0xF#32 = 0x1#32 then .ok (.rleEncode (w.getLsbD 4))
  else if w &&& 0xF#32 = 0x3#32 then .ok (.rleDecode (w.getLsbD 4))
  else if w &&& 0xF#32 = 0x5#32 then .ok (.lzEncode (w.getLsbD 4))
  else if w &&& 0xF#32 = 0x7#32 then .ok (.lzDecode (w.getLsbD 4))
  else if w &&& 0x9#32 = 0x9#32 then
    .ok (.unsupportedAlg (w.getLsbD 4) (w.extractLsb' 2 2) (w.getLsbD 1))
  else .error .noStart

/-- The decoder: a command is one 32-bit access, so exactly four byte lanes (30_encoding.md R93, 20_memory.md R64). -/
def decode (lanes : List Byte) : Except Reject Instr :=
  if lanes.length = 4 then decodeWord (wordOfLanes lanes) else .error .wrongLength

/-- A command word from its fields: IE at bit 4, ALG at bits 3:2, DIR at bit 1, START = 1 at bit 0 and zeros above
(30_encoding.md R90). -/
def commandWord (ie : Bool) (alg : BitVec 2) (dir : Bool) : Word :=
  (BitVec.ofBool ie ++ alg ++ BitVec.ofBool dir ++ 1#1).setWidth 32

/-- The command word of a command, reserved bits zero: the "CTRL value" columns of 30_encoding.md R91. -/
def encode : Instr → Word
  | .rleEncode ie => commandWord ie 0#2 false
  | .rleDecode ie => commandWord ie 0#2 true
  | .lzEncode ie => commandWord ie 1#2 false
  | .lzDecode ie => commandWord ie 1#2 true
  | .unsupportedAlg ie alg dir => commandWord ie alg dir

/-- The decoder on a word numbered as spec/opcode_table.json numbers it: the low `nbits` bits of `w`, laid out on the
byte lanes of a 32-bit access. -/
def decodeTableWord (nbits w : Nat) : Option Instr :=
  match decode (lanesOfWord (BitVec.ofNat 32 (w % 2 ^ nbits))) with
  | .ok i => some i
  | .error _ => none

end Sys2Proof
end

