-- ==== Sys2Proof/Config.lean ====
section
/-! DEFINITION. What an implementation fixes (00_scope.md R6) and the free values of the spec (10_state.md R34,
20_memory.md R67 and R68). All of them are opaque constants with no body: no proof can see what they are. -/

namespace Sys2Proof

/-- IN_CAP − 1. IN_CAP is any number from 1 to 2^24 (00_scope.md R6; log 5). -/
opaque Config.inCapIndex : Fin 16777216

/-- OUT_CAP − 1. OUT_CAP is any number from 1 to 2^24 (00_scope.md R6; log 5). -/
opaque Config.outCapIndex : Fin 16777216

/-- DICT_CAP − 256. DICT_CAP is any number from 256 to 2^32 − 1 (00_scope.md R6; log 5). -/
opaque Config.dictCapIndex : Fin 4294967040

/-- BASE / 2^26: BASE is "aligned to 2^26" (00_scope.md R6, 20_memory.md R61; log 5). -/
opaque Config.baseIndex : Nat

/-- What the `k`-th unspecified register read of the host returns: "a fresh draw under no law"
(10_state.md R34; log 3). -/
opaque Config.hostWordDraw : Nat → Word

/-- What the `k`-th unspecified buffer read of the host returns (20_memory.md R67, R68; log 3, log 4). -/
opaque Config.hostByteDraw : Nat → Byte

/-- What the engine reads, as the `k`-th input byte taken by commands, where the host has not written that byte
since reset (20_memory.md R67; log 4). -/
opaque Config.engineByteDraw : Nat → Byte

end Sys2Proof
end

