-- ==== Sys2Proof/Machine/State.lean ====
section
/-! DEFINITION. The state of the block as plain data: every register, buffer and piece of engine state of 10_state.md
and 20_memory.md, the outside world's pending inputs, and the state right after reset (10_state.md R43). -/

namespace Sys2Proof.Machine

/-- The parameters of an instance (00_scope.md R6; log 5). They never change. IN_CAP_R, OUT_CAP_R and DICT_CAP_R are
views of them (10_state.md R32). -/
structure Params where
  /-- BASE, the bus address of offset 0. -/
  base : Nat
  /-- IN_CAP, the size of IN_MEM in bytes. -/
  inCap : Nat
  /-- OUT_CAP, the size of OUT_MEM in bytes. -/
  outCap : Nat
  /-- DICT_CAP, the largest number of dictionary entries, seed included. -/
  dictCap : Nat
deriving DecidableEq, Repr

/-- The fields CTRL holds (10_state.md R21). START holds nothing and bits 31:5 are reserved. -/
structure Ctrl where
  dir : Bool
  alg : BitVec 2
  ie : Bool
deriving DecidableEq, Repr

/-- The fields STATUS holds (10_state.md R24). Bits 3 and 31:8 are reserved. -/
structure Status where
  busy : Bool
  done : Bool
  err : Bool
  errcode : BitVec 4
deriving DecidableEq, Repr

/-- The command errors (60_exceptions.md R220). -/
inductive CodecError where
  | malformedStream
  | invalidCode
  | unsupportedAlgorithm
  | invalidInputType
  | capacityExceeded
deriving DecidableEq, Repr

/-- The four operations (00_scope.md R2; `op` of 10_state.md R36). -/
inductive Command where
  | rleEncode
  | rleDecode
  | lzEncode
  | lzDecode
deriving DecidableEq, Repr

/-- IDLE or RUN (10_state.md R36). -/
inductive Phase where
  | idle
  | run
deriving DecidableEq, Repr

/-- `op_sel`, latched at acceptance (40_control.md R120). -/
structure OpSel where
  alg : BitVec 2
  dir : Bool
deriving DecidableEq, Repr

/-- A phrase: "a non-empty byte sequence" (00_scope.md R9). -/
structure Phrase where
  first : Byte
  rest : List Byte
deriving DecidableEq, Repr

/-- DICT (20_memory.md R72): the phrases appended after the seed, in code order from 256 on. The 256 seed entries
(42_lz.md R170) are implicit (log 9). -/
structure Dict where
  added : List Phrase
deriving DecidableEq, Repr

/-- The engine state every command has (10_state.md R36): the input sequence `x` of 40_control.md R123, whose length is
`n`; `ip`; the bytes `Emit` has written, whose number is `out_len`; and `tok`. -/
structure Io where
  x : List Byte
  ip : Nat
  out : List Byte
  tok : Nat
deriving DecidableEq, Repr

/-- `run_val` and `run_len` of 10_state.md R37. -/
structure Run where
  val : Byte
  len : Nat
deriving DecidableEq, Repr

/-- RLE_ENCODE engine state (10_state.md R37): `have_run` says whether `run` holds one. -/
structure RleEnc where
  io : Io
  run : Option Run
deriving DecidableEq, Repr

/-- `v` and `r`, the pair being consumed (10_state.md R38). -/
structure Pair where
  v : Byte
  r : Byte
deriving DecidableEq, Repr

/-- RLE_DECODE engine state (10_state.md R38). -/
structure RleDec where
  io : Io
  pair : Option Pair
deriving DecidableEq, Repr

/-- LZ_ENCODE engine state (10_state.md R39): `Dict_E`, whose size is `next_code`, and `cur`, which is [] (`none`) or a
phrase. -/
structure LzEnc where
  io : Io
  dict : Dict
  cur : Option Phrase
deriving DecidableEq, Repr

/-- LZ_DECODE engine state (10_state.md R40): `Dict_D`, whose size is `next_code`, `prev` (`none` before the first
code), and `fs`. -/
structure LzDec where
  io : Io
  dict : Dict
  prev : Option Phrase
  fs : Nat
deriving DecidableEq, Repr

/-- The engine: idle; or a command accepted, its start checks not made yet (40_control.md R120, R122); or one of the
four engines running. "It has no meaning once the command completes" (10_state.md R41), so `idle` carries nothing
(log 11). -/
inductive Engine where
  | idle
  | start (sel : OpSel) (n : Word)
  | rleEncode (e : RleEnc)
  | rleDecode (e : RleDec)
  | lzEncode (e : LzEnc)
  | lzDecode (e : LzDec)
deriving DecidableEq, Repr

/-- A byte buffer as (index, byte) pairs, indices strictly rising: the bytes that have a specified value. A byte that is
not listed is unspecified (20_memory.md R67, R68; log 3, log 4). -/
abbrev Memory := List Host.Cell

/-- One access of the host port (30_encoding.md R104): a read of `width` bytes, or a write of the byte lanes given, at a
bus address. Lane 0 is the lowest byte address (20_memory.md R64; log 6). -/
inductive Access where
  | read (width : Nat) (addr : Nat)
  | write (addr : Nat) (lanes : List Byte)
deriving DecidableEq, Repr

/-- What the bus answered to the last access (log 6). -/
inductive Response where
  /-- No access has been answered since reset, or the last one fell while reset was asserted (R260). -/
  | none
  /-- The address is outside the block's 2^26 bytes (20_memory.md R61; log 7). -/
  | notSelected
  /-- A write that completed. -/
  | done
  /-- A read that completed, with its byte lanes. -/
  | data (lanes : List Byte)
  /-- AccessFault, "a bus error response to an illegal host access" (60_exceptions.md R228). -/
  | accessFault
deriving DecidableEq, Repr

/-- What the outside world does next (log 1, log 2, log 14). -/
inductive Input where
  /-- The port takes one host access (20_memory.md R73). A START leaves its command in flight. -/
  | bus (a : Access)
  /-- A 32-bit write of `w` to CTRL whose command, if it starts one, runs to Finish before the next input:
  "one atomic transition from acceptance to Finish" (40_control.md R131). -/
  | command (w : Word)
  /-- The engine makes one engine step (40_control.md R131). -/
  | engine
  /-- The reset input is asserted (70_reset_and_hazards.md R260). -/
  | assertReset
  /-- The reset input is released (70_reset_and_hazards.md R260). -/
  | releaseReset
deriving DecidableEq, Repr

/-- The state of the block. -/
structure State where
  /-- The instance's parameters (00_scope.md R6). -/
  params : Params
  /-- CTRL (10_state.md R21). -/
  ctrl : Ctrl
  /-- STATUS (10_state.md R24). -/
  status : Status
  /-- IN_LEN (10_state.md R27). -/
  inLen : Word
  /-- OUT_LEN (10_state.md R29); unspecified while BUSY or ERR is 1 (log 12). -/
  outLen : Word
  /-- TOKEN_COUNT (10_state.md R30); unspecified while BUSY or ERR is 1 (log 12). -/
  tokenCount : Word
  /-- NEXT_CODE (10_state.md R31); unspecified while BUSY or ERR is 1 (log 12). -/
  nextCode : Word
  /-- IN_MEM (20_memory.md R66): the bytes written since reset. -/
  inMem : Memory
  /-- OUT_MEM (20_memory.md R68): the bytes `Emit` wrote for the last command, until it fails. -/
  outMem : Memory
  /-- The engine (10_state.md R36 to R40). -/
  engine : Engine
  /-- The level of the reset input (70_reset_and_hazards.md R260; log 10). -/
  inReset : Bool
  /-- The model's own: what the outside world does, in order (20_memory.md R73; log 1). -/
  inputs : List Input
  /-- The model's own: the bus's answer to the last access (log 6). -/
  response : Response
  /-- The model's own: how many unspecified values the host has read (10_state.md R34; log 3). -/
  hostDraws : Nat
  /-- The model's own: how many input bytes commands have taken (20_memory.md R67; log 4). -/
  engineDraws : Nat
deriving DecidableEq, Repr

/-- Reasons for the machine to stop with a fault. There is none: "No behaviour of the block is stuck"
(93_implementation_defined.md), a command error is reported in STATUS (60_exceptions.md R220), and AccessFault is a
bus response after which the block goes on (R228). -/
inductive Fault where
deriving DecidableEq, Repr

/-- Reasons to refuse an instruction. -/
inductive Refusal where
  /-- Raised by `exec` for an instruction that has no meaning yet. No arm raises it. Safe: nothing is claimed. -/
  | notModelled (mnemonic : String)
deriving DecidableEq, Repr

/-- This instance's parameters: free constants in the ranges of 00_scope.md R6 (log 5). -/
def Params.ofConfig : Params where
  base := Config.baseIndex * 2 ^ 26
  inCap := Config.inCapIndex.val + 1
  outCap := Config.outCapIndex.val + 1
  dictCap := Config.dictCapIndex.val + 256

/-- CTRL after reset (10_state.md R43). -/
def Ctrl.reset : Ctrl := { dir := false, alg := 0#2, ie := false }

/-- STATUS after reset (10_state.md R43). -/
def Status.reset : Status := { busy := false, done := false, err := false, errcode := 0#4 }

/-- The machine right after reset (10_state.md R43, 70_reset_and_hazards.md R260, R261). The model's own fields start
empty or at zero (log 15). -/
def State.reset : State where
  params := Params.ofConfig
  ctrl := Ctrl.reset
  status := Status.reset
  inLen := 0#32
  outLen := 0#32
  tokenCount := 0#32
  nextCode := 0#32
  inMem := []
  outMem := []
  engine := .idle
  inReset := false
  inputs := []
  response := .none
  hostDraws := 0
  engineDraws := 0

end Sys2Proof.Machine
end

