-- ==== Sys2Proof/Machine/Flags.lean ====
section
/-! DEFINITION. The CTRL and STATUS words (10_state.md R21 to R26), every way STATUS changes (R35), the error codes
(60_exceptions.md R220) and the interrupt line (R226). -/

namespace Sys2Proof.Machine

/-- What a read of CTRL returns: `zext_32({IE, ALG[1:0], DIR, 0})` (10_state.md R22). -/
def Ctrl.toWord (c : Ctrl) : Word :=
  (BitVec.ofBool c.ie ++ c.alg ++ BitVec.ofBool c.dir ++ 0#1).setWidth 32

/-- The fields a write of `w` to CTRL leaves: DIR from bit 1, ALG from bits 3:2, IE from bit 4; bits 31:5 are ignored
(10_state.md R23). -/
def Ctrl.ofWord (w : Word) : Ctrl :=
  { dir := w.getLsbD 1, alg := w.extractLsb' 2 2, ie := w.getLsbD 4 }

/-- What a read of STATUS returns: BUSY bit 0, DONE bit 1, ERR bit 2, ERRCODE bits 7:4, zeros elsewhere
(10_state.md R24). -/
def Status.toWord (t : Status) : Word :=
  (t.errcode ++ 0#1 ++ BitVec.ofBool t.err ++ BitVec.ofBool t.done ++ BitVec.ofBool t.busy).setWidth 32

/-- ERRCODE of each error (60_exceptions.md R220). -/
def CodecError.code : CodecError → BitVec 4
  | .malformedStream => 1#4
  | .invalidCode => 2#4
  | .unsupportedAlgorithm => 3#4
  | .invalidInputType => 4#4
  | .capacityExceeded => 5#4

/-- STATUS at acceptance (40_control.md R120, step 3). -/
def Status.atAcceptance : Status := { busy := true, done := false, err := false, errcode := 0#4 }

/-- STATUS at Finish(OK) (40_control.md R127, steps 3 and 4). -/
def Status.atFinishOk : Status := { busy := false, done := true, err := false, errcode := 0#4 }

/-- STATUS at Finish(E) (40_control.md R128, steps 1 and 2). -/
def Status.atFinishError (e : CodecError) : Status :=
  { busy := false, done := true, err := true, errcode := e.code }

/-- STATUS after a host write of `w` to it: bit 1 clears DONE, every other bit is ignored (10_state.md R25). -/
def Status.afterWrite (w : Word) (t : Status) : Status :=
  if w.getLsbD 1 then { t with done := false } else t

/-- `IRQ = STATUS.DONE ∧ CTRL.IE` at every instant (60_exceptions.md R226). -/
def State.irq (s : State) : Bool := s.status.done && s.ctrl.ie

/-- Whether OUT_LEN, TOKEN_COUNT and NEXT_CODE have a specified value: not while BUSY = 1, and not after a command that
finished with an error until the next Finish(OK) or reset (10_state.md R34). ERR stays 1 just that long (R25). -/
def State.resultsSpecified (s : State) : Bool := !s.status.busy && !s.status.err

end Sys2Proof.Machine
end

