-- ==== Sys2Proof/Machine/Operands.lean ====
section
/-! DEFINITION. What a command reads: the operation its latched selector names (40_control.md R122), its input sequence
(R123), and the decimal text of LZ code streams (00_scope.md R12, 30_encoding.md R98 to R101). -/

namespace Sys2Proof.Machine

/-- The command of 30_encoding.md R91 for `(op_sel.ALG, op_sel.DIR)`, none where `op_sel.ALG ∉ {00, 01}`
(40_control.md R122). -/
def OpSel.command (sel : OpSel) : Option Command :=
  if sel.alg = 0#2 then some (if sel.dir then .rleDecode else .rleEncode)
  else if sel.alg = 1#2 then some (if sel.dir then .lzDecode else .lzEncode)
  else none

/-- The value listed for an index of a buffer, none where the byte is unspecified. -/
def Memory.read : Memory → Nat → Option Byte
  | [], _ => none
  | c :: m, i => if c.1 = i then some c.2 else Memory.read m i

/-- The input `x = [IN[0], …, IN[n−1]]` (40_control.md R123). A byte the host has not written since reset is a fresh
draw (20_memory.md R67; log 4). -/
def State.inputBytes (s : State) (n : Nat) : List Byte :=
  (List.range n).map fun i => (s.inMem.read i).getD (Config.engineByteDraw (s.engineDraws + i))

/-- ASCII comma, the separator of an LZ code stream (30_encoding.md R98). -/
def comma : Byte := 0x2C#8

/-- The ASCII byte of a decimal digit (00_scope.md R12). -/
def digitByte (d : Nat) : Byte := BitVec.ofNat 8 (0x30 + d)

/-- The digits of `c`, most significant first, for any fuel above the number of digits but one. -/
def decDigits : Nat → Nat → List Byte
  | 0, _ => []
  | fuel + 1, c => if c < 10 then [digitByte c] else decDigits fuel (c / 10) ++ [digitByte (c % 10)]

/-- `dec(c)`: the shortest decimal rendering (00_scope.md R12). -/
def dec (c : Nat) : List Byte := decDigits (c + 1) c

/-- `val(s)` of a digit sequence: its base-10 value, unbounded (00_scope.md R12, 30_encoding.md R101). -/
def val (f : List Byte) : Nat := f.foldl (fun acc d => acc * 10 + (d.toNat - 0x30)) 0

/-- `digit = %x30-39` (30_encoding.md R99). -/
def isDigit (b : Byte) : Bool := 0x30#8 ≤ b && b ≤ 0x39#8

/-- `nzdigit = %x31-39` (30_encoding.md R99). -/
def isNzDigit (b : Byte) : Bool := 0x31#8 ≤ b && b ≤ 0x39#8

/-- Whether a field matches `code = %x30 / ( nzdigit *digit )` (30_encoding.md R99). -/
def matchesCode : List Byte → Bool
  | [] => false
  | d :: ds => (d == 0x30#8 && ds.isEmpty) || (isNzDigit d && ds.all isDigit)

/-- `ParseField(f)` (42_lz.md R184). -/
def parseField (f : List Byte) : Except CodecError Nat :=
  if matchesCode f then .ok (val f) else .error .invalidCode

/-- The bytes of the field that starts at `fs`: up to the next comma or the end of the text (42_lz.md R183). -/
def fieldAt (x : List Byte) (fs : Nat) : List Byte :=
  (x.drop fs).takeWhile (fun b => b != comma)

end Sys2Proof.Machine
end

