-- ==== Sys2Proof/Machine/Ops.lean ====
section
/-! DEFINITION. The shared operations: the buffers, the dictionary, `Emit` (40_control.md R125), acceptance (R120), the
start checks (R122), Finish(OK) (R127), `raise` with Finish(E) (R126, R128), the way back from an error
(60_exceptions.md R227), and a command taken from acceptance to Finish (40_control.md R131). -/

namespace Sys2Proof.Machine

/-! ## Buffers -/

/-- Write one byte, keeping the indices rising (20_memory.md R66). -/
def Memory.write : Memory → Nat → Byte → Memory
  | [], i, v => [(i, v)]
  | c :: m, i, v =>
    if i < c.1 then (i, v) :: c :: m
    else if i = c.1 then (i, v) :: m
    else c :: Memory.write m i v

/-- Bytes at consecutive indices from `i` on: byte `i` of a stream is byte `i` of its buffer (20_memory.md R65). -/
def Memory.ofBytes : Nat → List Byte → Memory
  | _, [] => []
  | i, b :: bs => (i, b) :: Memory.ofBytes (i + 1) bs

/-- The canonical form of a buffer: indices strictly rising. -/
abbrev Memory.wf (m : Memory) : Prop := m.Pairwise (fun a b => a.1 < b.1)

/-- Every listed index is inside a buffer of `cap` bytes. -/
abbrev Memory.within (m : Memory) (cap : Nat) : Prop := ∀ c ∈ m, c.1 < cap

/-! ## Phrases and the dictionary -/

/-- The one-byte phrase [b]. -/
def Phrase.single (b : Byte) : Phrase := { first := b, rest := [] }

/-- `p ++ [b]`. -/
def Phrase.snoc (p : Phrase) (b : Byte) : Phrase := { p with rest := p.rest ++ [b] }

/-- A phrase as a byte sequence. -/
def Phrase.bytes (p : Phrase) : List Byte := p.first :: p.rest

/-- The dictionary at the start of every LZ command (42_lz.md R170). -/
def Dict.seed : Dict := { added := [] }

/-- `next_code`: 256 at the start, one more for each phrase appended (42_lz.md R170, R171, R185; log 9). -/
def Dict.nextCode (d : Dict) : Nat := 256 + d.added.length

/-- `Dict_D[c]`, none where `c` is not "a known dictionary code" (42_lz.md R185). -/
def Dict.phrase? (d : Dict) (c : Nat) : Option Phrase :=
  if c < 256 then some (Phrase.single (BitVec.ofNat 8 c)) else d.added[c - 256]?

/-- `p ∈ dom(Dict_E)` (42_lz.md R171). -/
def Dict.has (d : Dict) (p : Phrase) : Bool := p.rest.isEmpty || d.added.contains p

/-- `Dict_E[p]` (42_lz.md R171). Rule R172 asks for it only where `p ∈ dom(Dict_E)` (log 19). -/
def Dict.codeOf (d : Dict) (p : Phrase) : Nat :=
  if p.rest.isEmpty then p.first.toNat else 256 + d.added.idxOf p

/-- Bind `next_code` to a phrase and increment it (42_lz.md R171, R185). -/
def Dict.push (d : Dict) (p : Phrase) : Dict := { added := d.added ++ [p] }

/-! ## The engines' shared working state -/

/-- The capacities an engine runs under; `none` is ∞ (00_scope.md R7). -/
structure Limits where
  outCap : Option Nat
  dictCap : Option Nat
deriving DecidableEq, Repr

/-- No capacity at all: "exactly the source's unbounded software semantics" (00_scope.md R7). -/
def Limits.unbounded : Limits := { outCap := none, dictCap := none }

/-- The finite capacities of the block (00_scope.md R6, R7). -/
def Params.limits (p : Params) : Limits := { outCap := some p.outCap, dictCap := some p.dictCap }

/-- What a command hands to Finish(OK): its output, `tok` and `next_code` (40_control.md R127). -/
structure Result where
  out : List Byte
  tok : Nat
  nextCode : Nat
deriving DecidableEq, Repr

/-- What one engine step leads to (40_control.md R131): more steps, Finish(OK), or `raise`. -/
inductive Turn (α : Type) where
  | more (e : α)
  | ok (r : Result)
  | fail (e : CodecError)
deriving DecidableEq, Repr

/-- The same turn of a wider engine state. -/
def Turn.map {α β : Type} (f : α → β) : Turn α → Turn β
  | .more e => .more (f e)
  | .ok r => .ok r
  | .fail e => .fail e

/-- At most `fuel` engine steps, stopping at Finish. -/
def drive {α : Type} (stepOnce : α → Turn α) : Nat → α → Turn α
  | 0, e => .more e
  | fuel + 1, e =>
    match stepOnce e with
    | .more e' => drive stepOnce fuel e'
    | .ok r => .ok r
    | .fail err => .fail err

/-- Steps after a first turn. -/
def Turn.drive {α : Type} (stepOnce : α → Turn α) (fuel : Nat) : Turn α → Turn α
  | .more e => Sys2Proof.Machine.drive stepOnce fuel e
  | .ok r => .ok r
  | .fail err => .fail err

/-- The common engine state at the start: "`ip = 0`, `out_len = 0` and `tok = 0`" (40_control.md R124). -/
def Io.begin (x : List Byte) : Io := { x := x, ip := 0, out := [], tok := 0 }

/-- `n`, the length of the input (10_state.md R36). -/
def Io.n (io : Io) : Nat := io.x.length

/-- `out_len`, the number of bytes written (10_state.md R36). -/
def Io.outLen (io : Io) : Nat := io.out.length

/-- The result of a command that ends here. -/
def Io.result (io : Io) (nextCode : Nat) : Result := { out := io.out, tok := io.tok, nextCode := nextCode }

/-- `Emit(v)` (40_control.md R125). -/
def emit (lim : Limits) (v : Byte) (io : Io) : Except CodecError Io :=
  if lim.outCap = some io.outLen then .error .capacityExceeded
  else .ok { io with out := io.out ++ [v] }

/-- `for v in vs: Emit(v)`. -/
def emitAll (lim : Limits) : List Byte → Io → Except CodecError Io
  | [], io => .ok io
  | v :: vs, io =>
    match emit lim v io with
    | .ok io' => emitAll lim vs io'
    | .error e => .error e

/-! ## The engine state of a command -/

/-- IDLE or RUN (10_state.md R36). -/
def Engine.phase : Engine → Phase
  | .idle => .idle
  | _ => .run

/-- `op` (10_state.md R36), once the start checks have passed. -/
def Engine.op? : Engine → Option Command
  | .idle | .start _ _ => none
  | .rleEncode _ => some .rleEncode
  | .rleDecode _ => some .rleDecode
  | .lzEncode _ => some .lzEncode
  | .lzDecode _ => some .lzDecode

/-- The common engine state of a running engine. -/
def Engine.io? : Engine → Option Io
  | .idle | .start _ _ => none
  | .rleEncode e => some e.io
  | .rleDecode e => some e.io
  | .lzEncode e => some e.io
  | .lzDecode e => some e.io

/-- The bytes the command in flight has written with `Emit`. -/
def Engine.out (e : Engine) : List Byte :=
  match e.io? with
  | some io => io.out
  | none => []

/-- `phase` of the block (10_state.md R36). -/
def State.phase (s : State) : Phase := s.engine.phase

/-! ## Acceptance, Finish and raise -/

/-- Acceptance (40_control.md R120): the fields just written, the latches, STATUS, `phase <- RUN`. OUT_MEM becomes
unspecified (20_memory.md R68). -/
def State.accept (c : Ctrl) (s : State) : State :=
  { s with
    ctrl := c
    status := Status.atAcceptance
    outMem := []
    engine := .start { alg := c.alg, dir := c.dir } s.inLen }

/-- Finish(OK) (40_control.md R127). OUT_MEM holds the output (20_memory.md R68). -/
def State.finishOk (r : Result) (s : State) : State :=
  { s with
    status := Status.atFinishOk
    outLen := BitVec.ofNat 32 r.out.length
    tokenCount := BitVec.ofNat 32 r.tok
    nextCode := BitVec.ofNat 32 r.nextCode
    outMem := Memory.ofBytes 0 r.out
    engine := .idle }

/-- `raise E` and Finish(E) (40_control.md R126, R128): the error is recorded in STATUS and nowhere else
(60_exceptions.md R224), and no byte of OUT_MEM has a specified value (20_memory.md R68). -/
def State.finishError (e : CodecError) (s : State) : State :=
  { s with
    status := Status.atFinishError e
    outMem := []
    engine := .idle }

/-- The host's acknowledgement, a write of 1 to STATUS.DONE (60_exceptions.md R227): the way back from a completion.
ERR and ERRCODE stay (10_state.md R25). -/
def State.acknowledge (s : State) : State := { s with status := { s.status with done := false } }

/-- The start checks, in their order (40_control.md R122). -/
def startError (p : Params) (sel : OpSel) (n : Word) : Option CodecError :=
  if sel.command = none then some .unsupportedAlgorithm
  else if p.inCap < n.toNat then some .invalidInputType
  else none

/-- The command takes its `n` input bytes (40_control.md R123; log 4). -/
def State.takeInput (n : Nat) (s : State) : State := { s with engineDraws := s.engineDraws + n }

/-- The state after an engine's turn: still in flight, with what `Emit` has written in OUT_MEM (40_control.md R125), or
finished. -/
def State.settle (t : Turn Engine) (s : State) : State :=
  match t with
  | .more e => { s with engine := e, outMem := Memory.ofBytes 0 e.out }
  | .ok r => s.finishOk r
  | .fail err => s.finishError err

/-- The start checks, and then the engine `run` on the input, to Finish (40_control.md R122, R131). -/
def State.perform (run : Limits → List Byte → Turn Engine) (sel : OpSel) (n : Word) (s : State) : State :=
  match startError s.params sel n with
  | some err => s.finishError err
  | none => (s.takeInput n.toNat).settle (run s.params.limits (s.inputBytes n.toNat))

/-- A command word with fields `c`, taken from acceptance to Finish as one transition (40_control.md R131). While BUSY
it is ignored (10_state.md R28), and while reset is asserted it has no effect (70_reset_and_hazards.md R260). -/
def issue (c : Ctrl) (run : Limits → List Byte → Turn Engine) (s : State) : Host.Outcome State Fault Refusal :=
  if s.inReset || s.status.busy then .next s
  else .next ((s.accept c).perform run { alg := c.alg, dir := c.dir } s.inLen)

/-- A 32-bit host write of `w` to CTRL (10_state.md R23, R28): the fields, and acceptance where bit 0 is set. -/
def State.writeCtrl (w : Word) (s : State) : State :=
  if s.inReset || s.status.busy then s
  else if w.getLsbD 0 then s.accept (Ctrl.ofWord w)
  else { s with ctrl := Ctrl.ofWord w }

/-- The reset input takes effect (70_reset_and_hazards.md R260, R261): every register at its reset value, the engine
idle, no byte of a buffer specified. The parameters stay (10_state.md R32); so do the model's own input list and draw
counters (log 10). -/
def State.resetTo (level : Bool) (s : State) : State :=
  { State.reset with
    params := s.params
    inReset := level
    inputs := s.inputs
    hostDraws := s.hostDraws
    engineDraws := s.engineDraws }

end Sys2Proof.Machine
end

