-- ==== Sys2Proof/Machine/Lz.lean ====
section
/-! DEFINITION. The LZ commands (42_lz.md): the engines of R172 and R186, one loop iteration a step, and the meanings of
LZ_ENCODE and LZ_DECODE. -/

namespace Sys2Proof.Machine

/-! ## LZ_ENCODE -/

/-- The engine's initial state: the seed, `cur <- []` (42_lz.md R172). -/
def lzEncodeBegin (x : List Byte) : Turn LzEnc :=
  .more { io := Io.begin x, dict := Dict.seed, cur := none }

/-- `EmitCode(c)`: a separator before every code but the first, the decimal digits, `tok <- tok + 1` (42_lz.md R173). -/
def emitCode (lim : Limits) (c : Nat) (io : Io) : Except CodecError Io :=
  match emitAll lim ((if 0 < io.tok then [comma] else []) ++ dec c) io with
  | .ok io' => .ok { io' with tok := io'.tok + 1 }
  | .error err => .error err

/-- One iteration of the loop of 42_lz.md R172; at the end of the input, the final token and Finish. With `cur = []`
the candidate [b] is in the seed, so the byte only extends (R174). The code is emitted before the insertion is checked
(R179). -/
def lzEncodeStep (lim : Limits) (e : LzEnc) : Turn LzEnc :=
  match e.io.x[e.io.ip]? with
  | some b =>
    let io := { e.io with ip := e.io.ip + 1 }
    match e.cur with
    | none => .more { e with io := io, cur := some (Phrase.single b) }
    | some p =>
      if e.dict.has (p.snoc b) then .more { e with io := io, cur := some (p.snoc b) }
      else
        match emitCode lim (e.dict.codeOf p) io with
        | .error err => .fail err
        | .ok io' =>
          if lim.dictCap = some e.dict.nextCode then .fail .capacityExceeded
          else .more { io := io', dict := e.dict.push (p.snoc b), cur := some (Phrase.single b) }
  | none =>
    match e.cur with
    | none => .ok (e.io.result e.dict.nextCode)
    | some p =>
      match emitCode lim (e.dict.codeOf p) e.io with
      | .ok io' => .ok (io'.result e.dict.nextCode)
      | .error err => .fail err

/-- The whole engine of 42_lz.md R172: one step for each input byte, and one at the end. -/
def lzEncodeRun (lim : Limits) (x : List Byte) : Turn Engine :=
  ((lzEncodeBegin x).drive (lzEncodeStep lim) (x.length + 1)).map .lzEncode

/-- LZ_ENCODE (42_lz.md R172): "CTRL write 0x0000_0005, or 0x0000_0015 with IE". -/
def execLzEncode (ie : Bool) (s : State) : Host.Outcome State Fault Refusal :=
  issue { dir := false, alg := 1#2, ie := ie } lzEncodeRun s

/-! ## LZ_DECODE -/

/-- The initial state: the seed, `prev <- ⊥`, `fs <- 0`; and Finish(OK) at once for the empty text (42_lz.md R186). -/
def lzDecodeBegin (x : List Byte) : Turn LzDec :=
  if x = [] then .ok ((Io.begin x).result Dict.seed.nextCode)
  else .more { io := Io.begin x, dict := Dict.seed, prev := none, fs := 0 }

/-- The entry of a code, none where the command raises InvalidCode. The first code must be in the dictionary (42_lz.md
R187); a subsequent one may also be the self-reference `next_code` (R188). -/
def resolveCode (d : Dict) (prev : Option Phrase) (c : Nat) : Option Phrase :=
  match prev with
  | none => d.phrase? c
  | some p =>
    match d.phrase? c with
    | some entry => some entry
    | none => if c = d.nextCode then some (p.snoc p.first) else none

/-- The append after a subsequent code, `prev ++ [entry[0]]` at `next_code` (42_lz.md R189), which a full dictionary
refuses (R191). The first code appends nothing (R187). -/
def appendEntry (lim : Limits) (d : Dict) (prev : Option Phrase) (entry : Phrase) : Except CodecError Dict :=
  match prev with
  | none => .ok d
  | some p =>
    if lim.dictCap = some d.nextCode then .error .capacityExceeded
    else .ok (d.push (p.snoc entry.first))

/-- One iteration of the loop of 42_lz.md R186: one field is parsed, resolved, emitted and inserted, in that order
(R183, R192); Finish(OK) after the last field. -/
def lzDecodeStep (lim : Limits) (e : LzDec) : Turn LzDec :=
  let field := fieldAt e.io.x e.fs
  let fe := e.fs + field.length
  match parseField field with
  | .error err => .fail err
  | .ok c =>
    match resolveCode e.dict e.prev c with
    | none => .fail .invalidCode
    | some entry =>
      match emitAll lim entry.bytes { e.io with ip := fe } with
      | .error err => .fail err
      | .ok io =>
        match appendEntry lim e.dict e.prev entry with
        | .error err => .fail err
        | .ok d =>
          let io' := { io with tok := io.tok + 1 }
          if fe < e.io.n then .more { io := io', dict := d, prev := some entry, fs := fe + 1 }
          else .ok (io'.result d.nextCode)

/-- The whole engine of 42_lz.md R186: one step for each field, of which a text of n bytes has at most n + 1. -/
def lzDecodeRun (lim : Limits) (x : List Byte) : Turn Engine :=
  ((lzDecodeBegin x).drive (lzDecodeStep lim) (x.length + 1)).map .lzDecode

/-- LZ_DECODE (42_lz.md R186): "CTRL write 0x0000_0007, or 0x0000_0017 with IE". -/
def execLzDecode (ie : Bool) (s : State) : Host.Outcome State Fault Refusal :=
  issue { dir := true, alg := 1#2, ie := ie } lzDecodeRun s

end Sys2Proof.Machine
end

