-- ==== Sys2Proof/Machine/Rle.lean ====
section
/-! DEFINITION. The RLE commands (41_rle.md): the engines of R141 and R151, one loop iteration a step, and the meanings
of RLE_ENCODE and RLE_DECODE. -/

namespace Sys2Proof.Machine

/-! ## RLE_ENCODE -/

/-- The engine's initial state (41_rle.md R141). -/
def rleEncodeBegin (x : List Byte) : Turn RleEnc := .more { io := Io.begin x, run := none }

/-- `Emit(run_val); Emit(run_len); tok <- tok + 1` (41_rle.md R141). -/
def emitRun (lim : Limits) (r : Run) (io : Io) : Except CodecError Io :=
  match emit lim r.val io with
  | .error e => .error e
  | .ok io₁ =>
    match emit lim (BitVec.ofNat 8 r.len) io₁ with
    | .error e => .error e
    | .ok io₂ => .ok { io₂ with tok := io₂.tok + 1 }

/-- One iteration of the loop of 41_rle.md R141; at the end of the input, the flush of the last segment and Finish. -/
def rleEncodeStep (lim : Limits) (e : RleEnc) : Turn RleEnc :=
  match e.io.x[e.io.ip]? with
  | some b =>
    let io := { e.io with ip := e.io.ip + 1 }
    match e.run with
    | none => .more { io := io, run := some { val := b, len := 1 } }
    | some r =>
      if b = r.val ∧ r.len < 255 then .more { io := io, run := some { r with len := r.len + 1 } }
      else
        match emitRun lim r io with
        | .ok io' => .more { io := io', run := some { val := b, len := 1 } }
        | .error err => .fail err
  | none =>
    match e.run with
    | none => .ok (e.io.result 0)
    | some r =>
      match emitRun lim r e.io with
      | .ok io' => .ok (io'.result 0)
      | .error err => .fail err

/-- The whole engine of 41_rle.md R141: at most one step for each input byte, and one at the end. -/
def rleEncodeRun (lim : Limits) (x : List Byte) : Turn Engine :=
  ((rleEncodeBegin x).drive (rleEncodeStep lim) (x.length + 1)).map .rleEncode

/-- RLE_ENCODE (41_rle.md R141): "CTRL write 0x0000_0001, or 0x0000_0011 with IE". -/
def execRleEncode (ie : Bool) (s : State) : Host.Outcome State Fault Refusal :=
  issue { dir := false, alg := 0#2, ie := ie } rleEncodeRun s

/-! ## RLE_DECODE -/

/-- The initial state and the parity check, "checked first, before any output" (41_rle.md R151, R152). -/
def rleDecodeBegin (x : List Byte) : Turn RleDec :=
  if x.length % 2 = 1 then .fail .malformedStream
  else .more { io := Io.begin x, pair := none }

/-- `v <- IN[ip]; r <- IN[ip + 1]; ip <- ip + 2` (41_rle.md R151). A value byte with no run length is a malformed
stream; the parity check rules it out (log 19). None at the end of the input. -/
def takePair (e : RleDec) : Option (Except CodecError RleDec) :=
  match e.io.x[e.io.ip]?, e.io.x[e.io.ip + 1]? with
  | some v, some r => some (.ok { io := { e.io with ip := e.io.ip + 2 }, pair := some { v := v, r := r } })
  | some _, none => some (.error .malformedStream)
  | none, _ => none

/-- `if r = 0: raise MalformedStream`, then `repeat r times: Emit(v)` and `tok <- tok + 1` (41_rle.md R151). -/
def expandPair (lim : Limits) (p : Pair) (io : Io) : Except CodecError Io :=
  if p.r = 0#8 then .error .malformedStream
  else
    match emitAll lim (List.replicate p.r.toNat p.v) io with
    | .ok io' => .ok { io' with tok := io'.tok + 1 }
    | .error err => .error err

/-- One iteration of the loop of 41_rle.md R151; at the end of the input, Finish. -/
def rleDecodeStep (lim : Limits) (e : RleDec) : Turn RleDec :=
  match takePair e with
  | none => .ok (e.io.result 0)
  | some (.error err) => .fail err
  | some (.ok e') =>
    match e'.pair with
    | none => .more e'
    | some p =>
      match expandPair lim p e'.io with
      | .ok io' => .more { e' with io := io' }
      | .error err => .fail err

/-- The whole engine of 41_rle.md R151: one step for each pair, and one at the end. -/
def rleDecodeRun (lim : Limits) (x : List Byte) : Turn Engine :=
  ((rleDecodeBegin x).drive (rleDecodeStep lim) (x.length + 1)).map .rleDecode

/-- RLE_DECODE (41_rle.md R151): "CTRL write 0x0000_0003, or 0x0000_0013 with IE". -/
def execRleDecode (ie : Bool) (s : State) : Host.Outcome State Fault Refusal :=
  issue { dir := true, alg := 0#2, ie := ie } rleDecodeRun s

end Sys2Proof.Machine
end

