-- ==== Sys2Proof/Machine/System.lean ====
section
/-! DEFINITION. The command word with an unsupported algorithm (30_encoding.md R92, 40_control.md R122). -/

namespace Sys2Proof.Machine

/-- No engine runs for an unsupported algorithm: "The core never retries or silently substitutes a default algorithm"
(60_exceptions.md R222). -/
def unsupportedRun (_lim : Limits) (_x : List Byte) : Turn Engine := .fail .unsupportedAlgorithm

/-- UNSUPPORTED_ALG: "With START = 1 they are accepted and then finish with UnsupportedAlgorithm" (30_encoding.md R92);
the start checks raise it, before InvalidInputType (40_control.md R122). -/
def execUnsupportedAlg (ie : Bool) (alg : BitVec 2) (dir : Bool) (s : State) : Host.Outcome State Fault Refusal :=
  issue { dir := dir, alg := alg, ie := ie } unsupportedRun s

end Sys2Proof.Machine
end

