-- ==== Sys2Proof/Machine/Dispatch.lean ====
section
/-! DEFINITION. The meaning of each command word: one arm per constructor of `Instr`. -/

namespace Sys2Proof.Machine

def exec (i : Instr) (s : State) : Host.Outcome State Fault Refusal :=
  match i with
  | .rleEncode ie => Sys2Proof.Machine.execRleEncode ie s
  | .rleDecode ie => Sys2Proof.Machine.execRleDecode ie s
  | .lzEncode ie => Sys2Proof.Machine.execLzEncode ie s
  | .lzDecode ie => Sys2Proof.Machine.execLzDecode ie s
  | .unsupportedAlg ie alg dir => Sys2Proof.Machine.execUnsupportedAlg ie alg dir s

end Sys2Proof.Machine
end

