-- ==== Sys2Proof/Machine/Engine.lean ====
section
/-! DEFINITION. The engine one step at a time (40_control.md R131): what the block does between the acceptance of a
command and its Finish when the host's accesses fall in between. The steps are those the meanings run at once. -/

namespace Sys2Proof.Machine

/-- The first turn of a command's engine, before its loop (41_rle.md R141, R151; 42_lz.md R172, R186). -/
def Command.begin (cmd : Command) (x : List Byte) : Turn Engine :=
  match cmd with
  | .rleEncode => (rleEncodeBegin x).map .rleEncode
  | .rleDecode => (rleDecodeBegin x).map .rleDecode
  | .lzEncode => (lzEncodeBegin x).map .lzEncode
  | .lzDecode => (lzDecodeBegin x).map .lzDecode

/-- The start checks, the input and the engine's first turn (40_control.md R122, R124). -/
def State.startTurn (sel : OpSel) (n : Word) (s : State) : State :=
  match startError s.params sel n, sel.command with
  | some err, _ => s.finishError err
  | none, none => s.finishError .unsupportedAlgorithm
  | none, some cmd => (s.takeInput n.toNat).settle (cmd.begin (s.inputBytes n.toNat))

/-- One engine step (40_control.md R131). An idle engine does nothing: "It starts no command by itself"
(70_reset_and_hazards.md R262). -/
def State.engineTurn (s : State) : State :=
  match s.engine with
  | .idle => s
  | .start sel n => s.startTurn sel n
  | .rleEncode e => s.settle ((rleEncodeStep s.params.limits e).map .rleEncode)
  | .rleDecode e => s.settle ((rleDecodeStep s.params.limits e).map .rleDecode)
  | .lzEncode e => s.settle ((lzEncodeStep s.params.limits e).map .lzEncode)
  | .lzDecode e => s.settle ((lzDecodeStep s.params.limits e).map .lzDecode)

end Sys2Proof.Machine
end

