-- ==== Sys2Proof/Machine/HostPort.lean ====
section
/-! DEFINITION. The host port: the address map and access widths (20_memory.md R60 to R64), what each register and
buffer reads as and what a write to it does (10_state.md R20 to R34, 20_memory.md R66 to R70), and AccessFault
(60_exceptions.md R228). -/

namespace Sys2Proof.Machine

/-- The nine registers (10_state.md R20). -/
inductive RegName where
  | ctrl
  | status
  | inLen
  | outLen
  | tokenCount
  | nextCode
  | inCapR
  | outCapR
  | dictCapR
deriving DecidableEq, Repr

/-- A register's offset (10_state.md R20). -/
def RegName.offset : RegName → Nat
  | .ctrl => 0x000
  | .status => 0x004
  | .inLen => 0x008
  | .outLen => 0x00C
  | .tokenCount => 0x010
  | .nextCode => 0x014
  | .inCapR => 0x018
  | .outCapR => 0x01C
  | .dictCapR => 0x020

/-- Every register, in the order of 10_state.md R20. -/
def RegName.all : List RegName :=
  [.ctrl, .status, .inLen, .outLen, .tokenCount, .nextCode, .inCapR, .outCapR, .dictCapR]

/-- The register at an offset of the window: "No other offset in the register window holds a register" (10_state.md
R20). -/
def regAt (off : Nat) : Option RegName := RegName.all.find? (fun r => r.offset == off)

/-- Offset of IN_MEM byte 0 (20_memory.md R61). -/
def inMemBase : Nat := 0x01000000

/-- Offset of OUT_MEM byte 0 (20_memory.md R61). -/
def outMemBase : Nat := 0x02000000

/-- What a legal access reaches. -/
inductive Target where
  | reg (r : RegName)
  | inByte (i : Nat)
  | outByte (i : Nat)
deriving DecidableEq, Repr

/-- What an access of `width` bytes at an offset reaches; none where it gets AccessFault: an undefined offset of the
map (20_memory.md R61, R62), or a width or alignment its space does not take (R63). -/
def targetAt (p : Params) (off width : Nat) : Option Target :=
  if off < 0x100 then
    if width = 4 then (regAt off).map .reg else none
  else if inMemBase ≤ off ∧ off < inMemBase + p.inCap then
    if width = 1 then some (.inByte (off - inMemBase)) else none
  else if outMemBase ≤ off ∧ off < outMemBase + p.outCap then
    if width = 1 then some (.outByte (off - outMemBase)) else none
  else none

/-- The offset of a bus address from BASE, none where the address is outside the block's 2^26 bytes (20_memory.md R61;
log 7). -/
def Params.offset? (p : Params) (addr : Nat) : Option Nat :=
  if p.base ≤ addr ∧ addr < p.base + 2 ^ 26 then some (addr - p.base) else none

/-- The bus address of an access. -/
def Access.addr : Access → Nat
  | .read _ a => a
  | .write a _ => a

/-- The width of an access in bytes. -/
def Access.width : Access → Nat
  | .read w _ => w
  | .write _ lanes => lanes.length

/-- The specified value of a register, none where it is unspecified (10_state.md R22, R24, R27, R29 to R32, R34). -/
def State.regValue (s : State) : RegName → Option Word
  | .ctrl => some s.ctrl.toWord
  | .status => some s.status.toWord
  | .inLen => some s.inLen
  | .outLen => if s.resultsSpecified then some s.outLen else none
  | .tokenCount => if s.resultsSpecified then some s.tokenCount else none
  | .nextCode => if s.resultsSpecified then some s.nextCode else none
  | .inCapR => some (BitVec.ofNat 32 s.params.inCap)
  | .outCapR => some (BitVec.ofNat 32 s.params.outCap)
  | .dictCapR => some (BitVec.ofNat 32 s.params.dictCap)

/-- The specified value of an OUT_MEM byte: none while BUSY = 1, after an error, and where no completed output lies
(20_memory.md R68). -/
def State.outByte (s : State) (i : Nat) : Option Byte :=
  if s.resultsSpecified then s.outMem.read i else none

/-- The lanes a legal read returns, none where the value is unspecified. -/
def State.peek (s : State) : Target → Option (List Byte)
  | .reg r => (s.regValue r).map lanesOfWord
  | .inByte i => (s.inMem.read i).map fun b => [b]
  | .outByte i => (s.outByte i).map fun b => [b]

/-- A fresh draw for an unspecified read (10_state.md R34, 20_memory.md R67, R68; log 3). -/
def drawLanes (k : Nat) : Target → List Byte
  | .reg _ => lanesOfWord (Config.hostWordDraw k)
  | .inByte _ => [Config.hostByteDraw k]
  | .outByte _ => [Config.hostByteDraw k]

/-- A host read of a target: "No host read has a side effect" (20_memory.md R70). -/
def State.readTarget (t : Target) (s : State) : State :=
  match s.peek t with
  | some lanes => { s with response := .data lanes }
  | none => { s with response := .data (drawLanes s.hostDraws t), hostDraws := s.hostDraws + 1 }

/-- What a host write of `w` to a register does (10_state.md R23, R25, R27, R28, R33). -/
def State.writeReg (r : RegName) (w : Word) (s : State) : State :=
  match r with
  | .ctrl => s.writeCtrl w
  | .status => if s.status.busy then s else { s with status := s.status.afterWrite w }
  | .inLen => if s.status.busy then s else { s with inLen := w }
  | .outLen | .tokenCount | .nextCode | .inCapR | .outCapR | .dictCapR => s

/-- A host byte write to IN_MEM (20_memory.md R66, 10_state.md R28). -/
def State.writeIn (i : Nat) (v : Byte) (s : State) : State :=
  if s.status.busy then s else { s with inMem := s.inMem.write i v }

/-- A host write of byte lanes to a target. A write to OUT_MEM "completes with AccessFault and changes nothing"
(20_memory.md R68). -/
def State.writeTarget (t : Target) (lanes : List Byte) (s : State) : State :=
  match t with
  | .reg r => { s.writeReg r (wordOfLanes lanes) with response := .done }
  | .inByte i => { s.writeIn i (lanes.headD 0#8) with response := .done }
  | .outByte _ => { s with response := .accessFault }

/-- The port takes one host access (20_memory.md R62, R63, R73). While reset is asserted an access has no effect
(70_reset_and_hazards.md R260). -/
def State.access (a : Access) (s : State) : State :=
  if s.inReset then { s with response := .none }
  else
    match s.params.offset? a.addr with
    | none => { s with response := .notSelected }
    | some off =>
      match targetAt s.params off a.width with
      | none => { s with response := .accessFault }
      | some t =>
        match a with
        | .read _ _ => s.readTarget t
        | .write _ lanes => s.writeTarget t lanes

end Sys2Proof.Machine
end

