-- ==== Sys2Proof/Machine/Step.lean ====
section
/-! DEFINITION. One step of the block: the next thing the outside world does (log 1), or, with nothing pending, the
engine's own progress (40_control.md R129). -/

namespace Sys2Proof.Machine

/-- The input list without its first entry. -/
def State.pop (rest : List Input) (s : State) : State := { s with inputs := rest }

/-- The bus's answer to a CTRL write: it completes (10_state.md R28), except while reset is asserted, when it has no
effect (70_reset_and_hazards.md R260). -/
def State.answerWrite (s : State) : State :=
  { s with response := if s.inReset then .none else .done }

/-- One step. -/
def step (s : State) : Host.Outcome State Fault Refusal :=
  match s.inputs with
  | [] => .next s.engineTurn
  | .bus a :: rest => .next ((s.pop rest).access a)
  | .command w :: rest =>
    match decodeWord w with
    | .ok i => exec i (s.pop rest).answerWrite
    | .error _ => .next ((s.pop rest).answerWrite.writeCtrl w)
  | .engine :: rest => .next (s.pop rest).engineTurn
  | .assertReset :: rest => .next ((s.pop rest).resetTo true)
  | .releaseReset :: rest => .next ((s.pop rest).resetTo false)

/-- The state whose next step takes the command word that the low `nbits` bits of `w` are (log 1): the host's 32-bit
write to CTRL, at the head of the inputs. -/
def State.withFetchWord (s : State) (nbits w : Nat) : State :=
  { s with inputs := .command (BitVec.ofNat 32 (w % 2 ^ nbits)) :: s.inputs }

end Sys2Proof.Machine
end

