-- ==== Sys2Proof/Machine/Functional.lean ====
section
/-! DEFINITION. The functional rules of the four commands, which say what an engine's output is without saying how it is
reached (41_rle.md R140, R150; 30_encoding.md R96 to R101; 42_lz.md R172, R186 to R190 read as functions). The machine
does not use this file: statements compare the engines with it. -/

namespace Sys2Proof.Machine

/-! ## RLE -/

/-- `runs(x)`: the maximal runs of `x` (41_rle.md R140). -/
def runs : List Byte → List (Byte × Nat)
  | [] => []
  | b :: bs =>
    match runs bs with
    | [] => [(b, 1)]
    | (v, len) :: rest => if b = v then (v, len + 1) :: rest else (b, 1) :: (v, len) :: rest

/-- `split(v, L)` (41_rle.md R140). -/
def splitRun (r : Byte × Nat) : List (Byte × Nat) :=
  List.replicate (r.2 / 255) (r.1, 255) ++ (if 0 < r.2 % 255 then [(r.1, r.2 % 255)] else [])

/-- `tokens(x)` (41_rle.md R140). -/
def rleTokens (x : List Byte) : List (Byte × Nat) := (runs x).flatMap splitRun

/-- The byte form of a token stream: value first, run length second (30_encoding.md R96). -/
def tokenBytes (ts : List (Byte × Nat)) : List Byte := ts.flatMap fun t => [t.1, BitVec.ofNat 8 t.2]

/-- `rle_enc(x)` (41_rle.md R140). -/
def rleEnc (x : List Byte) : List Byte := tokenBytes (rleTokens x)

/-- The byte pairs of a stream, a trailing odd byte left out. -/
def bytePairs : List Byte → List (Byte × Byte)
  | v :: r :: rest => (v, r) :: bytePairs rest
  | _ => []

/-- The bytes a list of pairs stands for (41_rle.md R150). -/
def expandPairs (ps : List (Byte × Byte)) : List Byte := ps.flatMap fun p => List.replicate p.2.toNat p.1

/-- The loop of `rle_dec` over the pairs, with `S` bytes so far (41_rle.md R150). -/
def rleDecCheck (outCap : Option Nat) : Nat → List (Byte × Byte) → Except CodecError Unit
  | _, [] => .ok ()
  | S, p :: ps =>
    if p.2 = 0#8 then .error .malformedStream
    else if outCap.any (fun cap => cap < S + p.2.toNat) then .error .capacityExceeded
    else rleDecCheck outCap (S + p.2.toNat) ps

/-- `rle_dec(y)` under an output capacity (41_rle.md R150). -/
def rleDec (outCap : Option Nat) (y : List Byte) : Except CodecError (List Byte) :=
  if y.length % 2 = 1 then .error .malformedStream
  else
    match rleDecCheck outCap 0 (bytePairs y) with
    | .error e => .error e
    | .ok () => .ok (expandPairs (bytePairs y))

/-! ## LZ wire text -/

/-- `render(cs)` (30_encoding.md R100). -/
def render : List Nat → List Byte
  | [] => []
  | [c] => dec c
  | c :: c' :: cs => dec c ++ comma :: render (c' :: cs)

/-- The fields of a wire text: it "splits at every 0x2C byte" (30_encoding.md R101). -/
def fields : List Byte → List (List Byte)
  | [] => [[]]
  | b :: bs =>
    if b = comma then [] :: fields bs
    else
      match fields bs with
      | [] => [[b]]
      | f :: fs => (b :: f) :: fs

/-- The codes of a list of fields, none where one of them matches no `code` (30_encoding.md R99, R101). -/
def fieldCodes : List (List Byte) → Option (List Nat)
  | [] => some []
  | f :: fs =>
    if matchesCode f then (fieldCodes fs).map (val f :: ·) else none

/-- The code sequence a wire text denotes, none where it does not match `lz-stream` (30_encoding.md R99, R101). -/
def parseText (t : List Byte) : Option (List Nat) :=
  if t = [] then some [] else fieldCodes (fields t)

/-! ## LZ codes and entries -/

/-- The codes passed to `EmitCode` from a dictionary and `cur` on, with no capacity (42_lz.md R172). -/
def lzCodesFrom : Dict → Option Phrase → List Byte → List Nat
  | _, none, [] => []
  | d, some p, [] => [d.codeOf p]
  | d, none, b :: bs => lzCodesFrom d (some (Phrase.single b)) bs
  | d, some p, b :: bs =>
    if d.has (p.snoc b) then lzCodesFrom d (some (p.snoc b)) bs
    else d.codeOf p :: lzCodesFrom (d.push (p.snoc b)) (some (Phrase.single b)) bs

/-- `cs`, the code sequence of LZ_ENCODE (42_lz.md R172). -/
def lzCodes (x : List Byte) : List Nat := lzCodesFrom Dict.seed none x

/-- The entries a code sequence stands for from a dictionary and `prev` on, with no capacity; none where a code has "no
definable origin" (42_lz.md R187 to R189). -/
def lzEntriesFrom : Dict → Option Phrase → List Nat → Option (List Phrase)
  | _, _, [] => some []
  | d, prev, c :: cs =>
    match resolveCode d prev c with
    | none => none
    | some entry =>
      let d' := match prev with
        | none => d
        | some p => d.push (p.snoc entry.first)
      (lzEntriesFrom d' (some entry) cs).map (entry :: ·)

/-- The entries of a whole code sequence (42_lz.md R186). -/
def lzEntries (cs : List Nat) : Option (List Phrase) := lzEntriesFrom Dict.seed none cs

/-- The bytes of a list of entries: `entry_0 ++ entry_1 ++ …` (42_lz.md R193). -/
def entriesBytes (es : List Phrase) : List Byte := es.flatMap Phrase.bytes

/-- The final `next_code` of an LZ command of `k` codes: `256 + k − 1` for k ≥ 1, and 256 for k = 0 (42_lz.md R177,
R193). -/
def lzNextCode (k : Nat) : Nat := if k = 0 then 256 else 255 + k

end Sys2Proof.Machine
end

