-- ==== Sys2Proof/Safety.lean ====
section
/-! DEFINITION. The terms statements use: when a command may start, the states that a completed and a failed command
leave, the invariant of the block, and the host accesses that 70_reset_and_hazards.md R264 to R268 call hazards. -/

namespace Sys2Proof.Machine

/-! ## Commands -/

/-- The block takes a command word: it is not busy (10_state.md R23) and reset is not asserted
(70_reset_and_hazards.md R260). -/
abbrev State.idleReady (s : State) : Prop := s.inReset = false ∧ s.status.busy = false

/-- The command's input is held in IN_MEM: n ≤ IN_CAP (40_control.md R122). -/
abbrev State.inputFits (s : State) : Prop := s.inLen.toNat ≤ s.params.inCap

/-- The input the next command takes (40_control.md R123). -/
def State.input (s : State) : List Byte := s.inputBytes s.inLen.toNat

/-- `s` after a command with CTRL fields `c` that finished OK with result `r` (40_control.md R127). `engineDraws` is the
model's own counter of input bytes (log 4), and how OUT_MEM lists the output is log 21. -/
def State.completed (s : State) (c : Ctrl) (r : Result) : State :=
  { s with
    ctrl := c
    status := { busy := false, done := true, err := false, errcode := 0#4 }
    outLen := BitVec.ofNat 32 r.out.length
    tokenCount := BitVec.ofNat 32 r.tok
    nextCode := BitVec.ofNat 32 r.nextCode
    outMem := Memory.ofBytes 0 r.out
    engine := .idle
    engineDraws := s.engineDraws + s.inLen.toNat }

/-- `s` after a command with CTRL fields `c` that finished with error `e` (40_control.md R128), having taken `taken`
input bytes (log 4). The result registers are unspecified: their fields keep what they held (log 12). -/
def State.failed (s : State) (c : Ctrl) (e : CodecError) (taken : Nat) : State :=
  { s with
    ctrl := c
    status := { busy := false, done := true, err := true, errcode := e.code }
    outMem := []
    engine := .idle
    engineDraws := s.engineDraws + taken }

/-- What the spec leaves of a state when the model's own fields are set aside: two states with equal views differ in
nothing 10_state.md and 20_memory.md name. -/
def State.view (s : State) : State :=
  { s with inputs := [], response := .none, hostDraws := 0, engineDraws := 0 }

/-- `k` engine steps (40_control.md R131). -/
def State.engineTurns : Nat → State → State
  | 0, s => s
  | k + 1, s => State.engineTurns k s.engineTurn

/-! ## The invariant -/

/-- The legal parameters (00_scope.md R6). -/
abbrev Params.legal (p : Params) : Prop :=
  p.base % 2 ^ 26 = 0 ∧ 1 ≤ p.inCap ∧ p.inCap ≤ 2 ^ 24 ∧ 1 ≤ p.outCap ∧ p.outCap ≤ 2 ^ 24 ∧
    256 ≤ p.dictCap ∧ p.dictCap ≤ 2 ^ 32 - 1

/-- "These invariants on STATUS hold in every reachable state" (10_state.md R26). -/
abbrev Status.legal (t : Status) : Prop :=
  (t.busy = true → t.done = false ∧ t.err = false ∧ t.errcode = 0#4) ∧
    (t.err = false ↔ t.errcode = 0#4) ∧ t.errcode.toNat ≤ 5

/-- The common engine state (10_state.md R36): 0 ≤ ip ≤ n and 0 ≤ out_len ≤ OUT_CAP, with n = IN_LEN ≤ IN_CAP. -/
abbrev Io.legal (p : Params) (inLen : Word) (io : Io) : Prop :=
  io.x.length = inLen.toNat ∧ io.x.length ≤ p.inCap ∧ io.ip ≤ io.x.length ∧ io.out.length ≤ p.outCap

/-- The encoder dictionary (42_lz.md R171): injective, every inserted phrase of two bytes or more and its prefix
without the last byte in the domain; and `next_code` ≤ DICT_CAP (10_state.md R39). -/
abbrev Dict.legalEnc (p : Params) (d : Dict) : Prop :=
  d.added.Nodup ∧ d.nextCode ≤ p.dictCap ∧
    ∀ q ∈ d.added, q.rest ≠ [] ∧ d.has { q with rest := q.rest.dropLast } = true

/-- `run_len` is in 1..255 (10_state.md R37); two bytes a token; at most one token an input byte (42_lz.md R178). -/
abbrev RleEnc.legal (e : RleEnc) : Prop :=
  e.io.out.length = 2 * e.io.tok ∧
    match e.run with
    | none => e.io.tok = 0 ∧ e.io.ip = 0
    | some r => 1 ≤ r.len ∧ r.len ≤ 255 ∧ e.io.tok + 1 ≤ e.io.ip

/-- Whole pairs have been taken, one token each (41_rle.md R151). -/
abbrev RleDec.legal (e : RleDec) : Prop :=
  e.io.x.length % 2 = 0 ∧ e.io.ip = 2 * e.io.tok

/-- `cur` is [] or a phrase in the domain of `Dict_E` (10_state.md R39); one insertion for each code emitted (42_lz.md
R176, property 5); `tok` stays below the bytes taken (R178). -/
abbrev LzEnc.legal (p : Params) (e : LzEnc) : Prop :=
  Dict.legalEnc p e.dict ∧ e.io.tok = e.dict.added.length ∧
    match e.cur with
    | none => e.io.ip = 0 ∧ e.io.tok = 0
    | some q => e.dict.has q = true ∧ e.io.tok + 1 ≤ e.io.ip

/-- `next_code` ≤ DICT_CAP (10_state.md R40); no append for the first code and one for every later one (42_lz.md R187,
R189); each field and its comma take two bytes or more. -/
abbrev LzDec.legal (p : Params) (e : LzDec) : Prop :=
  e.dict.nextCode ≤ p.dictCap ∧ e.fs ≤ e.io.x.length ∧ 2 * e.io.tok ≤ e.fs ∧ e.io.x ≠ [] ∧
    match e.prev with
    | none => e.io.tok = 0 ∧ e.dict.added = []
    | some _ => e.io.tok = e.dict.added.length + 1

/-- The engine state belongs to the command CTRL and IN_LEN describe, and is one its engine can be in (10_state.md R36
to R40, 40_control.md R120). -/
abbrev Engine.legal (p : Params) (c : Ctrl) (inLen : Word) : Engine → Prop
  | .idle => True
  | .start sel n => sel = { alg := c.alg, dir := c.dir } ∧ n = inLen
  | .rleEncode e => c.alg = 0#2 ∧ c.dir = false ∧ e.io.legal p inLen ∧ e.legal
  | .rleDecode e => c.alg = 0#2 ∧ c.dir = true ∧ e.io.legal p inLen ∧ e.legal
  | .lzEncode e => c.alg = 1#2 ∧ c.dir = false ∧ e.io.legal p inLen ∧ e.legal p
  | .lzDecode e => c.alg = 1#2 ∧ c.dir = true ∧ e.io.legal p inLen ∧ e.legal p

/-- The buffers: the canonical form, inside their capacities (20_memory.md R61). -/
abbrev State.buffersLegal (s : State) : Prop :=
  s.inMem.wf ∧ s.inMem.within s.params.inCap ∧ s.outMem.wf ∧ s.outMem.within s.params.outCap

/-- What OUT_MEM holds (20_memory.md R68): the bytes emitted so far while a command runs, nothing after an error, and
just the offsets below OUT_LEN otherwise. -/
abbrev State.outputLegal (s : State) : Prop :=
  (s.status.busy = true → s.outMem = Memory.ofBytes 0 s.engine.out) ∧
    (s.status.err = true → s.outMem = []) ∧
    (s.resultsSpecified = true → s.outMem.map Prod.fst = List.range s.outLen.toNat)

/-- While reset is asserted every register has its reset value and the engine is idle (70_reset_and_hazards.md R260). -/
abbrev State.resetLegal (s : State) : Prop :=
  s.inReset = true →
    s.ctrl = Ctrl.reset ∧ s.status = Status.reset ∧ s.inLen = 0#32 ∧ s.outLen = 0#32 ∧ s.tokenCount = 0#32 ∧
      s.nextCode = 0#32 ∧ s.engine = .idle

/-- The invariant of the block: legal parameters and STATUS, `phase` IDLE exactly when BUSY = 0 (10_state.md R36),
NEXT_CODE at most DICT_CAP (R31), and legal buffers, output, engine state and reset state. -/
def State.Inv (s : State) : Prop :=
  s.params.legal ∧ s.status.legal ∧ (s.phase = .idle ↔ s.status.busy = false) ∧
    s.nextCode.toNat ≤ s.params.dictCap ∧ s.buffersLegal ∧ s.outputLegal ∧
    s.engine.legal s.params s.ctrl s.inLen ∧ s.resetLegal

/-! ## Hazards -/

/-- What an access reaches while reset is not asserted, none where it is answered with AccessFault or is not the
block's (20_memory.md R61 to R63). -/
def State.target (s : State) (a : Access) : Option Target :=
  match s.params.offset? a.addr with
  | none => none
  | some off => targetAt s.params off a.width

/-- The access gets AccessFault (20_memory.md R62, R63, R68). -/
def State.faults (s : State) (a : Access) : Bool :=
  (s.params.offset? a.addr).isSome &&
    match s.target a, a with
    | none, _ => true
    | some (.outByte _), .write _ _ => true
    | some _, _ => false

/-- The access is a read of an unspecified value: "Results before completion", "Results after an error"
(70_reset_and_hazards.md R264, R267), or a buffer byte without a value (20_memory.md R67, R68). -/
def State.readsUnspecified (s : State) (a : Access) : Bool :=
  match a, s.target a with
  | .read _ _, some t => (s.peek t).isNone
  | _, _ => false

/-- The access is a write that is lost: "Writes while busy are lost" (70_reset_and_hazards.md R265). -/
def State.losesWrite (s : State) (a : Access) : Bool :=
  s.status.busy &&
    match a, s.target a with
    | .write _ _, some (.reg .ctrl) => true
    | .write _ _, some (.reg .status) => true
    | .write _ _, some (.reg .inLen) => true
    | .write _ _, some (.inByte _) => true
    | _, _ => false

/-- A host access with none of the hazards. -/
def State.hazardFree (s : State) (a : Access) : Bool :=
  !s.inReset && (s.target a).isSome && !s.faults a && !s.readsUnspecified a && !s.losesWrite a

end Sys2Proof.Machine
end

