-- ==== Sys2Proof/Certificates/Slice0/Obligations.lean ====
section
/-! DEFINITION. The statements for the provers. Rule numbers R<n> are those of spec/; "log n" is
notes/assumptions/n.md. -/

open Sys2Proof Sys2Proof.Machine

/-! ## Encoding -/

/-- Decoding and encoding agree, on the byte lanes of a 32-bit access (R90 to R93, R64): four lanes decode to `i` exactly
when `i` is well formed and their low five bits are those of its command word. Bits 31:5 make no difference. -/
def Obligations.DecodeAgreesWithEncode : Prop :=
  (∀ i : Instr, i.wellFormed = true → decode (lanesOfWord (encode i)) = .ok i) ∧
    ∀ (lanes : List Byte) (i : Instr),
      decode lanes = .ok i ↔
        lanes.length = 4 ∧ i.wellFormed = true ∧
          (wordOfLanes lanes).extractLsb' 0 5 = (encode i).extractLsb' 0 5

/-- R91: the table of command words: its match and mask columns, its CTRL values, and "Bits 31:5 may hold any value in
every row without changing the selection". -/
def Obligations.CommandSelectionTable : Prop :=
  (∀ w : Word,
    (w &&& 0xF#32 = 0x1#32 ↔ decodeWord w = .ok (.rleEncode (w.getLsbD 4))) ∧
    (w &&& 0xF#32 = 0x3#32 ↔ decodeWord w = .ok (.rleDecode (w.getLsbD 4))) ∧
    (w &&& 0xF#32 = 0x5#32 ↔ decodeWord w = .ok (.lzEncode (w.getLsbD 4))) ∧
    (w &&& 0xF#32 = 0x7#32 ↔ decodeWord w = .ok (.lzDecode (w.getLsbD 4))) ∧
    (w &&& 0x9#32 = 0x9#32 ↔
      decodeWord w = .ok (.unsupportedAlg (w.getLsbD 4) (w.extractLsb' 2 2) (w.getLsbD 1)))) ∧
    (∀ w w' : Word, w.extractLsb' 0 5 = w'.extractLsb' 0 5 → decodeWord w = decodeWord w') ∧
    (encode (.rleEncode false), encode (.rleEncode true)) = (0x01#32, 0x11#32) ∧
    (encode (.rleDecode false), encode (.rleDecode true)) = (0x03#32, 0x13#32) ∧
    (encode (.lzEncode false), encode (.lzEncode true)) = (0x05#32, 0x15#32) ∧
    (encode (.lzDecode false), encode (.lzDecode true)) = (0x07#32, 0x17#32) ∧
    [encode (.unsupportedAlg false 2#2 false), encode (.unsupportedAlg false 2#2 true),
      encode (.unsupportedAlg false 3#2 false), encode (.unsupportedAlg false 3#2 true)] =
        [0x09#32, 0x0B#32, 0x0D#32, 0x0F#32] ∧
    [encode (.unsupportedAlg true 2#2 false), encode (.unsupportedAlg true 2#2 true),
      encode (.unsupportedAlg true 3#2 false), encode (.unsupportedAlg true 3#2 true)] =
        [0x19#32, 0x1B#32, 0x1D#32, 0x1F#32]

/-- A few command words written out from R91, on byte lanes, decode to the commands they stand for. -/
def Obligations.SpecWordsDecode : Prop :=
  decode [0x01#8, 0x00#8, 0x00#8, 0x00#8] = .ok (.rleEncode false) ∧
    decode [0x13#8, 0x00#8, 0x00#8, 0x00#8] = .ok (.rleDecode true) ∧
    decode [0xE5#8, 0xFF#8, 0xFF#8, 0xFF#8] = .ok (.lzEncode false) ∧
    decode [0x17#8, 0x00#8, 0x00#8, 0x00#8] = .ok (.lzDecode true) ∧
    decode [0x0F#8, 0x00#8, 0x00#8, 0x00#8] = .ok (.unsupportedAlg false 3#2 true) ∧
    decode [0x16#8, 0x00#8, 0x00#8, 0x00#8] = .error .noStart ∧
    decode [0x01#8] = .error .wrongLength

/-! ## The step -/

/-- What a step runs (R73, R131): a command word whose lanes decode to `i` runs `exec` of `i` on the state without that
input and with the bus's answer; a word with START = 0 is the CTRL write that R23 describes; a bus access is `access`; an
engine turn, or no input at all, is `engineTurn`; a change of the reset input is `resetTo`. That the outside world is a
list of inputs and that withFetchWord puts a command word first in it is log 1, that a step with nothing pending is an
engine turn is log 13, and that the bus answers nothing while reset is asserted is log 10. -/
def Obligations.StepRunsDecodedCommand : Prop :=
  (∀ (s : State) (w : Word) (rest : List Input) (i : Instr),
    s.inputs = .command w :: rest → decode (lanesOfWord w) = .ok i →
      step s = exec i { s with inputs := rest, response := if s.inReset then .none else .done }) ∧
    (∀ (s : State) (i : Instr), i.wellFormed = true →
      step (s.withFetchWord 32 (encode i).toNat) =
        exec i { s with response := if s.inReset then .none else .done }) ∧
    (∀ (s : State) (w : Word) (rest : List Input),
      s.inputs = .command w :: rest → w.getLsbD 0 = false →
        step s = .next (State.access (.write s.params.base (lanesOfWord w)) { s with inputs := rest })) ∧
    (∀ (s : State) (a : Access) (rest : List Input),
      s.inputs = .bus a :: rest → step s = .next (State.access a { s with inputs := rest })) ∧
    (∀ (s : State) (rest : List Input),
      s.inputs = .engine :: rest → step s = .next (State.engineTurn { s with inputs := rest })) ∧
    (∀ s : State, s.inputs = [] → step s = .next s.engineTurn) ∧
    ∀ (s : State) (level : Bool) (rest : List Input),
      s.inputs = (if level then Input.assertReset else Input.releaseReset) :: rest →
        step s = .next (State.resetTo level { s with inputs := rest })

/-- "No behaviour of the block is stuck" (93_implementation_defined.md): every command and every step answers a next
state, from every state. -/
def Obligations.NothingStops : Prop :=
  (∀ (i : Instr) (s : State), ∃ t, exec i s = .next t) ∧ ∀ s : State, ∃ t, step s = .next t

/-! ## CTRL, STATUS and the other registers -/

/-- R22: a read of CTRL returns IE at bit 4, ALG at bits 3:2, DIR at bit 1, and 0 everywhere else. -/
def Obligations.CtrlReadReturnsFields : Prop :=
  ∀ s : State, s.inReset = false →
    ∃ w : Word,
      s.access (.read 4 s.params.base) = { s with response := .data (lanesOfWord w) } ∧
        w.getLsbD 4 = s.ctrl.ie ∧ w.extractLsb' 2 2 = s.ctrl.alg ∧ w.getLsbD 1 = s.ctrl.dir ∧
        w.getLsbD 0 = false ∧ ∀ k, 5 ≤ k → w.getLsbD k = false

/-- R23, with the update of R120: what a host write of `w` to CTRL does: nothing while BUSY; else the fields from bits 1, 3:2 and 4,
and, where bit 0 is set, acceptance: the selector and IN_LEN latched, BUSY set, DONE, ERR and ERRCODE cleared, the
engine running, and IRQ at 0. That OUT_MEM lists nothing then is log 21, and that the fields of the result registers,
unspecified while BUSY = 1, keep what they held is log 12. -/
def Obligations.CtrlWriteAndAcceptance : Prop :=
  ∀ (s : State) (w : Word), s.inReset = false →
    let t := s.access (.write s.params.base (lanesOfWord w))
    let c : Ctrl := { dir := w.getLsbD 1, alg := w.extractLsb' 2 2, ie := w.getLsbD 4 }
    (s.status.busy = true → t = { s with response := .done }) ∧
      (s.status.busy = false → w.getLsbD 0 = false → t = { s with ctrl := c, response := .done }) ∧
      (s.status.busy = false → w.getLsbD 0 = true →
        t = { s with
              ctrl := c
              status := { busy := true, done := false, err := false, errcode := 0#4 }
              engine := .start { alg := c.alg, dir := c.dir } s.inLen
              outMem := []
              response := .done } ∧
          t.phase = .run ∧ t.irq = false)

/-- R25: a write of `w` to STATUS while BUSY = 0 clears DONE where bit 1 is set and does nothing else; while BUSY = 1 it
is ignored. -/
def Obligations.StatusWriteClearsDoneOnly : Prop :=
  ∀ (s : State) (w : Word), s.inReset = false →
    let t := s.access (.write (s.params.base + 0x004) (lanesOfWord w))
    (s.status.busy = true → t = { s with response := .done }) ∧
      (s.status.busy = false → w.getLsbD 1 = false → t = { s with response := .done }) ∧
      (s.status.busy = false → w.getLsbD 1 = true →
        t = { s with status := { s.status with done := false }, response := .done } ∧
          t.status.err = s.status.err ∧ t.status.errcode = s.status.errcode ∧ t.irq = false)

/-- R24: where STATUS holds its fields. -/
def Obligations.StatusReadReturnsFields : Prop :=
  ∀ s : State, s.inReset = false →
    ∃ w : Word,
      s.access (.read 4 (s.params.base + 0x004)) = { s with response := .data (lanesOfWord w) } ∧
        w.getLsbD 0 = s.status.busy ∧ w.getLsbD 1 = s.status.done ∧ w.getLsbD 2 = s.status.err ∧
        w.getLsbD 3 = false ∧ w.extractLsb' 4 4 = s.status.errcode ∧ ∀ k, 8 ≤ k → w.getLsbD k = false

/-- R26: the STATUS invariants in every state reached from reset, whatever the outside world does, and the thirteen
values STATUS can read as. -/
def Obligations.StatusInReachableStates : Prop :=
  ∀ (inputs : List Input) (k : Nat) (s : State),
    Host.Core.run Sys2Proof.core k { State.reset with inputs := inputs } = .next s →
      (s.status.busy = true → s.status.done = false ∧ s.status.err = false ∧ s.status.errcode = 0#4) ∧
        (s.status.err = false ↔ s.status.errcode = 0#4) ∧
        s.status.errcode ∈ [0#4, 1#4, 2#4, 3#4, 4#4, 5#4] ∧
        s.status.toWord.getLsbD 3 = false ∧ (∀ k, 8 ≤ k → s.status.toWord.getLsbD k = false) ∧
        s.status.toWord ∈
          [0x00#32, 0x01#32, 0x02#32, 0x16#32, 0x26#32, 0x36#32, 0x46#32, 0x56#32, 0x14#32, 0x24#32, 0x34#32,
            0x44#32, 0x54#32]

/-- R27: IN_LEN holds any 32-bit value written while BUSY = 0 and reads it back, and a value above IN_CAP makes the next
command, of a supported algorithm, finish with InvalidInputType. That the fields of the result registers keep what they held then
is log 12. -/
def Obligations.InLenHoldsAnyValue : Prop :=
  ∀ (s : State) (v : Word), s.inReset = false → s.status.busy = false →
    let t := s.access (.write (s.params.base + 0x008) (lanesOfWord v))
    t = { s with inLen := v, response := .done } ∧
      t.access (.read 4 (s.params.base + 0x008)) = { t with response := .data (lanesOfWord v) } ∧
      (s.params.inCap < v.toNat →
        ∀ ie, exec (.rleEncode ie) t = .next (t.failed { dir := false, alg := 0#2, ie := ie } .invalidInputType 0) ∧
          exec (.rleDecode ie) t = .next (t.failed { dir := true, alg := 0#2, ie := ie } .invalidInputType 0) ∧
          exec (.lzEncode ie) t = .next (t.failed { dir := false, alg := 1#2, ie := ie } .invalidInputType 0) ∧
          exec (.lzDecode ie) t = .next (t.failed { dir := true, alg := 1#2, ie := ie } .invalidInputType 0))

/-- R28: while BUSY = 1 a host write to CTRL, STATUS, IN_LEN or a byte of IN_MEM completes without AccessFault and changes
no state. -/
def Obligations.BusyWritesAreIgnored : Prop :=
  ∀ s : State, s.inReset = false → s.status.busy = true → s.params.legal →
    (∀ (off : Nat) (w : Word), off ∈ [0x000, 0x004, 0x008] →
      s.access (.write (s.params.base + off) (lanesOfWord w)) = { s with response := .done }) ∧
      ∀ (j : Nat) (v : Byte), j < s.params.inCap →
        s.access (.write (s.params.base + 0x01000000 + j) [v]) = { s with response := .done }

/-- R33: a host write to a read-only register completes without AccessFault and changes no state, whether BUSY is 0 or
1. -/
def Obligations.ReadOnlyRegisterWritesIgnored : Prop :=
  ∀ (s : State) (off : Nat) (w : Word), s.inReset = false →
    off ∈ [0x00C, 0x010, 0x014, 0x018, 0x01C, 0x020] →
      s.access (.write (s.params.base + off) (lanesOfWord w)) = { s with response := .done }

/-- R32: IN_CAP_R, OUT_CAP_R and DICT_CAP_R read as the parameters, and no step, reset included, changes them. -/
def Obligations.CapacityRegistersAreConstant : Prop :=
  (∀ s : State, s.inReset = false →
    s.access (.read 4 (s.params.base + 0x018)) =
        { s with response := .data (lanesOfWord (BitVec.ofNat 32 s.params.inCap)) } ∧
      s.access (.read 4 (s.params.base + 0x01C)) =
        { s with response := .data (lanesOfWord (BitVec.ofNat 32 s.params.outCap)) } ∧
      s.access (.read 4 (s.params.base + 0x020)) =
        { s with response := .data (lanesOfWord (BitVec.ofNat 32 s.params.dictCap)) }) ∧
    ∀ s t : State, step s = .next t → t.params = s.params

/-- R29 to R31 with R34: OUT_LEN, TOKEN_COUNT and NEXT_CODE read as they stand unless BUSY or ERR is 1; then each read
returns the next draw, whatever it is (log 3), and takes one draw. -/
def Obligations.ResultRegisterReads : Prop :=
  ∀ (s : State) (off : Nat) (v : Word), s.inReset = false →
    (off, v) ∈ [(0x00C, s.outLen), (0x010, s.tokenCount), (0x014, s.nextCode)] →
      s.access (.read 4 (s.params.base + off)) =
        if s.status.busy = true ∨ s.status.err = true then
          { s with
            response := .data (lanesOfWord (Config.hostWordDraw s.hostDraws))
            hostDraws := s.hostDraws + 1 }
        else { s with response := .data (lanesOfWord v) }

/-- R64: lane k of a register access carries bits 8k+7 to 8k, and the lanes carry the value. -/
def Obligations.LanesAreLittleEndian : Prop :=
  ∀ w : Word, (lanesOfWord w).length = 4 ∧ wordOfLanes (lanesOfWord w) = w ∧
    ∀ (k : Nat) (b : Byte), (lanesOfWord w)[k]? = some b → b = w.extractLsb' (8 * k) 8

/-! ## The buffers and the bus -/

/-- R62 and R63: an access inside the block's 2^26 bytes that is not a 32-bit access at a register's offset, nor an 8-bit
access to a byte of IN_MEM or OUT_MEM, gets AccessFault and changes no state; so does a write to OUT_MEM (R68). -/
def Obligations.IllegalAccessesFault : Prop :=
  ∀ (s : State) (a : Access) (off : Nat), s.inReset = false → s.params.legal →
    a.addr = s.params.base + off → off < 2 ^ 26 →
      (¬ (a.width = 4 ∧ off ∈ [0x000, 0x004, 0x008, 0x00C, 0x010, 0x014, 0x018, 0x01C, 0x020]) ∧
        ¬ (a.width = 1 ∧ 0x01000000 ≤ off ∧ off < 0x01000000 + s.params.inCap) ∧
        ¬ (a.width = 1 ∧ 0x02000000 ≤ off ∧ off < 0x02000000 + s.params.outCap)) ∨
        (0x02000000 ≤ off ∧ off < 0x02000000 + s.params.outCap ∧ ∃ lanes, a = .write a.addr lanes) →
      s.access a = { s with response := .accessFault }

/-- R66: while BUSY = 0 a host byte write to IN_MEM sets that byte and no other, and changes nothing else; a read returns
the byte, busy or not. -/
def Obligations.InMemWriteThenRead : Prop :=
  (∀ (s : State) (j : Nat) (v : Byte), s.inReset = false → s.params.legal → s.status.busy = false →
    j < s.params.inCap →
      let t := s.access (.write (s.params.base + 0x01000000 + j) [v])
      t = { s with inMem := t.inMem, response := .done } ∧ t.inMem.read j = some v ∧
        (∀ j', j' ≠ j → t.inMem.read j' = s.inMem.read j') ∧
        t.access (.read 1 (s.params.base + 0x01000000 + j)) = { t with response := .data [v] }) ∧
    ∀ (s : State) (j : Nat) (v : Byte), s.inReset = false → s.params.legal → j < s.params.inCap →
      s.inMem.read j = some v →
        s.access (.read 1 (s.params.base + 0x01000000 + j)) = { s with response := .data [v] }

/-- R67 with R66: a byte of IN_MEM keeps its value across every step but a host write to that very byte and reset: no
command writes IN_MEM. -/
def Obligations.InMemKeepsItsBytes : Prop :=
  ∀ (s t : State) (j : Nat), step s = .next t →
    s.inputs.head? ≠ some .assertReset → s.inputs.head? ≠ some .releaseReset →
    (∀ lanes, s.inputs.head? ≠ some (.bus (.write (s.params.base + 0x01000000 + j) lanes))) →
      t.inMem.read j = s.inMem.read j

/-- R68: after a command that finished OK, OUT_MEM reads as its output below OUT_LEN and as a fresh draw at every other
offset (log 3). -/
def Obligations.OutMemHoldsTheOutput : Prop :=
  ∀ (s : State) (c : Ctrl) (r : Result) (j : Nat), s.inReset = false → s.params.legal →
    j < s.params.outCap →
      let t := s.completed c r
      t.access (.read 1 (s.params.base + 0x02000000 + j)) =
        match r.out[j]? with
        | some b => { t with response := .data [b] }
        | none => { t with response := .data [Config.hostByteDraw t.hostDraws], hostDraws := t.hostDraws + 1 }

/-- R67 and R68: a byte of IN_MEM not written since reset, and a byte of OUT_MEM that has no specified value, reads as the
next draw, whatever it is, at each read (log 3, log 4); no byte of OUT_MEM has one while BUSY = 1, after an error, or after
reset. -/
def Obligations.UnspecifiedBytesAreDraws : Prop :=
  (∀ (s : State) (j : Nat), s.inReset = false → s.params.legal →
    let drawn : State :=
      { s with response := .data [Config.hostByteDraw s.hostDraws], hostDraws := s.hostDraws + 1 }
    (j < s.params.inCap → s.inMem.read j = none →
      s.access (.read 1 (s.params.base + 0x01000000 + j)) = drawn) ∧
      (j < s.params.outCap → s.outByte j = none →
        s.access (.read 1 (s.params.base + 0x02000000 + j)) = drawn)) ∧
    ∀ (s : State) (j : Nat),
      (s.status.busy = true ∨ s.status.err = true → s.outByte j = none) ∧
        ∀ level, (s.resetTo level).outByte j = none

/-- R70: no host read has a side effect: nothing the spec names changes, whatever is read, and a read of a specified value
gives the same answer when it is repeated. -/
def Obligations.ReadsHaveNoSideEffect : Prop :=
  ∀ (s : State) (width addr : Nat),
    (s.access (.read width addr)).view = s.view ∧
      (s.readsUnspecified (.read width addr) = false →
        (s.access (.read width addr)).access (.read width addr) = s.access (.read width addr))

/-- R264 to R268: an access without a hazard is answered with a specified value or a completed write, never with
AccessFault, and takes no draw. -/
def Obligations.HazardFreeAccessesAreSpecified : Prop :=
  ∀ (s : State) (a : Access), s.hazardFree a = true →
    (s.access a).hostDraws = s.hostDraws ∧
      match a with
      | .read _ _ => ∃ t lanes, s.target a = some t ∧ s.peek t = some lanes ∧
          s.access a = { s with response := .data lanes }
      | .write _ _ => (s.access a).response = .done

/-! ## Reset, errors and the interrupt -/

/-- R43: the values the spec gives the machine right after reset. -/
def Obligations.ResetValues : Prop :=
  State.reset.ctrl.toWord = 0#32 ∧ State.reset.status.toWord = 0#32 ∧ State.reset.inLen = 0#32 ∧
    State.reset.outLen = 0#32 ∧ State.reset.tokenCount = 0#32 ∧ State.reset.nextCode = 0#32 ∧
    State.reset.irq = false ∧ State.reset.phase = .idle ∧
    (∀ j, State.reset.inMem.read j = none) ∧ ∀ j, State.reset.outByte j = none

/-- R260: asserting and releasing the reset input, at any time, gives every register its reset value, idles the engine and
drops IRQ; no byte of a buffer is specified then, and the parameters stay (R261, R32). While reset is asserted no host
access, no command word and no engine step has an effect, from a state whose registers have their reset values. That reset
leaves the rest of the model's own input list (log 1) as it was is log 10. -/
def Obligations.ResetAbandonsEverything : Prop :=
  (∀ (s : State) (rest : List Input) (level : Bool),
    s.inputs = (if level then Input.assertReset else Input.releaseReset) :: rest →
      ∃ t, step s = .next t ∧ t.inReset = level ∧ t.inputs = rest ∧ t.params = s.params ∧
        t.ctrl.toWord = 0#32 ∧ t.status.toWord = 0#32 ∧ t.inLen = 0#32 ∧ t.outLen = 0#32 ∧
        t.tokenCount = 0#32 ∧ t.nextCode = 0#32 ∧ t.phase = .idle ∧ t.irq = false ∧
        (∀ j, t.inMem.read j = none) ∧ ∀ j, t.outByte j = none) ∧
    ∀ (s : State) (e : Input) (rest : List Input), s.inReset = true → s.resetLegal →
      s.inputs = e :: rest → e ≠ .assertReset → e ≠ .releaseReset →
        ∃ t, step s = .next t ∧ t.view = s.view

/-- R126, R128 and R220: `raise E` ends the command in flight with its error code and nothing else recorded: DONE, ERR and
ERRCODE in STATUS, the engine idle, every result unspecified. That OUT_MEM lists nothing then is log 21, and that the fields
of the result registers keep what they held, unspecified as they are, is log 12. -/
def Obligations.RaiseRecordsOnlyTheError : Prop :=
  [CodecError.malformedStream, .invalidCode, .unsupportedAlgorithm, .invalidInputType, .capacityExceeded].map
      CodecError.code = [1#4, 2#4, 3#4, 4#4, 5#4] ∧
    ∀ (s : State) (e : CodecError),
      let t := s.settle (.fail e)
      t = { s with
            status := { busy := false, done := true, err := true, errcode := e.code }
            outMem := []
            engine := .idle } ∧
        t.phase = .idle ∧ (∀ j, t.outByte j = none) ∧
        t.regValue .outLen = none ∧ t.regValue .tokenCount = none ∧ t.regValue .nextCode = none

/-- R226: IRQ is DONE and IE at every instant, and each row of its table. -/
def Obligations.InterruptFollowsDoneAndEnable : Prop :=
  (∀ s : State, s.irq = (s.status.done && s.ctrl.ie)) ∧
    ∀ s : State, s.inReset = false → s.status.busy = false →
      (s.access (.write (s.params.base + 0x004) (lanesOfWord 2#32))).irq = false ∧
        (∀ w : Word, w.getLsbD 4 = false → (s.access (.write s.params.base (lanesOfWord w))).irq = false) ∧
        (∀ w : Word, w.getLsbD 0 = true → (s.access (.write s.params.base (lanesOfWord w))).irq = false) ∧
        (∀ w : Word, w.getLsbD 0 = false → w.getLsbD 4 = true → s.status.done = true →
          (s.access (.write s.params.base (lanesOfWord w))).irq = true) ∧
        (∀ level, (s.resetTo level).irq = false) ∧
        ∀ (i : Instr) (t : State), i.wellFormed = true → exec i s = .next t →
          t.irq = (encode i).getLsbD 4

/-! ## Every command -/

/-- R28 and R260: a command word issued while BUSY = 1, or while reset is asserted, has no effect at all. -/
def Obligations.CommandsAreIgnoredWhileBusyOrInReset : Prop :=
  ∀ (i : Instr) (s : State), s.status.busy = true ∨ s.inReset = true → exec i s = .next s

/-- R122, R92 and R223: a command word with an unsupported algorithm is accepted, and finishes with UnsupportedAlgorithm
whatever IN_LEN is, with no input taken. Here and below the fields of the unspecified result registers keep what they held
(log 12). -/
def Obligations.UnsupportedAlgFinishesWithItsError : Prop :=
  ∀ (ie : Bool) (alg : BitVec 2) (dir : Bool) (s : State), s.idleReady → alg = 2#2 ∨ alg = 3#2 →
    exec (.unsupportedAlg ie alg dir) s =
      .next (s.failed { dir := dir, alg := alg, ie := ie } .unsupportedAlgorithm 0)

/-- R122: a supported command with n > IN_CAP finishes with InvalidInputType, with no input taken. -/
def Obligations.TooLongInputFinishesWithItsError : Prop :=
  ∀ (ie : Bool) (s : State), s.idleReady → s.params.inCap < s.inLen.toNat →
    exec (.rleEncode ie) s = .next (s.failed { dir := false, alg := 0#2, ie := ie } .invalidInputType 0) ∧
      exec (.rleDecode ie) s = .next (s.failed { dir := true, alg := 0#2, ie := ie } .invalidInputType 0) ∧
      exec (.lzEncode ie) s = .next (s.failed { dir := false, alg := 1#2, ie := ie } .invalidInputType 0) ∧
      exec (.lzDecode ie) s = .next (s.failed { dir := true, alg := 1#2, ie := ie } .invalidInputType 0)

/-- R221: which command can finish with which error. -/
def Obligations.ErrorsOfEachCommand : Prop :=
  ∀ (i : Instr) (s t : State), i.wellFormed = true → s.idleReady → exec i s = .next t →
    t.status.busy = false ∧ t.status.done = true ∧
      (t.status.err = true →
        t.status.errcode ∈
          match i with
          | .rleEncode _ => [4#4, 5#4]
          | .rleDecode _ => [1#4, 4#4, 5#4]
          | .lzEncode _ => [4#4, 5#4]
          | .lzDecode _ => [2#4, 4#4, 5#4]
          | .unsupportedAlg _ _ _ => [3#4])

/-- The frame of every command, from every state (R66, R69, R120, R127, R128): no command changes IN_LEN, the parameters, a
byte of IN_MEM or the model's input list, bus answer and host draws; CTRL takes the word's fields; OUT_MEM is the output
from offset 0 on and holds no other specified byte (R68), none after an error; and after an error the result registers
hold what they held, unspecified as they are (log 12). -/
def Obligations.CommandFrame : Prop :=
  ∀ (i : Instr) (s t : State), exec i s = .next t →
    t.inLen = s.inLen ∧ t.params = s.params ∧ (∀ j, t.inMem.read j = s.inMem.read j) ∧ t.inMem = s.inMem ∧
      t.inReset = s.inReset ∧ t.inputs = s.inputs ∧ t.response = s.response ∧ t.hostDraws = s.hostDraws ∧
      (¬ s.idleReady → t = s) ∧ (s.idleReady → t.ctrl = Ctrl.ofWord (encode i)) ∧
      (s.idleReady → ∃ out : List Byte, t.outMem = Memory.ofBytes 0 out ∧ (∀ j, t.outMem.read j = out[j]?) ∧
        if t.status.err then out = [] else t.outLen = BitVec.ofNat 32 out.length) ∧
      (t.status.err = true → s.idleReady →
        t.outLen = s.outLen ∧ t.tokenCount = s.tokenCount ∧ t.nextCode = s.nextCode)

/-- R130: the outcome of a command is a function of ALG and DIR (bits 3:1 of the word), n, x and the capacities alone:
two commands taken as one transition, with or without IE, from states that differ in anything else. -/
def Obligations.OutcomeDependsOnInputAndCapacitiesOnly : Prop :=
  ∀ (i i' : Instr) (s s' t t' : State), i.wellFormed = true → i'.wellFormed = true →
    (encode i).extractLsb' 1 3 = (encode i').extractLsb' 1 3 → s.idleReady → s'.idleReady →
    s.params.inCap = s'.params.inCap → s.params.outCap = s'.params.outCap →
    s.params.dictCap = s'.params.dictCap → s.inLen = s'.inLen → s.input = s'.input →
    exec i s = .next t → exec i' s' = .next t' →
      t.status = t'.status ∧ t.outMem = t'.outMem ∧
        (t.status.err = false →
          t.outLen = t'.outLen ∧ t.tokenCount = t'.tokenCount ∧ t.nextCode = t'.nextCode)

/-- R129: a command in flight finishes: with nothing pending from the outside, within n + 2 steps. R129 says only that the
number is finite; the bound is the model's, whose engine step is a whole loop iteration with its Emit calls (log 2) and
whose step with nothing pending is one engine step (log 13). -/
def Obligations.EveryCommandFinishes : Prop :=
  ∀ s : State, s.Inv → s.inReset = false → s.status.busy = true → s.inputs = [] →
    ∃ (k : Nat) (t : State), k ≤ s.inLen.toNat + 2 ∧ Host.Core.run Sys2Proof.core k s = .next t ∧
      t.status.busy = false ∧ t.status.done = true ∧ t.phase = .idle

/-- R131: a command taken step by step, whatever the host reads and writes between the engine's steps, ends in the state
the one-transition meaning gives: from the START write on, with as many engine steps as the command needs (the engine is
busy before the last of them), everything 10_state.md and 20_memory.md name is as after `exec`. -/
def Obligations.SteppedCommandEqualsMeaning : Prop :=
  ∀ (i : Instr) (s accepted t : State) (events : List Input), i.wellFormed = true → s.idleReady →
    exec i s = .next t →
    accepted = s.access (.write s.params.base (lanesOfWord (encode i))) →
    (∀ e ∈ events, e = .engine ∨ ∃ a, e = .bus a) →
    (State.engineTurns (events.countP (· == .engine)) accepted).status.busy = true →
    (State.engineTurns (events.countP (· == .engine) + 1) accepted).status.busy = false →
    s.inputs = .bus (.write s.params.base (lanesOfWord (encode i))) :: (events ++ [.engine]) →
      ∃ u, Host.Core.run Sys2Proof.core (events.length + 2) s = .next u ∧ u.view = t.view

/-- The invariant holds right after reset. -/
def Obligations.InvHoldsAtReset : Prop := State.reset.Inv

/-- Every step keeps the invariant: STATUS legal (R26), phase IDLE exactly when BUSY = 0 (R36), NEXT_CODE at most DICT_CAP
(R31), buffers canonical and inside their capacities, OUT_MEM as R68 says, the engine state in the ranges of R36 to R40
and R171, and the registers at their reset values while reset is asserted (R260). -/
def Obligations.StepKeepsInv : Prop :=
  ∀ s t : State, s.Inv → step s = .next t → t.Inv

/-- R7, with the capacity checks of R125, R175 and R191: finite capacities (DICT_CAP at least 256) turn an outcome into
CapacityExceeded and into nothing else. An OK outcome with no capacities becomes that exactly when it does not fit; an error
stays as it is, or is CapacityExceeded. -/
def Obligations.CapacitiesOnlyAddCapacityExceeded : Prop :=
  ∀ (lim : Limits) (x : List Byte), (∀ d, lim.dictCap = some d → 256 ≤ d) →
    ∀ run ∈ [rleEncodeRun, rleDecodeRun, lzEncodeRun, lzDecodeRun],
      (∀ r : Result, run Limits.unbounded x = .ok r →
        run lim x =
          if (∀ cap, lim.outCap = some cap → r.out.length ≤ cap) ∧ (∀ d, lim.dictCap = some d → r.nextCode ≤ d)
          then .ok r else .fail .capacityExceeded) ∧
        ∀ e : CodecError, run Limits.unbounded x = .fail e →
          run lim x = .fail e ∨ run lim x = .fail .capacityExceeded

/-! ## RLE -/

/-- R140: `runs(x)` is the one list of values and lengths that concatenates to x with every length at least 1 and
neighbouring values different. -/
def Obligations.RunsAreTheMaximalRuns : Prop :=
  ∀ (x : List Byte) (rs : List (Byte × Nat)),
    (x = rs.flatMap (fun r => List.replicate r.2 r.1) ∧ (∀ r ∈ rs, 1 ≤ r.2) ∧
      rs.IsChain (fun a b => a.1 ≠ b.1)) ↔ rs = runs x

/-- R142: the RLE_ENCODE engine writes exactly `rle_enc(x)` when it fits, and raises CapacityExceeded exactly when
2·len(tokens(x)) > OUT_CAP. -/
def Obligations.RleEncodeEngineComputesRleEnc : Prop :=
  ∀ (cap : Nat) (dictCap : Option Nat) (x : List Byte),
    (rleEnc x).length = 2 * (rleTokens x).length ∧
      rleEncodeRun { outCap := some cap, dictCap := dictCap } x =
      if 2 * (rleTokens x).length ≤ cap then
        .ok { out := rleEnc x, tok := (rleTokens x).length, nextCode := 0 }
      else .fail .capacityExceeded

/-- R143: RLE_ENCODE completes when its output fits, with TOKEN_COUNT the number of tokens, which is the sum of the
ceilings of the run lengths over 255, OUT_LEN twice that, NEXT_CODE 0, and `rle_enc(x)` in OUT_MEM. The model's own
counter of input bytes moves on by n (log 4). -/
def Obligations.RleEncodeCompletes : Prop :=
  ∀ (ie : Bool) (s : State), s.idleReady → s.inputFits → 2 * (rleTokens s.input).length ≤ s.params.outCap →
    exec (.rleEncode ie) s =
        .next (s.completed { dir := false, alg := 0#2, ie := ie }
          { out := rleEnc s.input, tok := (rleTokens s.input).length, nextCode := 0 }) ∧
      (rleEnc s.input).length = 2 * (rleTokens s.input).length ∧
      (rleTokens s.input).length = ((runs s.input).map (fun r => (r.2 + 254) / 255)).sum

/-- R144: RLE_ENCODE of an input that fits IN_MEM either completes or finishes with CapacityExceeded, the latter exactly
when 2·len(tokens(x)) > OUT_CAP, and never when OUT_CAP ≥ 2·IN_CAP. -/
def Obligations.RleEncodeFailsOnlyOnCapacity : Prop :=
  ∀ (ie : Bool) (s : State), s.idleReady → s.inputFits →
    (s.params.outCap < 2 * (rleTokens s.input).length →
      exec (.rleEncode ie) s =
        .next (s.failed { dir := false, alg := 0#2, ie := ie } .capacityExceeded s.inLen.toNat)) ∧
      (2 * (rleTokens s.input).length ≤ s.params.outCap →
        ∃ t, exec (.rleEncode ie) s = .next t ∧ t.status.done = true ∧ t.status.err = false) ∧
      2 * (rleTokens s.input).length ≤ 2 * s.inLen.toNat ∧
      (2 * s.params.inCap ≤ s.params.outCap →
        ∃ t, exec (.rleEncode ie) s = .next t ∧ t.status.done = true ∧ t.status.err = false)

/-- R145: the framing of every RLE_ENCODE output. -/
def Obligations.RleFraming : Prop :=
  ∀ x : List Byte,
    (rleEnc x).length % 2 = 0 ∧
      (∀ (j : Nat) (b : Byte), j % 2 = 1 → (rleEnc x)[j]? = some b → 1 ≤ b.toNat ∧ b.toNat ≤ 255) ∧
      (∀ (j : Nat) (a b : Byte × Nat), (rleTokens x)[j]? = some a → (rleTokens x)[j + 1]? = some b →
        a.1 = b.1 → a.2 = 255) ∧
      ∀ r ∈ runs x, ((splitRun r).map Prod.snd).sum = r.2 ∧ ∀ t ∈ splitRun r, t.1 = r.1 ∧ 1 ≤ t.2 ∧ t.2 ≤ 255

/-- R150 with R151: RLE_DECODE completes when `rle_dec` gives an output under OUT_CAP: that output, TOKEN_COUNT n/2,
OUT_LEN the sum of the run lengths, which is at most 255·n/2, NEXT_CODE 0 (R153). The model's own counter of input bytes
moves on by n (log 4). -/
def Obligations.RleDecodeCompletes : Prop :=
  ∀ (ie : Bool) (s : State) (y : List Byte), s.idleReady → s.inputFits →
    rleDec (some s.params.outCap) s.input = .ok y →
      exec (.rleDecode ie) s =
          .next (s.completed { dir := true, alg := 0#2, ie := ie }
            { out := y, tok := s.inLen.toNat / 2, nextCode := 0 }) ∧
        y = expandPairs (bytePairs s.input) ∧
        y.length = ((bytePairs s.input).map (fun p => p.2.toNat)).sum ∧ 2 * y.length ≤ 255 * s.inLen.toNat

/-- R152: RLE_DECODE finishes with just the error `rle_dec` finds first: an odd length before anything else, then, pair by
pair, a zero run length before an output that would pass OUT_CAP. -/
def Obligations.RleDecodeFailsAsRleDec : Prop :=
  ∀ (ie : Bool) (s : State) (e : CodecError), s.idleReady → s.inputFits →
    rleDec (some s.params.outCap) s.input = .error e →
      exec (.rleDecode ie) s =
        .next (s.failed { dir := true, alg := 0#2, ie := ie } e s.inLen.toNat)

/-- R152 and R223: where `rle_dec` finds each error. The pairs before pair `j` are good: nonzero run lengths whose sum fits
OUT_CAP. -/
def Obligations.RleDecodeErrorOrder : Prop :=
  ∀ (cap : Nat) (y : List Byte),
    (y.length % 2 = 1 → rleDec (some cap) y = .error .malformedStream) ∧
      ∀ (good rest : List (Byte × Byte)) (v r : Byte), y.length % 2 = 0 →
        bytePairs y = good ++ (v, r) :: rest → (∀ p ∈ good, p.2 ≠ 0#8) →
        (good.map (fun p => p.2.toNat)).sum ≤ cap →
          (r = 0#8 → rleDec (some cap) y = .error .malformedStream) ∧
            (cap < (good.map (fun p => p.2.toNat)).sum + r.toNat → r ≠ 0#8 →
              rleDec (some cap) y = .error .capacityExceeded)

/-- R155: the RLE round trip. With no capacities decoding an encoding gives the input back; and at block level, where
RLE_ENCODE of x finishes OK, RLE_DECODE of its output finishes OK with x on any block whose IN_MEM holds that output and
whose OUT_CAP is at least len(x). -/
def Obligations.RleRoundTrip : Prop :=
  (∀ x : List Byte, rleDec none (rleEnc x) = .ok x) ∧
    ∀ (ie ie' : Bool) (s t u : State), s.idleReady → s.inputFits → exec (.rleEncode ie) s = .next t →
      t.status.err = false → u.idleReady → u.inputFits → u.input = t.outMem.map Prod.snd →
      s.input.length ≤ u.params.outCap →
        exec (.rleDecode ie') u =
          .next (u.completed { dir := true, alg := 0#2, ie := ie' }
            { out := s.input, tok := (rleTokens s.input).length, nextCode := 0 })

/-! ## LZ wire text -/

/-- R12: `dec(c)` is the shortest digit sequence of value c, `dec(0) = [0x30]`, no other rendering starts with 0x30, and
`val` is the base-10 value. -/
def Obligations.DecimalRendering : Prop :=
  (∀ f : List Byte, (∀ b ∈ f, isDigit b = true) →
    val f = ∑ k ∈ Finset.range f.length, ((f.getD k 0#8).toNat - 0x30) * 10 ^ (f.length - 1 - k)) ∧
    dec 0 = [0x30#8] ∧
    ∀ c : Nat, (∀ b ∈ dec c, isDigit b = true) ∧ val (dec c) = c ∧
      (1 ≤ c → (dec c).head? ≠ some 0x30#8) ∧
      ∀ f : List Byte, f ≠ [] → (∀ b ∈ f, isDigit b = true) → val f = c →
        (dec c).length ≤ f.length ∧ (f.length = (dec c).length → f = dec c)

/-- R99 to R101: a text matches the wire grammar exactly when it is the rendering of a code sequence, and parsing a
rendering gives its codes back. -/
def Obligations.ParseAndRenderAgree : Prop :=
  (∀ cs : List Nat, parseText (render cs) = some cs) ∧
    ∀ (t : List Byte) (cs : List Nat), parseText t = some cs → t = render cs

/-- R102: the length of a wire text, and of the codes below 2^32. -/
def Obligations.WireTextLength : Prop :=
  (∀ cs : List Nat, cs ≠ [] → (render cs).length = (cs.map (fun c => (dec c).length)).sum + (cs.length - 1)) ∧
    (∀ c, c ≤ 9 → (dec c).length = 1) ∧ (dec 256).length = 3 ∧ ∀ c, c < 2 ^ 32 → (dec c).length ≤ 10

/-! ## LZ_ENCODE -/

/-- R177: LZ_ENCODE completes when its text fits OUT_CAP and its k − 1 insertions fit DICT_CAP: `render(cs)` in OUT_MEM,
TOKEN_COUNT k, NEXT_CODE 256 + k − 1 for n ≥ 1 and 256 for n = 0. The model's own counter of input bytes moves on by n
(log 4). -/
def Obligations.LzEncodeCompletes : Prop :=
  ∀ (ie : Bool) (s : State), s.idleReady → s.inputFits →
    (render (lzCodes s.input)).length ≤ s.params.outCap →
    lzNextCode (lzCodes s.input).length ≤ s.params.dictCap →
      exec (.lzEncode ie) s =
          .next (s.completed { dir := false, alg := 1#2, ie := ie }
            { out := render (lzCodes s.input), tok := (lzCodes s.input).length,
              nextCode := lzNextCode (lzCodes s.input).length }) ∧
        (s.inLen.toNat = 0 → lzNextCode (lzCodes s.input).length = 256) ∧
        (1 ≤ s.inLen.toNat → lzNextCode (lzCodes s.input).length = 256 + (lzCodes s.input).length - 1)

/-- R179 with R178: LZ_ENCODE of an input that fits IN_MEM either completes or finishes with CapacityExceeded, the latter
exactly when the text would pass OUT_CAP or an insertion would need code DICT_CAP. OUT_CAP ≥ 9·IN_CAP rules the first out
where n ≤ 2^24. -/
def Obligations.LzEncodeFailsOnlyOnCapacity : Prop :=
  ∀ (ie : Bool) (s : State), s.idleReady → s.inputFits → 256 ≤ s.params.dictCap →
    let k := (lzCodes s.input).length
    let tooBig := s.params.outCap < (render (lzCodes s.input)).length ∨ (2 ≤ k ∧ s.params.dictCap ≤ 256 + k - 2)
    (tooBig →
      exec (.lzEncode ie) s =
        .next (s.failed { dir := false, alg := 1#2, ie := ie } .capacityExceeded s.inLen.toNat)) ∧
      (¬ tooBig → ∃ t, exec (.lzEncode ie) s = .next t ∧ t.status.done = true ∧ t.status.err = false) ∧
      (s.inLen.toNat ≤ 2 ^ 24 → 9 * s.params.inCap ≤ s.params.outCap →
        (render (lzCodes s.input)).length ≤ s.params.outCap)

/-- R176: what the code sequence of x says: its entries concatenate to x; its first code is x's first byte; code j is
below 256 + j; a code 256 + j sent later than code j stands for entry j extended by the first byte of entry j + 1; and
there are at most n codes. -/
def Obligations.LzCodeSequence : Prop :=
  ∀ x : List Byte, ∃ es : List Phrase,
    lzEntries (lzCodes x) = some es ∧ entriesBytes es = x ∧ es.length = (lzCodes x).length ∧
      (lzCodes x).head? = x.head?.map BitVec.toNat ∧
      (∀ (j c : Nat), (lzCodes x)[j]? = some c → c < 256 + j) ∧
      (∀ (i j : Nat) (p q r : Phrase), j < i → (lzCodes x)[i]? = some (256 + j) → es[i]? = some p →
        es[j]? = some q → es[j + 1]? = some r → p = q.snoc r.first) ∧
      (lzCodes x).length ≤ x.length

/-! ## LZ_DECODE -/

/-- R193: LZ_DECODE completes on a text of k codes with definable entries when the entries fit OUT_CAP and the k − 1
appends fit DICT_CAP: the entries in OUT_MEM, TOKEN_COUNT k, NEXT_CODE 256 + k − 1 for k ≥ 1 and 256 for k = 0. -/
def Obligations.LzDecodeCompletes : Prop :=
  ∀ (ie : Bool) (s : State) (cs : List Nat) (es : List Phrase), s.idleReady → s.inputFits →
    s.input = render cs → lzEntries cs = some es → (entriesBytes es).length ≤ s.params.outCap →
    lzNextCode cs.length ≤ s.params.dictCap →
      exec (.lzDecode ie) s =
        .next (s.completed { dir := true, alg := 1#2, ie := ie }
          { out := entriesBytes es, tok := cs.length, nextCode := lzNextCode cs.length })

/-- R191, and R192 over fields: LZ_DECODE finishes with CapacityExceeded when the entries of a text of codes would pass
OUT_CAP or an append would need code DICT_CAP, whatever fields come after that text. -/
def Obligations.LzDecodeExceedsCapacity : Prop :=
  ∀ (ie : Bool) (s : State) (cs : List Nat) (es : List Phrase), s.idleReady → s.inputFits →
    256 ≤ s.params.dictCap → (s.input = render cs ∨ ∃ rest, s.input = render cs ++ comma :: rest) →
    lzEntries cs = some es →
    s.params.outCap < (entriesBytes es).length ∨ s.params.dictCap < lzNextCode cs.length →
      exec (.lzDecode ie) s =
        .next (s.failed { dir := true, alg := 1#2, ie := ie } .capacityExceeded s.inLen.toNat)

/-- R184, R187, R188 and the order of R192 and R223: a text that is not the rendering of codes with definable entries makes
LZ_DECODE raise InvalidCode when no capacity is in the way, and InvalidCode or CapacityExceeded on the block. There it is
InvalidCode where the fields `cs` before the first bad field `f` fit OUT_CAP and DICT_CAP, whatever comes after `f` and
whatever room is left for it: `f` matches no `code`, or its code has no definable origin. -/
def Obligations.LzDecodeRejectsOtherTexts : Prop :=
  (∀ x : List Byte, (∀ cs es, x = render cs → lzEntries cs ≠ some es) →
    lzDecodeRun Limits.unbounded x = .fail .invalidCode) ∧
    (∀ (ie : Bool) (s : State), s.idleReady → s.inputFits →
      (∀ cs es, s.input = render cs → lzEntries cs ≠ some es) →
        ∃ e ∈ [CodecError.invalidCode, .capacityExceeded],
          exec (.lzDecode ie) s =
            .next (s.failed { dir := true, alg := 1#2, ie := ie } e s.inLen.toNat)) ∧
    ∀ (ie : Bool) (s : State) (cs : List Nat) (es : List Phrase) (f tail : List Byte), s.idleReady → s.inputFits →
      s.input ≠ [] → s.input = cs.flatMap (fun c => dec c ++ [comma]) ++ f ++ tail → comma ∉ f →
      (∀ b, tail.head? = some b → b = comma) → lzEntries cs = some es →
      matchesCode f = false ∨ lzEntries (cs ++ [val f]) = none →
      (entriesBytes es).length ≤ s.params.outCap → lzNextCode cs.length ≤ s.params.dictCap →
        exec (.lzDecode ie) s =
          .next (s.failed { dir := true, alg := 1#2, ie := ie } .invalidCode s.inLen.toNat)

/-- R183: "The command is streaming over fields. An error in a later field is not seen when an earlier field ends the
command." -/
def Obligations.LzDecodeStreamsOverFields : Prop :=
  ∀ (lim : Limits) (t rest : List Byte) (e : CodecError),
    lzDecodeRun lim t = .fail e → lzDecodeRun lim (t ++ comma :: rest) = .fail e

/-- R187 and R188: how a code is resolved, from any dictionary: the first code only in the dictionary; a later one there
too, or as the self-reference when it is `next_code`; and any other has no entry. -/
def Obligations.CodeResolution : Prop :=
  ∀ (d : Dict) (p : Phrase) (c : Nat),
    (c < d.nextCode → resolveCode d (some p) c = d.phrase? c ∧ (d.phrase? c).isSome = true) ∧
      (c = d.nextCode → resolveCode d (some p) c = some (p.snoc p.first)) ∧
      (d.nextCode < c → resolveCode d (some p) c = none) ∧
      (c < 256 → resolveCode Dict.seed none c = some (Phrase.single (BitVec.ofNat 8 c))) ∧
      (256 ≤ c → resolveCode Dict.seed none c = none)

/-- R195: the LZ round trip with no capacities: LZ_DECODE of `render(cs)`, where `cs` is LZ_ENCODE's code sequence for x,
gives x, with the same TOKEN_COUNT and NEXT_CODE. -/
def Obligations.LzRoundTrip : Prop :=
  ∀ x : List Byte, ∃ r : Result, lzEncodeRun Limits.unbounded x = .ok r ∧ r.out = render (lzCodes x) ∧
    lzDecodeRun Limits.unbounded r.out = .ok { out := x, tok := r.tok, nextCode := r.nextCode }

/-- R196: capacity symmetry at block level: where LZ_ENCODE of x finishes OK, LZ_DECODE of its output under the same
DICT_CAP finishes OK with x and the same NEXT_CODE, on any block whose IN_MEM holds that output and whose OUT_CAP is at
least len(x). -/
def Obligations.LzCapacitySymmetry : Prop :=
  ∀ (ie ie' : Bool) (s t u : State), s.idleReady → s.inputFits → 256 ≤ s.params.dictCap →
    exec (.lzEncode ie) s = .next t → t.status.err = false →
    u.idleReady → u.inputFits → u.params.dictCap = s.params.dictCap →
    u.input = t.outMem.map Prod.snd → s.input.length ≤ u.params.outCap →
      ∃ v, exec (.lzDecode ie') u = .next v ∧ v.status.err = false ∧
        v.outMem = Memory.ofBytes 0 s.input ∧ v.outLen = BitVec.ofNat 32 s.input.length ∧
        v.tokenCount = t.tokenCount ∧ v.nextCode = t.nextCode
end

