-- ==== Sys2Proof/Laws/Memory.lean ====
section
/-! SUPPORT. The buffers: a read after a write, and the canonical form, which every operation keeps. -/

namespace Sys2Proof.Machine

theorem Memory.read_write_same (m : Memory) (i : Nat) (v : Byte) : (m.write i v).read i = some v := by
  induction m with
  | nil => simp [Memory.write, Memory.read]
  | cons c m ih =>
    simp only [Memory.write]
    split
    · simp [Memory.read]
    · split
      · simp [Memory.read]
      · have : c.1 ≠ i := by omega
        simp [Memory.read, this, ih]

theorem Memory.read_write_other (m : Memory) (i j : Nat) (v : Byte) (h : j ≠ i) :
    (m.write i v).read j = m.read j := by
  have hij : i ≠ j := fun e => h e.symm
  induction m with
  | nil => simp [Memory.write, Memory.read, hij]
  | cons c m ih =>
    simp only [Memory.write]
    split
    · simp [Memory.read, hij]
    · split
      · next hc => simp [Memory.read, hij, ← hc]
      · simp [Memory.read, ih]

theorem Memory.mem_write {m : Memory} {i : Nat} {v : Byte} {c : Host.Cell} (h : c ∈ m.write i v) :
    c = (i, v) ∨ c ∈ m := by
  induction m with
  | nil => simpa [Memory.write] using h
  | cons d m ih =>
    simp only [Memory.write] at h
    split at h
    · simpa using h
    · split at h
      · rcases List.mem_cons.1 h with h | h
        · exact .inl h
        · exact .inr (List.mem_cons_of_mem _ h)
      · rcases List.mem_cons.1 h with h | h
        · exact .inr (h ▸ List.mem_cons_self)
        · exact (ih h).imp id (List.mem_cons_of_mem _)

/-- A write keeps the canonical form. -/
theorem Memory.write_wf {m : Memory} (i : Nat) (v : Byte) (h : m.wf) : (m.write i v).wf := by
  induction m with
  | nil => simp [Memory.write]
  | cons c m ih =>
    obtain ⟨hc, hm⟩ := List.pairwise_cons.1 h
    simp only [Memory.write]
    split
    · next hlt =>
      refine List.pairwise_cons.2 ⟨fun d hd => ?_, h⟩
      rcases List.mem_cons.1 hd with rfl | hd
      · exact hlt
      · exact Nat.lt_trans hlt (hc d hd)
    · split
      · next heq => exact List.pairwise_cons.2 ⟨fun d hd => by simpa [heq] using hc d hd, hm⟩
      · next hlt hne =>
        refine List.pairwise_cons.2 ⟨fun d hd => ?_, ih hm⟩
        rcases Memory.mem_write hd with rfl | hd
        · show c.1 < i
          omega
        · exact hc d hd

/-- A write inside a buffer keeps it inside. -/
theorem Memory.write_within {m : Memory} {cap i : Nat} (v : Byte) (h : m.within cap) (hi : i < cap) :
    (m.write i v).within cap := fun c hc => by
  rcases Memory.mem_write hc with rfl | hc
  · exact hi
  · exact h c hc

theorem Memory.map_fst_ofBytes (i : Nat) (bs : List Byte) :
    (Memory.ofBytes i bs).map Prod.fst = List.range' i bs.length := by
  induction bs generalizing i with
  | nil => rfl
  | cons b bs ih => simp [Memory.ofBytes, ih, List.range'_succ]

theorem Memory.map_snd_ofBytes (i : Nat) (bs : List Byte) : (Memory.ofBytes i bs).map Prod.snd = bs := by
  induction bs generalizing i with
  | nil => rfl
  | cons b bs ih => simp [Memory.ofBytes, ih]

theorem Memory.mem_ofBytes {i : Nat} {bs : List Byte} {c : Host.Cell} (h : c ∈ Memory.ofBytes i bs) :
    i ≤ c.1 ∧ c.1 < i + bs.length := by
  have h' : c.1 ∈ (Memory.ofBytes i bs).map Prod.fst := List.mem_map_of_mem h
  rw [Memory.map_fst_ofBytes, List.mem_range'_1] at h'
  exact h'

/-- Bytes laid out at consecutive indices have the canonical form. -/
theorem Memory.ofBytes_wf (i : Nat) (bs : List Byte) : (Memory.ofBytes i bs).wf := by
  induction bs generalizing i with
  | nil => exact List.Pairwise.nil
  | cons b bs ih =>
    refine List.pairwise_cons.2 ⟨fun c hc => ?_, ih _⟩
    have := (Memory.mem_ofBytes hc).1
    show i < c.1
    omega

theorem Memory.ofBytes_within {bs : List Byte} {cap : Nat} (h : bs.length ≤ cap) :
    (Memory.ofBytes 0 bs).within cap := fun c hc => by
  have := (Memory.mem_ofBytes hc).2
  omega

theorem Memory.read_ofBytes (i j : Nat) (bs : List Byte) :
    (Memory.ofBytes i bs).read (i + j) = bs[j]? := by
  induction bs generalizing i j with
  | nil => rfl
  | cons b bs ih =>
    cases j with
    | zero => simp [Memory.ofBytes, Memory.read]
    | succ j =>
      have h : i + (j + 1) = (i + 1) + j := by omega
      simp only [Memory.ofBytes, Memory.read]
      rw [if_neg (by simp), h, ih]
      simp

/-- What a listed index reads as is listed. -/
theorem Memory.mem_of_read {m : Memory} {i : Nat} {v : Byte} (h : m.read i = some v) : (i, v) ∈ m := by
  induction m with
  | nil => cases h
  | cons c m ih =>
    simp only [Memory.read] at h
    split at h
    · next hc =>
      cases h
      exact hc ▸ List.mem_cons_self
    · exact List.mem_cons_of_mem _ (ih h)

/-- In the canonical form a listed byte is what its index reads as. -/
theorem Memory.read_of_mem {m : Memory} {i : Nat} {v : Byte} (hw : m.wf) (h : (i, v) ∈ m) : m.read i = some v := by
  induction m with
  | nil => cases h
  | cons c m ih =>
    obtain ⟨hc, hm⟩ := List.pairwise_cons.1 hw
    rcases List.mem_cons.1 h with rfl | h'
    · simp [Memory.read]
    · have : c.1 ≠ i := by
        have := hc _ h'
        simp only at this
        omega
      simp [Memory.read, this, ih hm h']

end Sys2Proof.Machine
end

