-- ==== Sys2Proof/Laws/Ops.lean ====
section
/-! SUPPORT. One lemma for each shared operation that says all it can do, for the proofs to cite. -/

namespace Sys2Proof.Machine

/-! ## Emit -/

/-- `Emit` answers with one byte more, or with CapacityExceeded where the output is full. -/
theorem emit_cases (lim : Limits) (v : Byte) (io : Io) :
    (lim.outCap ≠ some io.out.length ∧ emit lim v io = .ok { io with out := io.out ++ [v] }) ∨
      (lim.outCap = some io.out.length ∧ emit lim v io = .error .capacityExceeded) := by
  by_cases h : lim.outCap = some io.out.length
  · exact .inr ⟨h, by simp [emit, Io.outLen, h]⟩
  · exact .inl ⟨h, by simp [emit, Io.outLen, h]⟩

/-- A sequence of `Emit` that succeeds appends its bytes and touches nothing else. -/
theorem emitAll_ok {lim : Limits} {vs : List Byte} {io io' : Io} (h : emitAll lim vs io = .ok io') :
    io' = { io with out := io.out ++ vs } := by
  induction vs generalizing io with
  | nil =>
    cases h
    simp
  | cons v vs ih =>
    simp only [emitAll] at h
    rcases emit_cases lim v io with ⟨-, he⟩ | ⟨-, he⟩
    · rw [he] at h
      rw [ih h]
      simp
    · rw [he] at h
      cases h

/-- A sequence of `Emit` fails only with CapacityExceeded. -/
theorem emitAll_error {lim : Limits} {vs : List Byte} {io : Io} {e : CodecError} (h : emitAll lim vs io = .error e) :
    e = .capacityExceeded := by
  induction vs generalizing io with
  | nil => cases h
  | cons v vs ih =>
    simp only [emitAll] at h
    rcases emit_cases lim v io with ⟨-, he⟩ | ⟨-, he⟩
    · rw [he] at h
      exact ih h
    · rw [he] at h
      cases h
      rfl

/-- Below a finite capacity, a sequence of `Emit` succeeds exactly when the bytes fit. -/
theorem emitAll_bounded {lim : Limits} {cap : Nat} (hc : lim.outCap = some cap) (vs : List Byte) (io : Io)
    (hio : io.out.length ≤ cap) :
    emitAll lim vs io =
      if io.out.length + vs.length ≤ cap then .ok { io with out := io.out ++ vs } else .error .capacityExceeded := by
  induction vs generalizing io with
  | nil => simp [emitAll, hio]
  | cons v vs ih =>
    simp only [emitAll, List.length_cons]
    rcases emit_cases lim v io with ⟨hne, he⟩ | ⟨heq, he⟩
    · have hlt : io.out.length < cap := by
        rcases Nat.lt_or_eq_of_le hio with h | h
        · exact h
        · exact absurd (by rw [hc, h]) hne
      rw [he]
      simp only
      rw [ih _ (by simpa using hlt)]
      simp only [List.length_append, List.length_singleton, List.append_assoc, List.singleton_append]
      congr 1
      exact propext ⟨fun h => by omega, fun h => by omega⟩
    · have hfull : io.out.length = cap := by
        rw [hc] at heq
        exact (Option.some.inj heq).symm
      rw [he, if_neg (by omega)]

/-- Without a capacity, a sequence of `Emit` always succeeds. -/
theorem emitAll_unbounded {lim : Limits} (hc : lim.outCap = none) (vs : List Byte) (io : Io) :
    emitAll lim vs io = .ok { io with out := io.out ++ vs } := by
  induction vs generalizing io with
  | nil => simp [emitAll]
  | cons v vs ih =>
    rcases emit_cases lim v io with ⟨-, he⟩ | ⟨h, -⟩
    · simp [emitAll, he, ih]
    · rw [hc] at h
      cases h

/-! ## Driving an engine -/

theorem drive_more {α : Type} {f : α → Turn α} {e e' : α} (fuel : Nat) (h : f e = .more e') :
    drive f (fuel + 1) e = drive f fuel e' := by
  simp [drive, h]

theorem drive_ok {α : Type} {f : α → Turn α} {e : α} {r : Result} (fuel : Nat) (h : f e = .ok r) :
    drive f (fuel + 1) e = .ok r := by
  simp [drive, h]

theorem drive_fail {α : Type} {f : α → Turn α} {e : α} {err : CodecError} (fuel : Nat) (h : f e = .fail err) :
    drive f (fuel + 1) e = .fail err := by
  simp [drive, h]

/-- What every engine step keeps, and what it gives at the end, holds of the whole drive. -/
theorem drive_induct {α : Type} {f : α → Turn α} {P : α → Prop} {Q : Turn α → Prop}
    (hmore : ∀ e e', P e → f e = .more e' → P e') (hleft : ∀ e, P e → Q (.more e))
    (hok : ∀ e r, P e → f e = .ok r → Q (.ok r)) (hfail : ∀ e err, P e → f e = .fail err → Q (.fail err))
    (fuel : Nat) (e : α) (he : P e) : Q (drive f fuel e) := by
  induction fuel generalizing e with
  | zero => exact hleft e he
  | succ fuel ih =>
    cases hf : f e with
    | more e' =>
      rw [drive_more fuel hf]
      exact ih e' (hmore e e' he hf)
    | ok r =>
      rw [drive_ok fuel hf]
      exact hok e r he hf
    | fail err =>
      rw [drive_fail fuel hf]
      exact hfail e err he hf

/-- With a measure that every step lowers, enough fuel finishes. -/
theorem drive_finishes {α : Type} {f : α → Turn α} {P : α → Prop} (m : α → Nat)
    (hkeep : ∀ e e', P e → f e = .more e' → P e' ∧ m e' < m e) (fuel : Nat) (e : α) (he : P e) (hm : m e < fuel) :
    ∀ e', drive f fuel e ≠ .more e' := by
  induction fuel generalizing e with
  | zero => omega
  | succ fuel ih =>
    cases hf : f e with
    | more e₁ =>
      obtain ⟨h₁, h₂⟩ := hkeep e e₁ he hf
      rw [drive_more fuel hf]
      exact ih e₁ h₁ (by omega)
    | ok r =>
      rw [drive_ok fuel hf]
      intro e' h
      cases h
    | fail err =>
      rw [drive_fail fuel hf]
      intro e' h
      cases h

/-! ## A command from acceptance to Finish -/

theorem issue_ready {c : Ctrl} {run : Limits → List Byte → Turn Engine} {s : State} (hr : s.inReset = false)
    (hb : s.status.busy = false) :
    issue c run s = .next ((s.accept c).perform run { alg := c.alg, dir := c.dir } s.inLen) := by
  simp [issue, hr, hb]

theorem perform_of_startError {run : Limits → List Byte → Turn Engine} {sel : OpSel} {n : Word} {s : State}
    {e : CodecError} (h : startError s.params sel n = some e) : s.perform run sel n = s.finishError e := by
  simp [State.perform, h]

theorem perform_of_startOk {run : Limits → List Byte → Turn Engine} {sel : OpSel} {n : Word} {s : State}
    (h : startError s.params sel n = none) :
    s.perform run sel n = (s.takeInput n.toNat).settle (run s.params.limits (s.inputBytes n.toNat)) := by
  simp [State.perform, h]

theorem settle_ok (r : Result) (s : State) : s.settle (.ok r) = s.finishOk r := rfl

theorem settle_fail (e : CodecError) (s : State) : s.settle (.fail e) = s.finishError e := rfl

theorem settle_more (e : Engine) (s : State) :
    s.settle (.more e) = { s with engine := e, outMem := Memory.ofBytes 0 e.out } := rfl

/-- The start checks pass for a supported selector and an input that fits (40_control.md R122). -/
theorem startError_none {p : Params} {sel : OpSel} {n : Word} :
    startError p sel n = none ↔ sel.command ≠ none ∧ n.toNat ≤ p.inCap := by
  unfold startError
  split
  · next h => simp [h]
  · next h =>
    split
    · next h' =>
      simp only [false_iff, not_and, Nat.not_le, reduceCtorEq]
      exact fun _ => h'
    · next h' => simp [h]; omega

@[simp] theorem inputBytes_length (s : State) (n : Nat) : (s.inputBytes n).length = n := by
  simp [State.inputBytes]

theorem inputBytes_getElem? (s : State) {n j : Nat} (h : j < n) :
    (s.inputBytes n)[j]? = some ((s.inMem.read j).getD (Config.engineByteDraw (s.engineDraws + j))) := by
  simp [State.inputBytes, h]

/-! ## The host port -/

/-- All an access can do: nothing while reset is asserted, no answer outside the block, AccessFault, a read, or a
write. -/
theorem access_cases (s : State) (a : Access) :
    (s.inReset = true ∧ s.access a = { s with response := .none }) ∨
      (s.inReset = false ∧ s.params.offset? a.addr = none ∧ s.access a = { s with response := .notSelected }) ∨
      ∃ off, s.inReset = false ∧ s.params.offset? a.addr = some off ∧
        ((targetAt s.params off a.width = none ∧ s.access a = { s with response := .accessFault }) ∨
          ∃ t, targetAt s.params off a.width = some t ∧
            ((∃ w p, a = .read w p ∧ s.access a = s.readTarget t) ∨
              ∃ p lanes, a = .write p lanes ∧ s.access a = s.writeTarget t lanes)) := by
  cases hr : s.inReset with
  | true => exact .inl ⟨rfl, by simp [State.access, hr]⟩
  | false =>
    cases ho : s.params.offset? a.addr with
    | none => exact .inr (.inl ⟨rfl, rfl, by simp [State.access, hr, ho]⟩)
    | some off =>
      refine .inr (.inr ⟨off, rfl, rfl, ?_⟩)
      cases ht : targetAt s.params off a.width with
      | none => exact .inl ⟨rfl, by simp [State.access, hr, ho, ht]⟩
      | some t =>
        refine .inr ⟨t, rfl, ?_⟩
        cases a with
        | read w p => exact .inl ⟨w, p, rfl, by simp [State.access, hr, ho, ht]⟩
        | write p lanes => exact .inr ⟨p, lanes, rfl, by simp [State.access, hr, ho, ht]⟩

/-- A read changes the bus answer and the count of draws, and nothing else. -/
theorem readTarget_frame (s : State) (t : Target) :
    ∃ resp k, s.readTarget t = { s with response := resp, hostDraws := k } := by
  unfold State.readTarget
  split
  · exact ⟨_, s.hostDraws, rfl⟩
  · exact ⟨_, _, rfl⟩

/-! ## Decode -/

/-- A word that decodes to a command has START set (30_encoding.md R90). -/
theorem decodeWord_ok_start {w : Word} {i : Instr} (h : decodeWord w = .ok i) : w.getLsbD 0 = true := by
  unfold decodeWord at h
  have hbit : ∀ m v : Word, w &&& m = v → m.getLsbD 0 = true → v.getLsbD 0 = true → w.getLsbD 0 = true := by
    intro m v hw hm hv
    have h0 : (w &&& m).getLsbD 0 = v.getLsbD 0 := by rw [hw]
    rw [BitVec.getLsbD_and, hm, hv, Bool.and_true] at h0
    exact h0
  split at h
  · next hw => exact hbit _ _ hw (by decide) (by decide)
  · split at h
    · next hw => exact hbit _ _ hw (by decide) (by decide)
    · split at h
      · next hw => exact hbit _ _ hw (by decide) (by decide)
      · split at h
        · next hw => exact hbit _ _ hw (by decide) (by decide)
        · split at h
          · next hw => exact hbit _ _ hw (by decide) (by decide)
          · cases h

end Sys2Proof.Machine
end

