-- ==== Sys2Proof/Laws/PerInstr.lean ====
section
/-! SUPPORT. A fact about every command word as syntax: its fixed and reserved bits (30_encoding.md R90). -/

namespace Sys2Proof.Laws.FixedBits

/-- The command word of a command has START set and its reserved bits 31:5 clear (30_encoding.md R90). -/
def Statement (i : Instr) : Prop :=
  (encode i).getLsbD 0 = true ∧ (encode i).toNat < 32

theorem of_commandWord (ie : Bool) (alg : BitVec 2) (dir : Bool) :
    (commandWord ie alg dir).getLsbD 0 = true ∧ (commandWord ie alg dir).toNat < 32 := by
  revert ie alg dir
  decide

theorem rleEncode (ie : Bool) : Statement (.rleEncode ie) := of_commandWord ie 0#2 false

theorem rleDecode (ie : Bool) : Statement (.rleDecode ie) := of_commandWord ie 0#2 true

theorem lzEncode (ie : Bool) : Statement (.lzEncode ie) := of_commandWord ie 1#2 false

theorem lzDecode (ie : Bool) : Statement (.lzDecode ie) := of_commandWord ie 1#2 true

theorem unsupportedAlg (ie : Bool) (alg : BitVec 2) (dir : Bool) : Statement (.unsupportedAlg ie alg dir) :=
  of_commandWord ie alg dir

end Sys2Proof.Laws.FixedBits
end

