-- ==== Sys2Proof/Laws/State.lean ====
section
/-! SUPPORT. What each field of the state is after each named update. -/

namespace Sys2Proof.Machine

/-! ## accept -/

@[simp] theorem State.accept_params (c : Ctrl) (s : State) : (s.accept c).params = s.params := rfl
@[simp] theorem State.accept_ctrl (c : Ctrl) (s : State) : (s.accept c).ctrl = c := rfl
@[simp] theorem State.accept_status (c : Ctrl) (s : State) : (s.accept c).status = Status.atAcceptance := rfl
@[simp] theorem State.accept_inLen (c : Ctrl) (s : State) : (s.accept c).inLen = s.inLen := rfl
@[simp] theorem State.accept_outLen (c : Ctrl) (s : State) : (s.accept c).outLen = s.outLen := rfl
@[simp] theorem State.accept_tokenCount (c : Ctrl) (s : State) : (s.accept c).tokenCount = s.tokenCount := rfl
@[simp] theorem State.accept_nextCode (c : Ctrl) (s : State) : (s.accept c).nextCode = s.nextCode := rfl
@[simp] theorem State.accept_inMem (c : Ctrl) (s : State) : (s.accept c).inMem = s.inMem := rfl
@[simp] theorem State.accept_outMem (c : Ctrl) (s : State) : (s.accept c).outMem = [] := rfl
@[simp] theorem State.accept_engine (c : Ctrl) (s : State) :
    (s.accept c).engine = .start { alg := c.alg, dir := c.dir } s.inLen := rfl
@[simp] theorem State.accept_inReset (c : Ctrl) (s : State) : (s.accept c).inReset = s.inReset := rfl
@[simp] theorem State.accept_inputs (c : Ctrl) (s : State) : (s.accept c).inputs = s.inputs := rfl
@[simp] theorem State.accept_response (c : Ctrl) (s : State) : (s.accept c).response = s.response := rfl
@[simp] theorem State.accept_hostDraws (c : Ctrl) (s : State) : (s.accept c).hostDraws = s.hostDraws := rfl
@[simp] theorem State.accept_engineDraws (c : Ctrl) (s : State) : (s.accept c).engineDraws = s.engineDraws := rfl

/-! ## finishOk -/

@[simp] theorem State.finishOk_params (r : Result) (s : State) : (s.finishOk r).params = s.params := rfl
@[simp] theorem State.finishOk_ctrl (r : Result) (s : State) : (s.finishOk r).ctrl = s.ctrl := rfl
@[simp] theorem State.finishOk_status (r : Result) (s : State) : (s.finishOk r).status = Status.atFinishOk := rfl
@[simp] theorem State.finishOk_inLen (r : Result) (s : State) : (s.finishOk r).inLen = s.inLen := rfl
@[simp] theorem State.finishOk_outLen (r : Result) (s : State) :
    (s.finishOk r).outLen = BitVec.ofNat 32 r.out.length := rfl
@[simp] theorem State.finishOk_tokenCount (r : Result) (s : State) :
    (s.finishOk r).tokenCount = BitVec.ofNat 32 r.tok := rfl
@[simp] theorem State.finishOk_nextCode (r : Result) (s : State) :
    (s.finishOk r).nextCode = BitVec.ofNat 32 r.nextCode := rfl
@[simp] theorem State.finishOk_inMem (r : Result) (s : State) : (s.finishOk r).inMem = s.inMem := rfl
@[simp] theorem State.finishOk_outMem (r : Result) (s : State) : (s.finishOk r).outMem = Memory.ofBytes 0 r.out := rfl
@[simp] theorem State.finishOk_engine (r : Result) (s : State) : (s.finishOk r).engine = .idle := rfl
@[simp] theorem State.finishOk_inReset (r : Result) (s : State) : (s.finishOk r).inReset = s.inReset := rfl
@[simp] theorem State.finishOk_inputs (r : Result) (s : State) : (s.finishOk r).inputs = s.inputs := rfl
@[simp] theorem State.finishOk_response (r : Result) (s : State) : (s.finishOk r).response = s.response := rfl
@[simp] theorem State.finishOk_hostDraws (r : Result) (s : State) : (s.finishOk r).hostDraws = s.hostDraws := rfl
@[simp] theorem State.finishOk_engineDraws (r : Result) (s : State) :
    (s.finishOk r).engineDraws = s.engineDraws := rfl

/-! ## finishError -/

@[simp] theorem State.finishError_params (e : CodecError) (s : State) : (s.finishError e).params = s.params := rfl
@[simp] theorem State.finishError_ctrl (e : CodecError) (s : State) : (s.finishError e).ctrl = s.ctrl := rfl
@[simp] theorem State.finishError_status (e : CodecError) (s : State) :
    (s.finishError e).status = Status.atFinishError e := rfl
@[simp] theorem State.finishError_inLen (e : CodecError) (s : State) : (s.finishError e).inLen = s.inLen := rfl
@[simp] theorem State.finishError_outLen (e : CodecError) (s : State) : (s.finishError e).outLen = s.outLen := rfl
@[simp] theorem State.finishError_tokenCount (e : CodecError) (s : State) :
    (s.finishError e).tokenCount = s.tokenCount := rfl
@[simp] theorem State.finishError_nextCode (e : CodecError) (s : State) :
    (s.finishError e).nextCode = s.nextCode := rfl
@[simp] theorem State.finishError_inMem (e : CodecError) (s : State) : (s.finishError e).inMem = s.inMem := rfl
@[simp] theorem State.finishError_outMem (e : CodecError) (s : State) : (s.finishError e).outMem = [] := rfl
@[simp] theorem State.finishError_engine (e : CodecError) (s : State) : (s.finishError e).engine = .idle := rfl
@[simp] theorem State.finishError_inReset (e : CodecError) (s : State) : (s.finishError e).inReset = s.inReset := rfl
@[simp] theorem State.finishError_inputs (e : CodecError) (s : State) : (s.finishError e).inputs = s.inputs := rfl
@[simp] theorem State.finishError_response (e : CodecError) (s : State) :
    (s.finishError e).response = s.response := rfl
@[simp] theorem State.finishError_hostDraws (e : CodecError) (s : State) :
    (s.finishError e).hostDraws = s.hostDraws := rfl
@[simp] theorem State.finishError_engineDraws (e : CodecError) (s : State) :
    (s.finishError e).engineDraws = s.engineDraws := rfl

/-! ## acknowledge -/

@[simp] theorem State.acknowledge_params (s : State) : s.acknowledge.params = s.params := rfl
@[simp] theorem State.acknowledge_ctrl (s : State) : s.acknowledge.ctrl = s.ctrl := rfl
@[simp] theorem State.acknowledge_status (s : State) : s.acknowledge.status = { s.status with done := false } := rfl
@[simp] theorem State.acknowledge_inLen (s : State) : s.acknowledge.inLen = s.inLen := rfl
@[simp] theorem State.acknowledge_outLen (s : State) : s.acknowledge.outLen = s.outLen := rfl
@[simp] theorem State.acknowledge_tokenCount (s : State) : s.acknowledge.tokenCount = s.tokenCount := rfl
@[simp] theorem State.acknowledge_nextCode (s : State) : s.acknowledge.nextCode = s.nextCode := rfl
@[simp] theorem State.acknowledge_inMem (s : State) : s.acknowledge.inMem = s.inMem := rfl
@[simp] theorem State.acknowledge_outMem (s : State) : s.acknowledge.outMem = s.outMem := rfl
@[simp] theorem State.acknowledge_engine (s : State) : s.acknowledge.engine = s.engine := rfl
@[simp] theorem State.acknowledge_inReset (s : State) : s.acknowledge.inReset = s.inReset := rfl
@[simp] theorem State.acknowledge_inputs (s : State) : s.acknowledge.inputs = s.inputs := rfl
@[simp] theorem State.acknowledge_response (s : State) : s.acknowledge.response = s.response := rfl
@[simp] theorem State.acknowledge_hostDraws (s : State) : s.acknowledge.hostDraws = s.hostDraws := rfl
@[simp] theorem State.acknowledge_engineDraws (s : State) : s.acknowledge.engineDraws = s.engineDraws := rfl

/-! ## takeInput -/

@[simp] theorem State.takeInput_params (n : Nat) (s : State) : (s.takeInput n).params = s.params := rfl
@[simp] theorem State.takeInput_ctrl (n : Nat) (s : State) : (s.takeInput n).ctrl = s.ctrl := rfl
@[simp] theorem State.takeInput_status (n : Nat) (s : State) : (s.takeInput n).status = s.status := rfl
@[simp] theorem State.takeInput_inLen (n : Nat) (s : State) : (s.takeInput n).inLen = s.inLen := rfl
@[simp] theorem State.takeInput_outLen (n : Nat) (s : State) : (s.takeInput n).outLen = s.outLen := rfl
@[simp] theorem State.takeInput_tokenCount (n : Nat) (s : State) : (s.takeInput n).tokenCount = s.tokenCount := rfl
@[simp] theorem State.takeInput_nextCode (n : Nat) (s : State) : (s.takeInput n).nextCode = s.nextCode := rfl
@[simp] theorem State.takeInput_inMem (n : Nat) (s : State) : (s.takeInput n).inMem = s.inMem := rfl
@[simp] theorem State.takeInput_outMem (n : Nat) (s : State) : (s.takeInput n).outMem = s.outMem := rfl
@[simp] theorem State.takeInput_engine (n : Nat) (s : State) : (s.takeInput n).engine = s.engine := rfl
@[simp] theorem State.takeInput_inReset (n : Nat) (s : State) : (s.takeInput n).inReset = s.inReset := rfl
@[simp] theorem State.takeInput_inputs (n : Nat) (s : State) : (s.takeInput n).inputs = s.inputs := rfl
@[simp] theorem State.takeInput_response (n : Nat) (s : State) : (s.takeInput n).response = s.response := rfl
@[simp] theorem State.takeInput_hostDraws (n : Nat) (s : State) : (s.takeInput n).hostDraws = s.hostDraws := rfl
@[simp] theorem State.takeInput_engineDraws (n : Nat) (s : State) :
    (s.takeInput n).engineDraws = s.engineDraws + n := rfl

/-! ## resetTo -/

@[simp] theorem State.resetTo_params (level : Bool) (s : State) : (s.resetTo level).params = s.params := rfl
@[simp] theorem State.resetTo_ctrl (level : Bool) (s : State) : (s.resetTo level).ctrl = Ctrl.reset := rfl
@[simp] theorem State.resetTo_status (level : Bool) (s : State) : (s.resetTo level).status = Status.reset := rfl
@[simp] theorem State.resetTo_inLen (level : Bool) (s : State) : (s.resetTo level).inLen = 0#32 := rfl
@[simp] theorem State.resetTo_outLen (level : Bool) (s : State) : (s.resetTo level).outLen = 0#32 := rfl
@[simp] theorem State.resetTo_tokenCount (level : Bool) (s : State) : (s.resetTo level).tokenCount = 0#32 := rfl
@[simp] theorem State.resetTo_nextCode (level : Bool) (s : State) : (s.resetTo level).nextCode = 0#32 := rfl
@[simp] theorem State.resetTo_inMem (level : Bool) (s : State) : (s.resetTo level).inMem = [] := rfl
@[simp] theorem State.resetTo_outMem (level : Bool) (s : State) : (s.resetTo level).outMem = [] := rfl
@[simp] theorem State.resetTo_engine (level : Bool) (s : State) : (s.resetTo level).engine = .idle := rfl
@[simp] theorem State.resetTo_inReset (level : Bool) (s : State) : (s.resetTo level).inReset = level := rfl
@[simp] theorem State.resetTo_inputs (level : Bool) (s : State) : (s.resetTo level).inputs = s.inputs := rfl
@[simp] theorem State.resetTo_response (level : Bool) (s : State) : (s.resetTo level).response = .none := rfl
@[simp] theorem State.resetTo_hostDraws (level : Bool) (s : State) : (s.resetTo level).hostDraws = s.hostDraws := rfl
@[simp] theorem State.resetTo_engineDraws (level : Bool) (s : State) :
    (s.resetTo level).engineDraws = s.engineDraws := rfl

/-! ## pop -/

@[simp] theorem State.pop_params (rest : List Input) (s : State) : (s.pop rest).params = s.params := rfl
@[simp] theorem State.pop_ctrl (rest : List Input) (s : State) : (s.pop rest).ctrl = s.ctrl := rfl
@[simp] theorem State.pop_status (rest : List Input) (s : State) : (s.pop rest).status = s.status := rfl
@[simp] theorem State.pop_inLen (rest : List Input) (s : State) : (s.pop rest).inLen = s.inLen := rfl
@[simp] theorem State.pop_outLen (rest : List Input) (s : State) : (s.pop rest).outLen = s.outLen := rfl
@[simp] theorem State.pop_tokenCount (rest : List Input) (s : State) : (s.pop rest).tokenCount = s.tokenCount := rfl
@[simp] theorem State.pop_nextCode (rest : List Input) (s : State) : (s.pop rest).nextCode = s.nextCode := rfl
@[simp] theorem State.pop_inMem (rest : List Input) (s : State) : (s.pop rest).inMem = s.inMem := rfl
@[simp] theorem State.pop_outMem (rest : List Input) (s : State) : (s.pop rest).outMem = s.outMem := rfl
@[simp] theorem State.pop_engine (rest : List Input) (s : State) : (s.pop rest).engine = s.engine := rfl
@[simp] theorem State.pop_inReset (rest : List Input) (s : State) : (s.pop rest).inReset = s.inReset := rfl
@[simp] theorem State.pop_inputs (rest : List Input) (s : State) : (s.pop rest).inputs = rest := rfl
@[simp] theorem State.pop_response (rest : List Input) (s : State) : (s.pop rest).response = s.response := rfl
@[simp] theorem State.pop_hostDraws (rest : List Input) (s : State) : (s.pop rest).hostDraws = s.hostDraws := rfl
@[simp] theorem State.pop_engineDraws (rest : List Input) (s : State) :
    (s.pop rest).engineDraws = s.engineDraws := rfl

/-! ## answerWrite -/

@[simp] theorem State.answerWrite_params (s : State) : s.answerWrite.params = s.params := rfl
@[simp] theorem State.answerWrite_ctrl (s : State) : s.answerWrite.ctrl = s.ctrl := rfl
@[simp] theorem State.answerWrite_status (s : State) : s.answerWrite.status = s.status := rfl
@[simp] theorem State.answerWrite_inLen (s : State) : s.answerWrite.inLen = s.inLen := rfl
@[simp] theorem State.answerWrite_outLen (s : State) : s.answerWrite.outLen = s.outLen := rfl
@[simp] theorem State.answerWrite_tokenCount (s : State) : s.answerWrite.tokenCount = s.tokenCount := rfl
@[simp] theorem State.answerWrite_nextCode (s : State) : s.answerWrite.nextCode = s.nextCode := rfl
@[simp] theorem State.answerWrite_inMem (s : State) : s.answerWrite.inMem = s.inMem := rfl
@[simp] theorem State.answerWrite_outMem (s : State) : s.answerWrite.outMem = s.outMem := rfl
@[simp] theorem State.answerWrite_engine (s : State) : s.answerWrite.engine = s.engine := rfl
@[simp] theorem State.answerWrite_inReset (s : State) : s.answerWrite.inReset = s.inReset := rfl
@[simp] theorem State.answerWrite_inputs (s : State) : s.answerWrite.inputs = s.inputs := rfl
@[simp] theorem State.answerWrite_response (s : State) :
    s.answerWrite.response = if s.inReset then .none else .done := rfl
@[simp] theorem State.answerWrite_hostDraws (s : State) : s.answerWrite.hostDraws = s.hostDraws := rfl
@[simp] theorem State.answerWrite_engineDraws (s : State) : s.answerWrite.engineDraws = s.engineDraws := rfl

/-! ## completed -/

@[simp] theorem State.completed_params (s : State) (c : Ctrl) (r : Result) :
    (s.completed c r).params = s.params := rfl
@[simp] theorem State.completed_ctrl (s : State) (c : Ctrl) (r : Result) : (s.completed c r).ctrl = c := rfl
@[simp] theorem State.completed_status (s : State) (c : Ctrl) (r : Result) :
    (s.completed c r).status = { busy := false, done := true, err := false, errcode := 0#4 } := rfl
@[simp] theorem State.completed_inLen (s : State) (c : Ctrl) (r : Result) : (s.completed c r).inLen = s.inLen := rfl
@[simp] theorem State.completed_outLen (s : State) (c : Ctrl) (r : Result) :
    (s.completed c r).outLen = BitVec.ofNat 32 r.out.length := rfl
@[simp] theorem State.completed_tokenCount (s : State) (c : Ctrl) (r : Result) :
    (s.completed c r).tokenCount = BitVec.ofNat 32 r.tok := rfl
@[simp] theorem State.completed_nextCode (s : State) (c : Ctrl) (r : Result) :
    (s.completed c r).nextCode = BitVec.ofNat 32 r.nextCode := rfl
@[simp] theorem State.completed_inMem (s : State) (c : Ctrl) (r : Result) : (s.completed c r).inMem = s.inMem := rfl
@[simp] theorem State.completed_outMem (s : State) (c : Ctrl) (r : Result) :
    (s.completed c r).outMem = Memory.ofBytes 0 r.out := rfl
@[simp] theorem State.completed_engine (s : State) (c : Ctrl) (r : Result) : (s.completed c r).engine = .idle := rfl
@[simp] theorem State.completed_inReset (s : State) (c : Ctrl) (r : Result) :
    (s.completed c r).inReset = s.inReset := rfl
@[simp] theorem State.completed_inputs (s : State) (c : Ctrl) (r : Result) :
    (s.completed c r).inputs = s.inputs := rfl
@[simp] theorem State.completed_response (s : State) (c : Ctrl) (r : Result) :
    (s.completed c r).response = s.response := rfl
@[simp] theorem State.completed_hostDraws (s : State) (c : Ctrl) (r : Result) :
    (s.completed c r).hostDraws = s.hostDraws := rfl
@[simp] theorem State.completed_engineDraws (s : State) (c : Ctrl) (r : Result) :
    (s.completed c r).engineDraws = s.engineDraws + s.inLen.toNat := rfl

/-! ## failed -/

@[simp] theorem State.failed_params (s : State) (c : Ctrl) (e : CodecError) (k : Nat) :
    (s.failed c e k).params = s.params := rfl
@[simp] theorem State.failed_ctrl (s : State) (c : Ctrl) (e : CodecError) (k : Nat) : (s.failed c e k).ctrl = c := rfl
@[simp] theorem State.failed_status (s : State) (c : Ctrl) (e : CodecError) (k : Nat) :
    (s.failed c e k).status = { busy := false, done := true, err := true, errcode := e.code } := rfl
@[simp] theorem State.failed_inLen (s : State) (c : Ctrl) (e : CodecError) (k : Nat) :
    (s.failed c e k).inLen = s.inLen := rfl
@[simp] theorem State.failed_outLen (s : State) (c : Ctrl) (e : CodecError) (k : Nat) :
    (s.failed c e k).outLen = s.outLen := rfl
@[simp] theorem State.failed_tokenCount (s : State) (c : Ctrl) (e : CodecError) (k : Nat) :
    (s.failed c e k).tokenCount = s.tokenCount := rfl
@[simp] theorem State.failed_nextCode (s : State) (c : Ctrl) (e : CodecError) (k : Nat) :
    (s.failed c e k).nextCode = s.nextCode := rfl
@[simp] theorem State.failed_inMem (s : State) (c : Ctrl) (e : CodecError) (k : Nat) :
    (s.failed c e k).inMem = s.inMem := rfl
@[simp] theorem State.failed_outMem (s : State) (c : Ctrl) (e : CodecError) (k : Nat) :
    (s.failed c e k).outMem = [] := rfl
@[simp] theorem State.failed_engine (s : State) (c : Ctrl) (e : CodecError) (k : Nat) :
    (s.failed c e k).engine = .idle := rfl
@[simp] theorem State.failed_inReset (s : State) (c : Ctrl) (e : CodecError) (k : Nat) :
    (s.failed c e k).inReset = s.inReset := rfl
@[simp] theorem State.failed_inputs (s : State) (c : Ctrl) (e : CodecError) (k : Nat) :
    (s.failed c e k).inputs = s.inputs := rfl
@[simp] theorem State.failed_response (s : State) (c : Ctrl) (e : CodecError) (k : Nat) :
    (s.failed c e k).response = s.response := rfl
@[simp] theorem State.failed_hostDraws (s : State) (c : Ctrl) (e : CodecError) (k : Nat) :
    (s.failed c e k).hostDraws = s.hostDraws := rfl
@[simp] theorem State.failed_engineDraws (s : State) (c : Ctrl) (e : CodecError) (k : Nat) :
    (s.failed c e k).engineDraws = s.engineDraws + k := rfl

/-! ## withFetchWord -/

@[simp] theorem State.withFetchWord_params (s : State) (n w : Nat) : (s.withFetchWord n w).params = s.params := rfl
@[simp] theorem State.withFetchWord_ctrl (s : State) (n w : Nat) : (s.withFetchWord n w).ctrl = s.ctrl := rfl
@[simp] theorem State.withFetchWord_status (s : State) (n w : Nat) : (s.withFetchWord n w).status = s.status := rfl
@[simp] theorem State.withFetchWord_inLen (s : State) (n w : Nat) : (s.withFetchWord n w).inLen = s.inLen := rfl
@[simp] theorem State.withFetchWord_outLen (s : State) (n w : Nat) : (s.withFetchWord n w).outLen = s.outLen := rfl
@[simp] theorem State.withFetchWord_tokenCount (s : State) (n w : Nat) :
    (s.withFetchWord n w).tokenCount = s.tokenCount := rfl
@[simp] theorem State.withFetchWord_nextCode (s : State) (n w : Nat) :
    (s.withFetchWord n w).nextCode = s.nextCode := rfl
@[simp] theorem State.withFetchWord_inMem (s : State) (n w : Nat) : (s.withFetchWord n w).inMem = s.inMem := rfl
@[simp] theorem State.withFetchWord_outMem (s : State) (n w : Nat) : (s.withFetchWord n w).outMem = s.outMem := rfl
@[simp] theorem State.withFetchWord_engine (s : State) (n w : Nat) : (s.withFetchWord n w).engine = s.engine := rfl
@[simp] theorem State.withFetchWord_inReset (s : State) (n w : Nat) : (s.withFetchWord n w).inReset = s.inReset := rfl
@[simp] theorem State.withFetchWord_inputs (s : State) (n w : Nat) :
    (s.withFetchWord n w).inputs = .command (BitVec.ofNat 32 (w % 2 ^ n)) :: s.inputs := rfl
@[simp] theorem State.withFetchWord_response (s : State) (n w : Nat) :
    (s.withFetchWord n w).response = s.response := rfl
@[simp] theorem State.withFetchWord_hostDraws (s : State) (n w : Nat) :
    (s.withFetchWord n w).hostDraws = s.hostDraws := rfl
@[simp] theorem State.withFetchWord_engineDraws (s : State) (n w : Nat) :
    (s.withFetchWord n w).engineDraws = s.engineDraws := rfl

end Sys2Proof.Machine
end

