-- ==== Sys2Proof/Machine/HostProgram.lean ====
section
/-! DEFINITION. The host-program notation (30_encoding.md R104), its pseudo-instructions (R105), and a host that runs a
program against the block (40_control.md R132). The host is outside the block: `step` does not use this file (log 22). -/

namespace Sys2Proof.Machine

/-- A field of a register in a `BNE` line: bits `hi` down to `lo` (00_scope.md R8). -/
structure RegField where
  hi : Nat
  lo : Nat
deriving DecidableEq, Repr

/-- One line of a host program (30_encoding.md R104). A label is a number (log 22). -/
inductive HostLine where
  /-- `W32 <REG>, <value>` -/
  | w32 (r : RegName) (v : Word)
  /-- `R32 <REG>` -/
  | r32 (r : RegName)
  /-- `W8 IN[<i>], <byte>` -/
  | w8In (i : Nat) (b : Byte)
  /-- `R8 OUT[<i>]` -/
  | r8Out (i : Nat)
  /-- `R8 IN[<i>]` -/
  | r8In (i : Nat)
  /-- `<label>:` -/
  | label (l : Nat)
  /-- `BNE <REG>.<FIELD>, <value>, <label>` -/
  | bne (r : RegName) (f : RegField) (v : Nat) (l : Nat)
deriving DecidableEq, Repr

/-- STATUS.BUSY (10_state.md R24). -/
def RegField.busy : RegField := { hi := 0, lo := 0 }

/-- The whole register, `ALL` of 95_test_vectors.md P2. -/
def RegField.whole : RegField := { hi := 31, lo := 0 }

/-- `v[hi:lo]`, read as an unsigned number (00_scope.md R8). -/
def RegField.of (f : RegField) (w : Word) : Nat := w.toNat / 2 ^ f.lo % 2 ^ (f.hi + 1 - f.lo)

/-- The bus access of a line, none for a label or a branch (30_encoding.md R104). -/
def HostLine.access? (p : Params) : HostLine → Option Access
  | .w32 r v => some (.write (p.base + r.offset) (lanesOfWord v))
  | .r32 r => some (.read 4 (p.base + r.offset))
  | .w8In i b => some (.write (p.base + inMemBase + i) [b])
  | .r8Out i => some (.read 1 (p.base + outMemBase + i))
  | .r8In i => some (.read 1 (p.base + inMemBase + i))
  | .label _ => none
  | .bne _ _ _ _ => none

/-- `LOAD [b_0, …]`: the bytes from IN[`i`] on (30_encoding.md R105). -/
def loadLinesFrom : Nat → List Byte → List HostLine
  | _, [] => []
  | i, b :: bs => .w8In i b :: loadLinesFrom (i + 1) bs

/-- `LOAD [b_0, …, b_(n−1)]` (30_encoding.md R105). -/
def loadLines (bs : List Byte) : List HostLine :=
  loadLinesFrom 0 bs ++ [.w32 .inLen (BitVec.ofNat 32 bs.length)]

/-- `START <cmd>` and `START <cmd>, IE` (30_encoding.md R105). -/
def startLines (cmd : Command) (ie : Bool) : List HostLine :=
  match cmd with
  | .rleEncode => [.w32 .ctrl (encode (.rleEncode ie))]
  | .rleDecode => [.w32 .ctrl (encode (.rleDecode ie))]
  | .lzEncode => [.w32 .ctrl (encode (.lzEncode ie))]
  | .lzDecode => [.w32 .ctrl (encode (.lzDecode ie))]

/-- `WAIT`, with a label not used elsewhere (30_encoding.md R105). -/
def waitLines (fresh : Nat) : List HostLine :=
  [.label fresh, .r32 .status, .bne .status RegField.busy 0 fresh]

/-- `ACK` (30_encoding.md R105). -/
def ackLines : List HostLine := [.w32 .status 2#32]

/-- `READOUT`, where `R32 OUT_LEN` returns `len` (30_encoding.md R105). -/
def readoutLines (len : Nat) : List HostLine :=
  .r32 .outLen :: (List.range len).map .r8Out

/-- A host running a program: its place in it, and the last value it read from each register. -/
structure HostAgent where
  program : List HostLine
  pc : Nat
  lastRead : List (RegName × Word)
deriving DecidableEq, Repr

/-- The last value read from a register. -/
def HostAgent.last (h : HostAgent) (r : RegName) : Option Word :=
  (h.lastRead.find? (fun e => e.1 == r)).map (·.2)

/-- Where a label stands. -/
def HostAgent.find (h : HostAgent) (l : Nat) : Nat := h.program.idxOf (.label l)

/-- What the host keeps of the bus's answer to a line. -/
def HostAgent.note (h : HostAgent) (line : HostLine) (resp : Response) : HostAgent :=
  match line, resp with
  | .r32 r, .data lanes => { h with lastRead := (r, wordOfLanes lanes) :: h.lastRead }
  | _, _ => h

/-- A host and a block (00_scope.md glossary, "Host"). -/
structure System where
  host : HostAgent
  block : State
deriving DecidableEq, Repr

/-- The host runs its next line: a bus access of the block, or the host's own control flow (30_encoding.md R104). -/
def System.hostTurn (y : System) : System :=
  match y.host.program[y.host.pc]? with
  | none => y
  | some (.bne r f v l) =>
    if (y.host.last r).map f.of = some v then { y with host := { y.host with pc := y.host.pc + 1 } }
    else { y with host := { y.host with pc := y.host.find l } }
  | some line =>
    match line.access? y.block.params with
    | none => { y with host := { y.host with pc := y.host.pc + 1 } }
    | some a =>
      let block := y.block.access a
      { host := { y.host.note line block.response with pc := y.host.pc + 1 }, block := block }

/-- The engine takes a turn beside the host (40_control.md R131). -/
def System.engineTurn (y : System) : System := { y with block := y.block.engineTurn }

/-- Turns of the host (`true`) and of the engine (`false`) in any order: LATENCY is unspecified (00_scope.md R6). -/
def System.run : List Bool → System → System
  | [], y => y
  | true :: turns, y => System.run turns y.hostTurn
  | false :: turns, y => System.run turns y.engineTurn

/-- "A run of host and block has ended when the host's program has ended and `phase = IDLE`" (40_control.md R132). -/
def System.ended (y : System) : Bool := y.host.program.length ≤ y.host.pc && y.block.phase == .idle

end Sys2Proof.Machine
end

