-- ==== Sys2Proof/Tests/Slice0.lean ====
section
/-! SUPPORT. The model's own tests, on small states: well-formedness, decoding of words written out from
30_encoding.md R90 and R91, the commands on vectors of 95_test_vectors.md, and a witness for the hypotheses of every
statement of Certificates/Slice0/Obligations.lean that has some. -/

namespace Sys2Proof.Tests

open Sys2Proof Sys2Proof.Machine

/-! ## Small states -/

/-- Small parameters: BASE = 2^26, IN_CAP = 16, OUT_CAP = 4, DICT_CAP = 258. -/
def small : Params := { base := 0x04000000, inCap := 16, outCap := 4, dictCap := 258 }

/-- The block after reset and a LOAD of `x` (30_encoding.md R105). -/
def loaded (p : Params) (x : List Byte) : State :=
  { State.reset with params := p, inMem := Memory.ofBytes 0 x, inLen := BitVec.ofNat 32 x.length }

/-- A block with RLE_ENCODE of "AAAB" just accepted. -/
def busy : State :=
  { loaded small [0x41#8, 0x41#8, 0x41#8, 0x42#8] with
    status := Status.atAcceptance, engine := .start { alg := 0#2, dir := false } 4#32 }

/-- STATUS, OUT_LEN, TOKEN_COUNT and NEXT_CODE after a command, and OUT_MEM. -/
def results : Host.Outcome State Fault Refusal → Option (List Word × Memory)
  | .next t => some ([t.status.toWord, t.outLen, t.tokenCount, t.nextCode], t.outMem)
  | _ => none

/-- The STATUS and CTRL words after a command or step. -/
def words : Host.Outcome State Fault Refusal → Option (Word × Word)
  | .next t => some (t.status.toWord, t.ctrl.toWord)
  | _ => none

/-- "AAAB". -/
def aaab : List Byte := [0x41#8, 0x41#8, 0x41#8, 0x42#8]

/-- "AAAA". -/
def aaaa : List Byte := [0x41#8, 0x41#8, 0x41#8, 0x41#8]

/-- The text `65,256,65`. -/
def text65256 : List Byte := [0x36#8, 0x35#8, 0x2C#8, 0x32#8, 0x35#8, 0x36#8, 0x2C#8, 0x36#8, 0x35#8]

/-! ## Well-formedness and decoding -/

/-- "10 or 11" are the ALG values of UNSUPPORTED_ALG (30_encoding.md R91). -/
theorem test_wellFormed_refuses_supported_alg :
    (Instr.unsupportedAlg false 0#2 false).wellFormed = false ∧
      (Instr.unsupportedAlg true 1#2 true).wellFormed = false ∧
      (Instr.unsupportedAlg false 2#2 false).wellFormed = true ∧
      (Instr.unsupportedAlg true 3#2 true).wellFormed = true := by decide

theorem test_decode_rleEncode :
    decode [0b00000001#8, 0#8, 0#8, 0#8] = .ok (.rleEncode false) ∧
      decode [0b00010001#8, 0#8, 0#8, 0#8] = .ok (.rleEncode true) := by decide

theorem test_decode_rleDecode :
    decode [0b00000011#8, 0#8, 0#8, 0#8] = .ok (.rleDecode false) ∧
      decode [0b00010011#8, 0#8, 0#8, 0#8] = .ok (.rleDecode true) := by decide

/-- The second word is that of V-L2-SC-7, with bits 31:5 set. -/
theorem test_decode_lzEncode :
    decode [0b00010101#8, 0#8, 0#8, 0#8] = .ok (.lzEncode true) ∧
      decode [0xE5#8, 0xFF#8, 0xFF#8, 0xFF#8] = .ok (.lzEncode false) := by decide

theorem test_decode_lzDecode :
    decode [0b00000111#8, 0#8, 0#8, 0#8] = .ok (.lzDecode false) ∧
      decode [0b00010111#8, 0#8, 0#8, 0#8] = .ok (.lzDecode true) := by decide

theorem test_decode_unsupportedAlg :
    decode [0b00001001#8, 0#8, 0#8, 0#8] = .ok (.unsupportedAlg false 2#2 false) ∧
      decode [0b00011111#8, 0#8, 0#8, 0#8] = .ok (.unsupportedAlg true 3#2 true) := by decide

/-- START = 0 is no command (30_encoding.md R90); a command is one 32-bit access (R93). -/
theorem test_decode_rejects :
    decode [0x16#8, 0#8, 0#8, 0#8] = .error .noStart ∧ decode [0x01#8, 0#8] = .error .wrongLength := by decide

theorem test_decodeTableWord :
    decodeTableWord 32 0x3 = some (.rleDecode false) ∧ decodeTableWord 32 0x2 = none := by decide

/-! ## The commands -/

/-- V-L2-RE-18. -/
theorem test_rleEncode_fills_output :
    results (exec (.rleEncode false) (loaded small aaab)) =
      some ([0x02#32, 4#32, 2#32, 0#32], [(0, 0x41#8), (1, 0x03#8), (2, 0x42#8), (3, 0x01#8)]) := by decide

/-- V-L2-RE-19. -/
theorem test_rleEncode_exceeds_output :
    words (exec (.rleEncode false) (loaded { small with outCap := 3 } aaab)) = some (0x56#32, 0#32) := by decide

/-- V-L2-RD-12. -/
theorem test_rleDecode_fills_output :
    results (exec (.rleDecode false) (loaded small [0x41#8, 0x03#8, 0x42#8, 0x01#8])) =
      some ([0x02#32, 4#32, 2#32, 0#32], [(0, 0x41#8), (1, 0x41#8), (2, 0x41#8), (3, 0x42#8)]) := by decide

/-- The first command of P3: an odd length, with IE. -/
theorem test_rleDecode_odd_length :
    words (exec (.rleDecode true) (loaded small [0x41#8, 0x03#8, 0x42#8])) = some (0x16#32, 0x12#32) := by decide

/-- V-L2-LE-17 with the output capacity of V-L2-LE-21. -/
theorem test_lzEncode_fills_both :
    results (exec (.lzEncode false) (loaded { small with outCap := 9 } aaaa)) =
      some ([0x02#32, 9#32, 3#32, 258#32], Memory.ofBytes 0 text65256) := by decide

/-- V-L2-LE-18. -/
theorem test_lzEncode_exceeds_dictionary :
    words (exec (.lzEncode false) (loaded { small with outCap := 9, dictCap := 257 } aaaa)) =
      some (0x56#32, 0x04#32) := by decide

/-- V-L2-LD-28. -/
theorem test_lzDecode_self_reference :
    results (exec (.lzDecode false) (loaded small text65256)) =
      some ([0x02#32, 4#32, 3#32, 258#32], [(0, 0x41#8), (1, 0x41#8), (2, 0x41#8), (3, 0x41#8)]) := by decide

/-- V-L2-LD-7: `65,257`. -/
theorem test_lzDecode_rejects_undefined_code :
    words (exec (.lzDecode false) (loaded small [0x36#8, 0x35#8, 0x2C#8, 0x32#8, 0x35#8, 0x37#8])) =
      some (0x26#32, 0x06#32) := by decide

/-- V-L2-SC-2. -/
theorem test_unsupportedAlg :
    words (exec (.unsupportedAlg false 3#2 true) (loaded small [])) = some (0x36#32, 0x0E#32) := by decide

/-- V-L2-SC-3: UnsupportedAlgorithm comes before InvalidInputType. -/
theorem test_unsupportedAlg_before_length :
    words (exec (.unsupportedAlg false 3#2 false) { loaded small [] with inLen := 17#32 }) =
      some (0x36#32, 0x0C#32) := by decide

/-! ## The step and the host port -/

/-- The first step after reset runs the command word placed for it (V-L2-SC-1). -/
theorem test_step_runs_first_command : words (step (State.reset.withFetchWord 32 0x9)) = some (0x36#32, 0x08#32) := by
  decide

/-- V-L2-SC-8: START = 0, DONE kept, IRQ = 1. -/
theorem test_step_without_start :
    words (step (({ loaded small [] with status := Status.atFinishOk }).withFetchWord 32 0x16)) =
      some (0x02#32, 0x16#32) := by decide

/-- V-L2-RA-5, RA-6, RA-7, RA-9, RA-10, RA-11. -/
theorem test_access_faults :
    ([.read 4 0x04000002, .read 1 0x04000004, .read 4 0x040000FC, .write 0x05000000 [0#8, 0#8, 0#8, 0#8],
        .write 0x06000000 [0#8], .read 1 0x05000010] : List Access).all
      (fun a => decide ((State.access a (loaded small aaab)).response = .accessFault)) = true := by decide

/-- V-L2-RA-12: the byte lanes of NEXT_CODE = 259. -/
theorem test_nextCode_lanes :
    (({ loaded small [] with nextCode := 259#32 }).access (.read 4 0x04000014)).response =
      .data [0x03#8, 0x01#8, 0x00#8, 0x00#8] := by decide

/-- V-L2-RA-13 and RA-14. -/
theorem test_status_write :
    (({ loaded small [] with status := Status.atFinishError .unsupportedAlgorithm }).access
        (.write 0x04000004 [0xFF#8, 0xFF#8, 0xFF#8, 0xFF#8])).status.toWord = 0x34#32 ∧
      (({ loaded small [] with status := Status.atFinishError .unsupportedAlgorithm }).access
        (.write 0x04000004 [0x01#8, 0#8, 0#8, 0#8])).status.toWord = 0x36#32 := by decide

/-- V-L2-RA-18: a write of IN_LEN while BUSY = 1 is ignored, and so is a byte write to IN_MEM. -/
theorem test_busy_writes_ignored :
    (busy.access (.write 0x04000008 [7#8, 0#8, 0#8, 0#8])).inLen = 4#32 ∧
      (busy.access (.write 0x05000000 [7#8])).inMem = busy.inMem := by decide

/-- P1 as engine steps: after START, one start turn, four bytes and the end of the input. -/
theorem test_stepwise_rleEncode :
    (State.engineTurns 5 busy).status.toWord = 0x01#32 ∧ (State.engineTurns 6 busy).status.toWord = 0x02#32 ∧
      (State.engineTurns 6 busy).outMem = [(0, 0x41#8), (1, 0x03#8), (2, 0x42#8), (3, 0x01#8)] := by decide

/-- P5 run by the host program's driver: RLE_DECODE with OUT_CAP = 3 ends with STATUS = 0x56. -/
theorem test_host_program_P5 :
    (System.run (List.replicate 6 true ++ List.replicate 4 false ++ List.replicate 3 true)
        { host := { program := loadLines [0x41#8, 0x03#8, 0x42#8, 0x01#8] ++ startLines .rleDecode false ++
                      waitLines 0
                    pc := 0, lastRead := [] }
          block := { State.reset with params := { small with outCap := 3 } } }).host.last .status = some 0x56#32 := by
  decide

/-! ## Witnesses

Concrete states and operands that meet the hypotheses of the statements, each clause's at a boundary of its range. -/

/-- A block whose last command finished OK with the bytes 41 42 in OUT_MEM. -/
def doneOk : State :=
  { loaded small [] with
    status := Status.atFinishOk, outLen := 2#32, tokenCount := 1#32, nextCode := 256#32
    outMem := Memory.ofBytes 0 [0x41#8, 0x42#8] }

/-- A block whose last command finished with CapacityExceeded. -/
def doneErr : State := { loaded small [] with status := Status.atFinishError .capacityExceeded }

/-- A block with its reset input asserted. -/
def resetHeld : State := { loaded small [] with inMem := [], inReset := true }

theorem witness_DecodeAgreesWithEncode :
    (Instr.unsupportedAlg true 2#2 false).wellFormed = true ∧ (Instr.unsupportedAlg true 3#2 false).wellFormed = true :=
  by decide

theorem witness_CommandSelectionTable :
    (0xFFFFFFE5#32).extractLsb' 0 5 = (0x00000005#32).extractLsb' 0 5 := by decide

theorem witness_StepRunsDecodedCommand :
    ({ busy with inputs := [.command 0xFFFFFFFF#32, .engine] } : State).inputs = .command 0xFFFFFFFF#32 :: [.engine] ∧
      decode (lanesOfWord 0xFFFFFFFF#32) = .ok (.unsupportedAlg true 3#2 true) ∧
      (Instr.unsupportedAlg true 3#2 true).wellFormed = true ∧
      (0xFFFFFFFE#32).getLsbD 0 = false ∧
      ({ resetHeld with inputs := [.command 0xFFFFFFFE#32] } : State).inputs = .command 0xFFFFFFFE#32 :: [] ∧
      ({ busy with inputs := [.bus (.read 4 0x04000004)] } : State).inputs = .bus (.read 4 0x04000004) :: [] ∧
      ({ busy with inputs := [.engine] } : State).inputs = .engine :: [] ∧ busy.inputs = [] ∧
      ({ busy with inputs := [.releaseReset] } : State).inputs =
        (if false then Input.assertReset else .releaseReset) :: [] := by decide

theorem witness_register_reads :
    (loaded small []).inReset = false ∧ busy.inReset = false ∧ doneErr.inReset = false := by decide

theorem witness_CtrlWriteAndAcceptance :
    busy.inReset = false ∧ busy.status.busy = true ∧ doneOk.inReset = false ∧ doneOk.status.busy = false ∧
      (0xFFFFFFFE#32).getLsbD 0 = false ∧ (0x00000001#32).getLsbD 0 = true := by decide

theorem witness_StatusWriteClearsDoneOnly :
    busy.inReset = false ∧ busy.status.busy = true ∧ doneErr.inReset = false ∧ doneErr.status.busy = false ∧
      (0xFFFFFFFD#32).getLsbD 1 = false ∧ (0x00000002#32).getLsbD 1 = true := by decide

/-- A command word from reset finishes with an error. -/
theorem witness_StatusInReachableStates :
    ∃ s, Host.Core.run Sys2Proof.core 1 { State.reset with inputs := [.command 0x9#32] } = .next s ∧
      s.status.err = true ∧ s.status.errcode = 3#4 := by
  refine ⟨_, rfl, ?_⟩
  simp [State.pop, State.answerWrite, State.reset, State.perform, startError,
    OpSel.command, State.finishError, Status.atFinishError, CodecError.code, Status.reset]

theorem start_on_bus (s : State) (hr : s.inReset = false) (hb : s.status.busy = false) :
    (s.access (.write s.params.base (lanesOfWord 0x1#32))).status.busy = true := by
  have ho : s.params.offset? s.params.base = some 0 := by simp [Params.offset?]
  have ht : targetAt s.params 0 4 = some (.reg .ctrl) := by
    simp [targetAt, regAt, RegName.all, RegName.offset]
  have hl : (lanesOfWord 0x1#32).length = 4 := rfl
  have hw : (wordOfLanes (lanesOfWord 0x1#32)).getLsbD 0 = true := by decide
  simp [State.access, hr, Access.addr, Access.width, ho, hl, ht, State.writeTarget, State.writeReg, State.writeCtrl, hb,
    hw, State.accept, Status.atAcceptance]

theorem run_one_bus (s : State) (a : Access) (rest : List Input) (h : s.inputs = .bus a :: rest) :
    Host.Core.run Sys2Proof.core 1 s = .next ((s.pop rest).access a) := by
  simp [Host.Core.run, Sys2Proof.core, step, h]

theorem run_start_on_bus (s : State) (hr : s.inReset = false) (hb : s.status.busy = false) :
    ∃ t, Host.Core.run Sys2Proof.core 1
        { s with inputs := [.bus (.write s.params.base (lanesOfWord 0x1#32))] } = .next t ∧ t.status.busy = true :=
  ⟨_, run_one_bus _ _ _ rfl, start_on_bus { s with inputs := [] } hr hb⟩

/-- A START on the bus from reset leaves the block busy. -/
theorem witness_StatusInReachableStates_busy :
    ∃ s, Host.Core.run Sys2Proof.core 1
        { State.reset with inputs := [.bus (.write State.reset.params.base (lanesOfWord 0x1#32))] } = .next s ∧
      s.status.busy = true :=
  run_start_on_bus State.reset rfl rfl

theorem witness_InLenHoldsAnyValue :
    doneErr.inReset = false ∧ doneErr.status.busy = false ∧ doneErr.params.inCap < (17#32).toNat := by decide

theorem witness_BusyWritesAreIgnored :
    busy.inReset = false ∧ busy.status.busy = true ∧ busy.params.legal ∧ 0x008 ∈ [0x000, 0x004, 0x008] ∧
      0 < busy.params.inCap ∧ 15 < busy.params.inCap := by decide

theorem witness_ReadOnlyRegisterWritesIgnored :
    doneErr.inReset = false ∧ busy.inReset = false ∧ 0x00C ∈ [0x00C, 0x010, 0x014, 0x018, 0x01C, 0x020] ∧
      0x020 ∈ [0x00C, 0x010, 0x014, 0x018, 0x01C, 0x020] := by decide

theorem witness_CapacityRegistersAreConstant : ∃ t, step resetHeld = .next t := ⟨_, rfl⟩

theorem witness_ResultRegisterReads :
    doneOk.inReset = false ∧ (0x014, 256#32) ∈ [(0x00C, doneOk.outLen), (0x010, doneOk.tokenCount), (0x014, doneOk.nextCode)] ∧
      doneErr.inReset = false ∧ doneErr.status.err = true ∧ busy.inReset = false ∧ busy.status.busy = true := by decide

theorem witness_LanesAreLittleEndian : (lanesOfWord 0x80000001#32)[3]? = some 0x80#8 := by decide

/-- The gap above the registers, the byte past IN_MEM, the last byte of the block, and the last byte of OUT_MEM. -/
theorem witness_IllegalAccessesFault :
    (loaded small []).params.legal ∧
      (Access.read 4 0x04000024).addr = small.base + 0x24 ∧ (Access.read 1 0x05000010).addr = small.base + 0x1000010 ∧
      ¬ (0x1000010 < 0x01000000 + small.inCap) ∧ (Access.read 1 0x07FFFFFF).addr = small.base + (2 ^ 26 - 1) ∧
      (Access.write 0x06000003 [1#8]).addr = small.base + 0x2000003 ∧ 0x2000003 < 0x02000000 + small.outCap := by decide

theorem witness_InMemWriteThenRead :
    doneErr.inReset = false ∧ doneErr.params.legal ∧ doneErr.status.busy = false ∧ 15 < doneErr.params.inCap ∧
      (loaded small aaab).inMem.read 0 = some 0x41#8 ∧ busy.inMem.read 3 = some 0x42#8 := by decide

/-- A write of byte 1 is no write of byte 0. -/
theorem witness_InMemKeepsItsBytes :
    ∃ t, step { loaded small aaab with inputs := [.bus (.write 0x05000001 [1#8])] } = .next t ∧
      t.inMem.read 0 = some 0x41#8 ∧ t.inMem.read 1 = some 1#8 ∧
      ∀ lanes, some (Input.bus (.write 0x05000001 [1#8])) ≠ some (.bus (.write (small.base + 0x01000000 + 0) lanes)) :=
  ⟨_, rfl, by decide, by decide, by simp [small]⟩

theorem witness_OutMemHoldsTheOutput :
    doneOk.inReset = false ∧ doneOk.params.legal ∧ 3 < doneOk.params.outCap ∧
      ([0x41#8, 0x42#8] : List Byte)[1]? = some 0x42#8 ∧ ([0x41#8, 0x42#8] : List Byte)[2]? = none := by decide

theorem witness_UnspecifiedBytesAreDraws :
    doneErr.inReset = false ∧ doneErr.params.legal ∧ 15 < doneErr.params.inCap ∧ doneErr.inMem.read 15 = none ∧
      3 < doneErr.params.outCap ∧ doneErr.status.err = true ∧ busy.inReset = false ∧ busy.params.legal ∧
      0 < busy.params.outCap ∧ busy.status.busy = true ∧ (loaded small []).status = Status.reset ∧
      (loaded small []).outByte 3 = none ∧ doneOk.status = Status.atFinishOk ∧ doneOk.outByte 2 = none ∧
      doneErr.outByte 0 = none ∧ busy.outByte 0 = none := by decide

theorem witness_ReadsHaveNoSideEffect :
    doneOk.readsUnspecified (.read 1 0x06000001) = false ∧ doneErr.readsUnspecified (.read 4 0x04000004) = false := by
  decide

theorem witness_HazardFreeAccessesAreSpecified :
    doneOk.hazardFree (.read 1 0x06000001) = true ∧ doneErr.hazardFree (.write 0x0500000F [1#8]) = true ∧
      busy.hazardFree (.read 4 0x04000004) = true := by decide

theorem witness_ResetAbandonsEverything :
    ({ busy with inputs := [.assertReset] } : State).inputs = (if true then Input.assertReset else .releaseReset) :: [] ∧
      resetHeld.inReset = true ∧ resetHeld.resetLegal ∧
      ({ resetHeld with inputs := [.command 1#32] } : State).inputs = .command 1#32 :: [] := by
  refine ⟨rfl, rfl, fun _ => ?_, rfl⟩
  decide

theorem witness_InterruptFollowsDoneAndEnable :
    doneOk.inReset = false ∧ doneOk.status.busy = false ∧ doneOk.status.done = true ∧
      (0x00000010#32).getLsbD 0 = false ∧ (0x00000010#32).getLsbD 4 = true ∧ (0x00000001#32).getLsbD 0 = true ∧
      (0x00000001#32).getLsbD 4 = false ∧ ∃ t, exec (.rleEncode true) doneOk = .next t :=
  ⟨by decide, by decide, by decide, by decide, by decide, by decide, by decide, _, rfl⟩

theorem witness_CommandsAreIgnoredWhileBusyOrInReset : busy.status.busy = true ∧ resetHeld.inReset = true := by decide

theorem witness_UnsupportedAlgFinishesWithItsError : doneErr.idleReady ∧ (2#2 : BitVec 2) = 2#2 ∧ (3#2 : BitVec 2) = 3#2 :=
  by decide

theorem witness_TooLongInputFinishesWithItsError :
    ({ doneOk with inLen := 17#32 } : State).idleReady ∧
      ({ doneOk with inLen := 17#32 } : State).params.inCap < ({ doneOk with inLen := 17#32 } : State).inLen.toNat := by
  decide

/-- An error of each command: 0x56, 0x16, 0x56, 0x26 and 0x36. -/
theorem witness_ErrorsOfEachCommand :
    (loaded { small with outCap := 3 } aaab).idleReady ∧
      words (exec (.rleEncode true) (loaded { small with outCap := 3 } aaab)) = some (0x56#32, 0x10#32) ∧
      words (exec (.rleDecode true) (loaded small [0x41#8])) = some (0x16#32, 0x12#32) ∧
      words (exec (.lzEncode true) (loaded small aaaa)) = some (0x56#32, 0x14#32) ∧
      words (exec (.lzDecode true) (loaded small [0x2C#8])) = some (0x26#32, 0x16#32) ∧
      words (exec (.unsupportedAlg true 2#2 true) (loaded small [])) = some (0x36#32, 0x1A#32) := by decide

theorem witness_CommandFrame :
    (loaded small aaab).idleReady ∧ (∃ t, exec (.rleEncode true) (loaded small aaab) = .next t ∧ t.status.err = false) ∧
      (∃ t, exec (.lzEncode true) (loaded small aaaa) = .next t ∧ t.status.err = true) ∧ ¬ busy.idleReady :=
  ⟨by decide, ⟨_, rfl, by decide⟩, ⟨_, rfl, by decide⟩, by decide⟩

/-- Two blocks and two words of one command that differ in IE, in BASE, in an earlier result and in an unused byte of IN_MEM. -/
theorem witness_OutcomeDependsOnInputAndCapacitiesOnly :
    (encode (.rleEncode true)).extractLsb' 1 3 = (encode (.rleEncode false)).extractLsb' 1 3 ∧
      (loaded small aaab).idleReady ∧
      ({ loaded { small with base := 0 } (aaab ++ [1#8]) with inLen := 4#32, nextCode := 300#32 } : State).idleReady ∧
      (loaded small aaab).input =
        ({ loaded { small with base := 0 } (aaab ++ [1#8]) with inLen := 4#32, nextCode := 300#32 } : State).input := by
  decide

/-- The invariant holds of a loaded idle block. -/
theorem witness_StepKeepsInv_idle : (loaded small aaab).Inv :=
  ⟨by decide, by decide, by decide, by decide, by decide, by decide, trivial, by decide⟩

/-- The invariant holds of a block with a command in flight, which then makes a step. -/
theorem witness_StepKeepsInv_busy : busy.Inv ∧ ∃ t, step busy = .next t ∧ t.status.busy = true :=
  ⟨⟨by decide, by decide, by decide, by decide, by decide, by decide, ⟨rfl, rfl⟩, by decide⟩, _, rfl, by decide⟩

theorem witness_EveryCommandFinishes :
    busy.Inv ∧ busy.inReset = false ∧ busy.status.busy = true ∧ busy.inputs = [] :=
  ⟨witness_StepKeepsInv_busy.1, by decide, by decide, by decide⟩

/-- A host that reads STATUS and writes CTRL while the engine runs. -/
def meddling : List Input :=
  [.engine, .bus (.read 4 0x04000004), .engine, .engine, .bus (.write 0x04000000 [9#8, 0#8, 0#8, 0#8]), .engine, .engine]

theorem witness_SteppedCommandEqualsMeaning :
    (Instr.rleEncode false).wellFormed = true ∧
      ({ loaded small aaab with
          inputs := .bus (.write 0x04000000 (lanesOfWord (encode (.rleEncode false)))) :: (meddling ++ [.engine]) } :
        State).idleReady ∧
      (∀ e ∈ meddling, e = .engine ∨ ∃ a, e = .bus a) ∧
      (State.engineTurns (meddling.countP (· == .engine))
        ((loaded small aaab).access (.write 0x04000000 (lanesOfWord (encode (.rleEncode false)))))).status.busy = true ∧
      (State.engineTurns (meddling.countP (· == .engine) + 1)
        ((loaded small aaab).access (.write 0x04000000 (lanesOfWord (encode (.rleEncode false)))))).status.busy = false :=
  ⟨by decide, by decide, by simp [meddling], by decide, by decide⟩

/-- The text `65` fits, and does not fit, an output capacity; and errors that a capacity replaces
and leaves (as V-L2-RD-14 and RD-15). -/
theorem witness_CapacitiesOnlyAddCapacityExceeded :
    (∀ d, ({ outCap := some 2, dictCap := some 256 } : Limits).dictCap = some d → 256 ≤ d) ∧
      lzEncodeRun Limits.unbounded [0x41#8] = .ok { out := [0x36#8, 0x35#8], tok := 1, nextCode := 256 } ∧
      lzEncodeRun { outCap := some 1, dictCap := some 256 } [0x41#8] = .fail .capacityExceeded ∧
      rleDecodeRun Limits.unbounded [0x41#8, 0x04#8, 0x42#8, 0x00#8] = .fail .malformedStream ∧
      rleDecodeRun { outCap := some 3, dictCap := none } [0x41#8, 0x04#8, 0x42#8, 0x00#8] = .fail .capacityExceeded ∧
      rleDecodeRun { outCap := some 3, dictCap := none } [0x41#8, 0x02#8, 0x42#8, 0x00#8] = .fail .malformedStream :=
  ⟨by simp, by decide, by decide, by decide, by decide, by decide⟩

theorem witness_RunsAreTheMaximalRuns : runs aaab = [(0x41#8, 3), (0x42#8, 1)] := by decide

theorem witness_RleEncodeCompletes :
    (loaded small aaab).idleReady ∧ (loaded small aaab).inputFits ∧
      2 * (rleTokens (loaded small aaab).input).length ≤ (loaded small aaab).params.outCap := by decide

theorem witness_RleEncodeFailsOnlyOnCapacity :
    (loaded { small with outCap := 3 } aaab).idleReady ∧ (loaded { small with outCap := 3 } aaab).inputFits ∧
      3 < 2 * (rleTokens (loaded { small with outCap := 3 } aaab).input).length ∧
      2 * (rleTokens (loaded small aaab).input).length ≤ small.outCap ∧
      2 * (loaded { small with outCap := 32 } aaab).params.inCap ≤ (loaded { small with outCap := 32 } aaab).params.outCap :=
  by decide

/-- A run of 256 bytes has two tokens of one value (V-L2-RE-7). -/
theorem witness_RleFraming :
    splitRun (0x41#8, 256) = [(0x41#8, 255), (0x41#8, 1)] ∧ (rleEnc aaab)[1]? = some 3#8 ∧
      (0x42#8, 1) ∈ runs aaab := by decide

theorem witness_RleDecodeCompletes :
    (loaded small [0x41#8, 0x03#8, 0x42#8, 0x01#8]).idleReady ∧
      (loaded small [0x41#8, 0x03#8, 0x42#8, 0x01#8]).inputFits ∧
      rleDec (some 4) (loaded small [0x41#8, 0x03#8, 0x42#8, 0x01#8]).input = .ok aaab :=
  ⟨by decide, by decide, rfl⟩

/-- V-L2-RD-7, RD-14 and RD-15. -/
theorem witness_RleDecodeFailsAsRleDec :
    (loaded small [0x41#8, 0x05#8, 0x42#8]).idleReady ∧ (loaded small [0x41#8, 0x05#8, 0x42#8]).inputFits ∧
      rleDec (some 4) (loaded small [0x41#8, 0x05#8, 0x42#8]).input = .error .malformedStream ∧
      rleDec (some 3) [0x41#8, 0xFF#8, 0x42#8, 0x00#8] = .error .capacityExceeded ∧
      rleDec (some 3) [0x41#8, 0x02#8, 0x42#8, 0x00#8] = .error .malformedStream :=
  ⟨by decide, by decide, rfl, rfl, rfl⟩

/-- One good pair that just fills OUT_CAP, then a zero run and a run too many. -/
theorem witness_RleDecodeErrorOrder :
    bytePairs [0x41#8, 0x03#8, 0x42#8, 0x00#8] = [(0x41#8, 0x03#8)] ++ (0x42#8, 0x00#8) :: [] ∧
      bytePairs [0x41#8, 0x03#8, 0x42#8, 0x01#8] = [(0x41#8, 0x03#8)] ++ (0x42#8, 0x01#8) :: [] ∧
      (∀ p ∈ [((0x41#8 : Byte), (0x03#8 : Byte))], p.2 ≠ 0#8) ∧
      (([((0x41#8 : Byte), (0x03#8 : Byte))]).map (fun p => p.2.toNat)).sum ≤ 3 ∧
      3 < (([((0x41#8 : Byte), (0x03#8 : Byte))]).map (fun p => p.2.toNat)).sum + (0x01#8 : Byte).toNat :=
  ⟨rfl, rfl, by simp, by simp, by simp⟩

theorem witness_RleRoundTrip :
    (loaded small aaab).idleReady ∧ (loaded small aaab).inputFits ∧
      (∃ t, exec (.rleEncode false) (loaded small aaab) = .next t ∧ t.status.err = false ∧
        (loaded small [0x41#8, 0x03#8, 0x42#8, 0x01#8]).input = t.outMem.map Prod.snd) ∧
      (loaded small [0x41#8, 0x03#8, 0x42#8, 0x01#8]).idleReady ∧
      (loaded small [0x41#8, 0x03#8, 0x42#8, 0x01#8]).inputFits ∧ (loaded small aaab).input.length ≤ small.outCap :=
  ⟨by decide, by decide, ⟨_, rfl, by decide, by decide⟩, by decide, by decide, by decide⟩

theorem witness_DecimalRendering :
    (∀ b ∈ [0x30#8, 0x36#8, 0x35#8], isDigit b = true) ∧ val [0x30#8, 0x36#8, 0x35#8] = 65 ∧
      val [0x36#8, 0x35#8] = 65 ∧ dec 65 = [0x36#8, 0x35#8] := by decide

theorem witness_ParseAndRenderAgree : parseText text65256 = some [65, 256, 65] := by decide

theorem witness_WireTextLength : [65, 256, 65] ≠ [] ∧ 9 ≤ 9 ∧ 4294967295 < 2 ^ 32 := by decide

/-- V-L2-LE-17 and LE-21, V-L2-LE-1, and V-L2-LE-2. -/
theorem witness_LzEncodeCompletes :
    (loaded { small with outCap := 9 } aaaa).idleReady ∧ (loaded { small with outCap := 9 } aaaa).inputFits ∧
      (render (lzCodes (loaded { small with outCap := 9 } aaaa).input)).length ≤ 9 ∧
      lzNextCode (lzCodes (loaded { small with outCap := 9 } aaaa).input).length ≤ 258 ∧
      (loaded small []).inLen.toNat = 0 ∧ (render (lzCodes (loaded small []).input)).length ≤ 4 ∧
      (loaded small [0x41#8]).inLen.toNat = 1 ∧ (render (lzCodes (loaded small [0x41#8]).input)).length ≤ 4 := by decide

/-- V-L2-LE-22, V-L2-LE-18, both capacities just enough, and an OUT_CAP of 9·IN_CAP. -/
theorem witness_LzEncodeFailsOnlyOnCapacity :
    (loaded { small with outCap := 8 } aaaa).idleReady ∧ (loaded { small with outCap := 8 } aaaa).inputFits ∧
      8 < (render (lzCodes (loaded { small with outCap := 8 } aaaa).input)).length ∧
      2 ≤ (lzCodes (loaded { small with dictCap := 257 } aaaa).input).length ∧
      257 ≤ 256 + (lzCodes (loaded { small with dictCap := 257 } aaaa).input).length - 2 ∧
      ¬ (9 < (render (lzCodes (loaded { small with outCap := 9 } aaaa).input)).length ∨
        (2 ≤ (lzCodes (loaded { small with outCap := 9 } aaaa).input).length ∧
          258 ≤ 256 + (lzCodes (loaded { small with outCap := 9 } aaaa).input).length - 2)) ∧
      (loaded { small with outCap := 144 } aaaa).inLen.toNat ≤ 2 ^ 24 ∧ 9 * small.inCap ≤ 144 := by decide

theorem witness_LzCodeSequence :
    lzCodes aaaa = [65, 256, 65] ∧ (lzCodes aaaa)[1]? = some (256 + 0) ∧
      lzEntries [65, 256, 65] =
        some [{ first := 0x41#8, rest := [] }, { first := 0x41#8, rest := [0x41#8] }, { first := 0x41#8, rest := [] }] :=
  by decide

theorem witness_LzDecodeCompletes :
    (loaded small text65256).idleReady ∧ (loaded small text65256).inputFits ∧
      (loaded small text65256).input = render [65, 256, 65] ∧
      lzEntries [65, 256, 65] =
        some [{ first := 0x41#8, rest := [] }, { first := 0x41#8, rest := [0x41#8] }, { first := 0x41#8, rest := [] }] ∧
      lzNextCode [65, 256, 65].length ≤ (loaded small text65256).params.dictCap ∧
      (entriesBytes [{ first := 0x41#8, rest := [] }, { first := 0x41#8, rest := [0x41#8] },
        { first := 0x41#8, rest := [] }]).length ≤ (loaded small text65256).params.outCap := by decide

/-- V-L2-LD-32, LD-29 and LD-33, where `65,66` passes an OUT_CAP of 1 before the field `x`. -/
theorem witness_LzDecodeExceedsCapacity :
    (loaded { small with outCap := 3 } text65256).idleReady ∧ (loaded { small with outCap := 3 } text65256).inputFits ∧
      256 ≤ (loaded { small with outCap := 3 } text65256).params.dictCap ∧
      (loaded { small with outCap := 3 } text65256).input = render [65, 256, 65] ∧
      (lzEntries [65, 256, 65]).map (fun es => (entriesBytes es).length) = some 4 ∧
      (loaded { small with dictCap := 257 } text65256).params.dictCap < lzNextCode [65, 256, 65].length ∧
      [0x36#8, 0x35#8, 0x2C#8, 0x36#8, 0x36#8, 0x2C#8, 0x78#8] = render [65, 66] ++ comma :: [0x78#8] ∧
      (lzEntries [65, 66]).map (fun es => (entriesBytes es).length) = some 2 := by decide

theorem digit_of_decDigits (fuel c : Nat) : ∀ b ∈ decDigits fuel c, isDigit b = true := by
  have hd : ∀ d : Fin 10, isDigit (digitByte d.val) = true := by decide
  induction fuel generalizing c with
  | zero => simp [decDigits]
  | succ fuel ih =>
    intro b hb
    simp only [decDigits] at hb
    split at hb
    · next h => simp only [List.mem_singleton] at hb; subst hb; exact hd ⟨c, h⟩
    · rw [List.mem_append, List.mem_singleton] at hb
      rcases hb with hb | rfl
      · exact ih _ _ hb
      · exact hd ⟨c % 10, Nat.mod_lt _ (by decide)⟩

/-- No rendering holds a minus sign (V-L2-LD-10). -/
theorem witness_LzDecodeRejectsOtherTexts :
    (loaded small [0x2D#8, 0x31#8]).idleReady ∧ (loaded small [0x2D#8, 0x31#8]).inputFits ∧
      (loaded small [0x2D#8, 0x31#8]).input = [0x2D#8, 0x31#8] ∧
      ∀ cs es, [0x2D#8, 0x31#8] = render cs → lzEntries cs ≠ some es := by
  refine ⟨by decide, by decide, by decide, fun cs es h => ?_⟩
  have key : ∀ cs : List Nat, ∀ b ∈ render cs, isDigit b = true ∨ b = comma := by
    intro cs
    induction cs with
    | nil => simp [render]
    | cons c cs ih =>
      intro b hb
      cases cs with
      | nil => exact .inl (digit_of_decDigits _ _ b hb)
      | cons c' cs =>
        rw [render, List.mem_append, List.mem_cons] at hb
        rcases hb with hb | rfl | hb
        · exact .inl (digit_of_decDigits _ _ b hb)
        · exact .inr rfl
        · exact ih b hb
  have hm := key cs 0x2D#8 (by rw [← h]; simp)
  exact absurd hm (by decide)

/-- The field `257` after `65` under OUT_CAP = 1 and DICT_CAP = 256, which `65` just fits: the code has no origin
(V-L2-LD-7), and neither capacity is asked about it. -/
theorem witness_LzDecodeRejectsOtherTexts_code :
    (loaded { small with outCap := 1, dictCap := 256 } [0x36#8, 0x35#8, 0x2C#8, 0x32#8, 0x35#8, 0x37#8]).idleReady ∧
      (loaded { small with outCap := 1, dictCap := 256 } [0x36#8, 0x35#8, 0x2C#8, 0x32#8, 0x35#8, 0x37#8]).inputFits ∧
      (loaded { small with outCap := 1, dictCap := 256 } [0x36#8, 0x35#8, 0x2C#8, 0x32#8, 0x35#8, 0x37#8]).input =
        [65].flatMap (fun c => dec c ++ [comma]) ++ [0x32#8, 0x35#8, 0x37#8] ++ [] ∧
      comma ∉ [0x32#8, 0x35#8, 0x37#8] ∧ lzEntries [65] = some [{ first := 0x41#8, rest := [] }] ∧
      lzEntries ([65] ++ [val [0x32#8, 0x35#8, 0x37#8]]) = none ∧
      (entriesBytes [{ first := 0x41#8, rest := [] }]).length ≤ 1 ∧ lzNextCode [65].length ≤ 256 := by decide

/-- An empty field 1 with a field after it (V-L2-LD-13), and as the last field (V-L2-LD-11). -/
theorem witness_LzDecodeRejectsOtherTexts_field :
    [0x36#8, 0x35#8, 0x2C#8, 0x2C#8, 0x36#8, 0x36#8] =
        [65].flatMap (fun c => dec c ++ [comma]) ++ [] ++ [0x2C#8, 0x36#8, 0x36#8] ∧
      (∀ b, [0x2C#8, 0x36#8, 0x36#8].head? = some b → b = comma) ∧
      [0x36#8, 0x35#8, 0x2C#8] = [65].flatMap (fun c => dec c ++ [comma]) ++ [] ++ [] ∧
      comma ∉ ([] : List Byte) ∧ matchesCode [] = false :=
  ⟨by decide, by simp [comma], by decide, by decide, by decide⟩

/-- `256` fails at field 0, whatever comes after (V-L2-LD-22). -/
theorem witness_LzDecodeStreamsOverFields :
    lzDecodeRun Limits.unbounded [0x32#8, 0x35#8, 0x36#8] = .fail .invalidCode := by decide

theorem witness_CodeResolution :
    256 < (Dict.seed.push { first := 0x41#8, rest := [0x42#8] }).nextCode ∧
      257 = (Dict.seed.push { first := 0x41#8, rest := [0x42#8] }).nextCode ∧
      (Dict.seed.push { first := 0x41#8, rest := [0x42#8] }).nextCode < 258 ∧ 255 < 256 ∧ 256 ≤ 256 := by decide

theorem witness_LzCapacitySymmetry :
    (loaded { small with outCap := 9 } aaaa).idleReady ∧ (loaded { small with outCap := 9 } aaaa).inputFits ∧
      256 ≤ small.dictCap ∧
      (∃ t, exec (.lzEncode true) (loaded { small with outCap := 9 } aaaa) = .next t ∧ t.status.err = false ∧
        (loaded small text65256).input = t.outMem.map Prod.snd) ∧
      (loaded small text65256).idleReady ∧ (loaded small text65256).inputFits ∧
      (loaded small text65256).params.dictCap = (loaded { small with outCap := 9 } aaaa).params.dictCap ∧
      (loaded { small with outCap := 9 } aaaa).input.length ≤ (loaded small text65256).params.outCap :=
  ⟨by decide, by decide, by decide, ⟨_, rfl, by decide, by decide⟩, by decide, by decide, by decide, by decide⟩

end Sys2Proof.Tests
end

section
/-! The decimal rendering `dec` and the value `val` of a digit sequence (00_scope.md R12): the recursion of each on the
last digit, and what follows from it. -/

namespace Sys2Proof.Machine

/-! ## Digits -/

theorem isDigit_iff (b : Byte) : isDigit b = true ↔ 0x30 ≤ b.toNat ∧ b.toNat ≤ 0x39 := by
  simp [isDigit, BitVec.le_def]

theorem digitByte_toNat {d : Nat} (hd : d < 10) : (digitByte d).toNat = 0x30 + d := by
  simp only [digitByte, BitVec.toNat_ofNat]
  omega

theorem isDigit_digitByte {d : Nat} (hd : d < 10) : isDigit (digitByte d) = true := by
  rw [isDigit_iff, digitByte_toNat hd]
  omega

theorem digitByte_of_isDigit {b : Byte} (hb : isDigit b = true) : digitByte (b.toNat - 0x30) = b := by
  obtain ⟨hlo, hhi⟩ := (isDigit_iff b).mp hb
  apply BitVec.eq_of_toNat_eq
  rw [digitByte_toNat (by omega)]
  omega

/-! ## The value of a digit sequence -/

@[simp] theorem val_nil : val [] = 0 := rfl

@[simp] theorem val_concat (f : List Byte) (b : Byte) : val (f ++ [b]) = val f * 10 + (b.toNat - 0x30) := by
  simp [val]

/-- `val` is positional: the digit at `k` counts for the power of ten of its distance from the end. -/
theorem val_eq_sum (f : List Byte) :
    val f = ∑ k ∈ Finset.range f.length, ((f.getD k 0#8).toNat - 0x30) * 10 ^ (f.length - 1 - k) := by
  induction f using List.reverseRecOn with
  | nil => simp
  | append_singleton f b ih =>
    rw [val_concat, ih, List.length_append, List.length_singleton, Finset.sum_range_succ, Finset.sum_mul]
    congr 1
    · refine Finset.sum_congr rfl fun k hk => ?_
      have hk : k < f.length := Finset.mem_range.mp hk
      have hexp : f.length + 1 - 1 - k = f.length - 1 - k + 1 := by omega
      rw [List.getD_append _ _ _ _ hk, hexp, pow_succ, mul_assoc]
    · simp

/-! ## The recursion of `dec` -/

/-- Any two fuels above the number give its digits. -/
theorem decDigits_fuel {c fuel fuel' : Nat} (h : c < fuel) (h' : c < fuel') : decDigits fuel c = decDigits fuel' c := by
  induction fuel generalizing c fuel' with
  | zero => omega
  | succ fuel ih =>
    cases fuel' with
    | zero => omega
    | succ fuel' =>
      simp only [decDigits]
      split
      · rfl
      · rw [ih (fuel' := fuel') (by omega) (by omega)]

theorem dec_of_lt {c : Nat} (h : c < 10) : dec c = [digitByte c] := by
  simp [dec, decDigits, h]

theorem dec_of_ge {c : Nat} (h : 10 ≤ c) : dec c = dec (c / 10) ++ [digitByte (c % 10)] := by
  rw [dec, decDigits, if_neg (by omega), dec, decDigits_fuel (fuel' := c / 10 + 1) (by omega) (by omega)]

/-- A number and its rendering, by one digit and by a digit more. -/
theorem dec_induction {P : Nat → List Byte → Prop} (single : ∀ d, d < 10 → P d [digitByte d])
    (snoc : ∀ c, 10 ≤ c → P (c / 10) (dec (c / 10)) → P c (dec (c / 10) ++ [digitByte (c % 10)])) (c : Nat) :
    P c (dec c) := by
  induction c using Nat.strongRecOn with
  | ind c ih =>
    rcases Nat.lt_or_ge c 10 with h | h
    · rw [dec_of_lt h]
      exact single c h
    · rw [dec_of_ge h]
      exact snoc c h (ih (c / 10) (by omega))

/-! ## What `dec` renders -/

theorem isDigit_of_mem_dec (c : Nat) : ∀ b ∈ dec c, isDigit b = true := by
  induction c using dec_induction with
  | single d hd =>
    rintro b hb
    rw [List.mem_singleton.mp hb]
    exact isDigit_digitByte hd
  | snoc c _ ih =>
    intro b hb
    rcases List.mem_append.mp hb with hb | hb
    · exact ih b hb
    · rw [List.mem_singleton.mp hb]
      exact isDigit_digitByte (Nat.mod_lt c (by omega))

theorem dec_ne_nil (c : Nat) : dec c ≠ [] := by
  induction c using dec_induction with
  | single d _ => simp
  | snoc c _ _ => simp

@[simp] theorem val_dec (c : Nat) : val (dec c) = c := by
  induction c using dec_induction with
  | single d hd =>
    have hval := val_concat [] (digitByte d)
    rw [List.nil_append, val_nil, digitByte_toNat hd] at hval
    omega
  | snoc c _ ih =>
    rw [val_concat, ih, digitByte_toNat (Nat.mod_lt c (by omega))]
    omega

theorem dec_zero : dec 0 = [0x30#8] := rfl

/-- Only 0 renders with a leading 0x30. -/
theorem dec_head?_ne_zero {c : Nat} : 1 ≤ c → (dec c).head? ≠ some 0x30#8 := by
  induction c using dec_induction with
  | single d hd =>
    intro hpos hhead
    have hbyte : digitByte d = 0x30#8 := by simpa using hhead
    have hnat := digitByte_toNat hd
    rw [hbyte] at hnat
    simp at hnat
    omega
  | snoc c hc ih =>
    intro _
    rw [List.head?_append_of_ne_nil _ (dec_ne_nil _)]
    exact ih (by omega)

/-- A digit sequence is at least as long as the rendering of its value, and as long only when it is that rendering. -/
theorem dec_val_shortest (f : List Byte) (hne : f ≠ []) (hdig : ∀ b ∈ f, isDigit b = true) :
    (dec (val f)).length ≤ f.length ∧ (f.length = (dec (val f)).length → f = dec (val f)) := by
  induction f using List.reverseRecOn with
  | nil => exact absurd rfl hne
  | append_singleton f b ih =>
    have hb : isDigit b = true := hdig b (by simp)
    obtain ⟨hlo, hhi⟩ := (isDigit_iff b).mp hb
    have hdiv : val (f ++ [b]) / 10 = val f := by rw [val_concat]; omega
    have hmod : val (f ++ [b]) % 10 = b.toNat - 0x30 := by rw [val_concat]; omega
    rcases Nat.lt_or_ge (val (f ++ [b])) 10 with hsmall | hlarge
    · rw [dec_of_lt hsmall]
      refine ⟨by simp, fun hlen => ?_⟩
      have hnil : f = [] := by simpa using hlen
      subst hnil
      rw [← Nat.mod_eq_of_lt hsmall, hmod, digitByte_of_isDigit hb, List.nil_append]
    · have hf : f ≠ [] := by
        rintro rfl
        rw [val_nil] at hdiv
        omega
      obtain ⟨hle, heq⟩ := ih hf fun a ha => hdig a (by simp [ha])
      rw [dec_of_ge hlarge, hdiv, hmod, digitByte_of_isDigit hb]
      refine ⟨by simpa using hle, fun hlen => ?_⟩
      rw [← heq (by simpa using hlen)]

/-- Settles O48: `val` is positional, and `dec` is the one shortest digit sequence of its value. -/
theorem decimalRendering : Obligations.DecimalRendering := by
  refine ⟨fun f _ => val_eq_sum f, dec_zero, fun c => ⟨isDigit_of_mem_dec c, val_dec c, dec_head?_ne_zero, ?_⟩⟩
  rintro f hne hdig rfl
  exact dec_val_shortest f hne hdig

end Sys2Proof.Machine
end

section
/-! What a capacity does to an engine (00_scope.md R7): each step under finite capacities is the step under none, cut to
CapacityExceeded where it passes a capacity, and what an engine has used of its capacities never shrinks. A whole run
then keeps its outcome or ends with CapacityExceeded. -/

namespace Sys2Proof.Machine

/-! ## Capacities and what is used of them -/

/-- What an engine state or a result has used of the capacities: bytes of OUT_MEM, and `next_code`. -/
abbrev Usage := Nat × Nat

/-- `n` output bytes are within OUT_CAP (40_control.md R125). -/
abbrev Limits.HoldsOut (lim : Limits) (n : Nat) : Prop := ∀ cap, lim.outCap = some cap → n ≤ cap

/-- A `next_code` is within DICT_CAP (42_lz.md R175, R191). -/
abbrev Limits.HoldsDict (lim : Limits) (code : Nat) : Prop := ∀ d, lim.dictCap = some d → code ≤ d

/-- A usage is within both capacities. -/
abbrev Limits.Holds (lim : Limits) (u : Usage) : Prop := lim.HoldsOut u.1 ∧ lim.HoldsDict u.2

/-- The output and `next_code` of a result. -/
abbrev Result.usage (r : Result) : Usage := (r.out.length, r.nextCode)

theorem Limits.HoldsOut.mono {lim : Limits} {m n : Nat} (hmn : m ≤ n) (h : lim.HoldsOut n) : lim.HoldsOut m :=
  fun cap hcap => hmn.trans (h cap hcap)

theorem Limits.HoldsDict.mono {lim : Limits} {m n : Nat} (hmn : m ≤ n) (h : lim.HoldsDict n) : lim.HoldsDict m :=
  fun d hd => hmn.trans (h d hd)

theorem Limits.Holds.mono {lim : Limits} {u v : Usage} (huv : u ≤ v) (h : lim.Holds v) : lim.Holds u :=
  ⟨h.1.mono huv.1, h.2.mono huv.2⟩

theorem Limits.holdsOut_zero (lim : Limits) : lim.HoldsOut 0 := fun cap _ => cap.zero_le

theorem Limits.holdsDict_zero (lim : Limits) : lim.HoldsDict 0 := fun d _ => d.zero_le

theorem Limits.holds_unbounded (u : Usage) : Limits.unbounded.Holds u := ⟨nofun, nofun⟩

theorem unbounded_dictCap_ne (c : Nat) : Limits.unbounded.dictCap ≠ some c := nofun

@[simp] theorem Dict.nextCode_push (d : Dict) (p : Phrase) : (d.push p).nextCode = d.nextCode + 1 := by
  simp [Dict.nextCode, Dict.push, Nat.add_assoc]

/-- A dictionary within DICT_CAP is full exactly when one more phrase would pass DICT_CAP. -/
theorem dictFull_iff {lim : Limits} {d : Dict} (h : lim.HoldsDict d.nextCode) (p : Phrase) :
    lim.dictCap = some d.nextCode ↔ ¬ lim.HoldsDict (d.push p).nextCode := by
  rw [Dict.nextCode_push]
  cases hc : lim.dictCap with
  | none => simp [hc]
  | some cap =>
    have hle : d.nextCode ≤ cap := h cap hc
    simp only [Limits.HoldsDict, hc, Option.some.injEq, forall_eq', Nat.not_le]
    omega

theorem holdsDict_push_of_not_full {lim : Limits} {d : Dict} (h : lim.HoldsDict d.nextCode) (p : Phrase)
    (hfull : lim.dictCap ≠ some d.nextCode) : lim.HoldsDict (d.push p).nextCode :=
  not_not.mp (mt (dictFull_iff h p).mpr hfull)

/-! ## The emitting operations under capacities -/

/-- `Emit` of a sequence succeeds where its bytes fit, and fails with CapacityExceeded where they do not. -/
theorem emitAll_cases {lim : Limits} (vs : List Byte) {io : Io} (h : lim.HoldsOut io.out.length) :
    (lim.HoldsOut (io.out ++ vs).length ∧ emitAll lim vs io = .ok { io with out := io.out ++ vs }) ∨
      (¬ lim.HoldsOut (io.out ++ vs).length ∧ emitAll lim vs io = .error .capacityExceeded) := by
  cases hc : lim.outCap with
  | none => exact .inl ⟨fun cap hcap => by simp [hc] at hcap, emitAll_unbounded hc vs io⟩
  | some cap =>
    rw [emitAll_bounded hc vs io (h cap hc), List.length_append]
    simp only [Limits.HoldsOut, hc, Option.some.injEq, forall_eq']
    split_ifs with hfit
    · exact .inl ⟨hfit, rfl⟩
    · exact .inr ⟨hfit, rfl⟩

/-- The common engine state after one token, whose bytes are `vs`. -/
def Io.token (io : Io) (vs : List Byte) : Io := { io with out := io.out ++ vs, tok := io.tok + 1 }

@[simp] theorem Io.token_out (io : Io) (vs : List Byte) : (io.token vs).out = io.out ++ vs := rfl

/-- Emit the bytes of one token and count it. The flush of a run (41_rle.md R141), the expansion of a pair (R151) and
`EmitCode` (42_lz.md R173) do this for different bytes. -/
def emitToken (lim : Limits) (vs : List Byte) (io : Io) : Except CodecError Io :=
  (emitAll lim vs io).map fun io' => { io' with tok := io'.tok + 1 }

theorem emitToken_cases {lim : Limits} (vs : List Byte) {io : Io} (h : lim.HoldsOut io.out.length) :
    (lim.HoldsOut (io.token vs).out.length ∧ emitToken lim vs io = .ok (io.token vs)) ∨
      (¬ lim.HoldsOut (io.token vs).out.length ∧ emitToken lim vs io = .error .capacityExceeded) := by
  rcases emitAll_cases vs h with ⟨hfit, hemit⟩ | ⟨hover, hemit⟩
  · exact .inl ⟨hfit, by rw [emitToken, hemit]; rfl⟩
  · exact .inr ⟨hover, by rw [emitToken, hemit]; rfl⟩

theorem Io.length_le_token (io : Io) (vs : List Byte) : io.out.length ≤ (io.token vs).out.length := by simp

theorem emitToken_unbounded (vs : List Byte) (io : Io) : emitToken Limits.unbounded vs io = .ok (io.token vs) := by
  rw [emitToken, emitAll_unbounded rfl]
  rfl

theorem emitRun_eq_emitToken (lim : Limits) (r : Run) (io : Io) :
    emitRun lim r io = emitToken lim [r.val, BitVec.ofNat 8 r.len] io := by
  simp only [emitRun, emitToken, emitAll]
  cases emit lim r.val io with
  | error _ => rfl
  | ok io₁ =>
    dsimp only
    cases emit lim (BitVec.ofNat 8 r.len) io₁ <;> rfl

theorem expandPair_eq_emitToken (lim : Limits) {p : Pair} (hr : p.r ≠ 0#8) (io : Io) :
    expandPair lim p io = emitToken lim (List.replicate p.r.toNat p.v) io := by
  rw [expandPair, if_neg hr, emitToken]
  cases emitAll lim (List.replicate p.r.toNat p.v) io <;> rfl

/-- The bytes `EmitCode` writes for a code (42_lz.md R173). -/
def codeBytes (io : Io) (c : Nat) : List Byte := (if 0 < io.tok then [comma] else []) ++ dec c

theorem emitCode_eq_emitToken (lim : Limits) (c : Nat) (io : Io) :
    emitCode lim c io = emitToken lim (codeBytes io c) io := by
  rw [emitCode, emitToken, codeBytes]
  cases emitAll lim ((if 0 < io.tok then [comma] else []) ++ dec c) io <;> rfl

/-! ## Turns under capacities -/

/-- What has been used after a turn that does not fail. -/
def Turn.used? {α : Type} (usage : α → Usage) : Turn α → Option Usage
  | .more e => some (usage e)
  | .ok r => some r.usage
  | .fail _ => none

/-- A turn uses at least `u`, unless it fails. -/
def Turn.UsesAtLeast {α : Type} (usage : α → Usage) (u : Usage) (t : Turn α) : Prop :=
  ∀ v, t.used? usage = some v → u ≤ v

/-- A turn under no capacities, as `lim` cuts it: CapacityExceeded in place of what is not within the capacities. -/
def Turn.cut {α : Type} (lim : Limits) (usage : α → Usage) : Turn α → Turn α
  | .more e => if lim.Holds (usage e) then .more e else .fail .capacityExceeded
  | .ok r => if lim.Holds r.usage then .ok r else .fail .capacityExceeded
  | .fail err => .fail err

/-- `bounded` is what capacities make of the outcome `free`: the statement of R7 about one run. -/
def CapacityOnly {α : Type} (lim : Limits) (free bounded : Turn α) : Prop :=
  (∀ r : Result, free = .ok r → bounded = if lim.Holds r.usage then .ok r else .fail .capacityExceeded) ∧
    ∀ err : CodecError, free = .fail err → bounded = .fail err ∨ bounded = .fail .capacityExceeded

/-- From an engine state of usage `u`, the turn `free` under no capacities uses at least `u`, and `bounded` is that turn
as `lim` cuts it. -/
def CutsTurn {α : Type} (lim : Limits) (usage : α → Usage) (u : Usage) (free bounded : Turn α) : Prop :=
  free.UsesAtLeast usage u ∧ bounded = free.cut lim usage

/-- What is to show of an engine: each step within the capacities is cut by them. -/
def CutsStep {α : Type} (usage : α → Usage) (step : Limits → α → Turn α) : Prop :=
  ∀ lim e, lim.Holds (usage e) → CutsTurn lim usage (usage e) (step Limits.unbounded e) (step lim e)

section
variable {α : Type} {lim : Limits} {usage : α → Usage} {u : Usage}

theorem Turn.usesAtLeast_of_used {t : Turn α} {v : Usage} (ht : t.used? usage = some v) (hu : u ≤ v) :
    t.UsesAtLeast usage u := by
  intro w hw
  rw [ht] at hw
  exact hu.trans_eq (Option.some.inj hw)

theorem Turn.cut_of_used {t : Turn α} {v : Usage} (ht : t.used? usage = some v) :
    t.cut lim usage = if lim.Holds v then t else .fail .capacityExceeded := by
  cases t with
  | more e =>
    cases ht
    rfl
  | ok r =>
    cases ht
    rfl
  | fail err => cases ht

theorem CutsTurn.within {t : Turn α} {v : Usage} (ht : t.used? usage = some v) (hu : u ≤ v) (h : lim.Holds v) :
    CutsTurn lim usage u t t :=
  ⟨Turn.usesAtLeast_of_used ht hu, by rw [Turn.cut_of_used ht, if_pos h]⟩

theorem CutsTurn.over {t : Turn α} {v : Usage} (ht : t.used? usage = some v) (hu : u ≤ v) (h : ¬ lim.Holds v) :
    CutsTurn lim usage u t (.fail .capacityExceeded) :=
  ⟨Turn.usesAtLeast_of_used ht hu, by rw [Turn.cut_of_used ht, if_neg h]⟩

/-- A turn whose only use of capacity is one token: it stays as it is where the token fits, and is cut where not. -/
theorem CutsTurn.token {free bounded : Turn α} {io : Io} (vs : List Byte) {code : Nat}
    (h : lim.Holds (io.out.length, code)) (hused : free.used? usage = some ((io.token vs).out.length, code))
    (hok : emitToken lim vs io = .ok (io.token vs) → bounded = free)
    (herror : emitToken lim vs io = .error .capacityExceeded → bounded = .fail .capacityExceeded) :
    CutsTurn lim usage (io.out.length, code) free bounded := by
  have hgrows : (io.out.length, code) ≤ ((io.token vs).out.length, code) := ⟨Io.length_le_token io vs, le_rfl⟩
  rcases emitToken_cases vs h.1 with ⟨hfit, hemit⟩ | ⟨hover, hemit⟩
  · rw [hok hemit]
    exact .within hused hgrows ⟨hfit, h.2⟩
  · rw [herror hemit]
    exact .over hused hgrows fun hold => hover hold.1

theorem CutsTurn.fail (err : CodecError) : CutsTurn lim usage u (.fail err) (.fail err) := ⟨nofun, rfl⟩

end

/-! ## Runs under capacities -/

section
variable {α : Type} {usage : α → Usage} {step : Limits → α → Turn α} {lim : Limits}

theorem CutsStep.grows (h : CutsStep usage step) (e : α) :
    (step Limits.unbounded e).UsesAtLeast usage (usage e) :=
  (h Limits.unbounded e (Limits.holds_unbounded _)).1

theorem CutsStep.drive_grows (h : CutsStep usage step) (fuel : Nat) (e : α) :
    (drive (step Limits.unbounded) fuel e).UsesAtLeast usage (usage e) := by
  refine drive_induct (P := fun e' => usage e ≤ usage e') (Q := Turn.UsesAtLeast usage (usage e))
    ?_ (fun _ he _ hv => he.trans_eq (Option.some.inj hv)) ?_ (fun _ _ _ _ => nofun) fuel e le_rfl
  · intro e₁ e₂ he hstep
    exact he.trans (h.grows e₁ _ (by rw [hstep]; rfl))
  · intro e₁ r he hstep
    rintro _ ⟨⟩
    exact he.trans (h.grows e₁ _ (by rw [hstep]; rfl))

/-- A run that has passed a capacity ends past it. -/
theorem CutsStep.capacityOnly_of_not_holds (h : CutsStep usage step) (fuel : Nat) {e : α}
    (he : ¬ lim.Holds (usage e)) : CapacityOnly lim (drive (step Limits.unbounded) fuel e) (.fail .capacityExceeded) := by
  refine ⟨fun r hr => ?_, fun _ _ => .inr rfl⟩
  have hgrows : usage e ≤ r.usage := h.drive_grows fuel e _ (by rw [hr]; rfl)
  rw [if_neg fun hold => he (hold.mono hgrows)]

/-- Any number of steps under capacities keeps the outcome or ends with CapacityExceeded. -/
theorem CutsStep.drive (h : CutsStep usage step) (fuel : Nat) (e : α) (he : lim.Holds (usage e)) :
    CapacityOnly lim (drive (step Limits.unbounded) fuel e) (drive (step lim) fuel e) := by
  induction fuel generalizing e with
  | zero => exact ⟨fun _ hr => (nomatch hr), fun _ herr => nomatch herr⟩
  | succ fuel ih =>
    have hcut := (h lim e he).2
    cases hfree : step Limits.unbounded e with
    | more e' =>
      rw [hfree, Turn.cut] at hcut
      rw [drive_more fuel hfree]
      split_ifs at hcut with hold
      · rw [drive_more fuel hcut]
        exact ih e' hold
      · rw [drive_fail fuel hcut]
        exact h.capacityOnly_of_not_holds fuel hold
    | ok r =>
      rw [hfree, Turn.cut] at hcut
      rw [drive_ok fuel hfree]
      refine ⟨?_, fun _ herr => nomatch herr⟩
      rintro _ ⟨⟩
      split_ifs at hcut ⊢
      · exact drive_ok fuel hcut
      · exact drive_fail fuel hcut
    | fail err =>
      rw [hfree, Turn.cut] at hcut
      rw [drive_fail fuel hfree, drive_fail fuel hcut]
      exact ⟨fun _ hr => (nomatch hr), fun _ herr => .inl herr⟩

theorem Turn.map_eq_ok {β : Type} {f : α → β} {t : Turn α} {r : Result} : t.map f = .ok r ↔ t = .ok r := by
  cases t <;> simp [Turn.map]

theorem Turn.map_eq_fail {β : Type} {f : α → β} {t : Turn α} {err : CodecError} :
    t.map f = .fail err ↔ t = .fail err := by
  cases t <;> simp [Turn.map]

theorem CapacityOnly.map {β : Type} (f : α → β) {free bounded : Turn α} (h : CapacityOnly lim free bounded) :
    CapacityOnly lim (free.map f) (bounded.map f) := by
  obtain ⟨hok, hfail⟩ := h
  refine ⟨fun r hr => ?_, fun err herr => ?_⟩
  · rw [hok r (Turn.map_eq_ok.mp hr)]
    split_ifs <;> rfl
  · rw [Turn.map_eq_fail, Turn.map_eq_fail]
    exact hfail err (Turn.map_eq_fail.mp herr)

/-- A command's whole run, whose first turn is within the capacities. -/
theorem CutsStep.run (h : CutsStep usage step) (fuel : Nat) {first : Turn α} (hfirst : first.cut lim usage = first) :
    CapacityOnly lim (first.drive (step Limits.unbounded) fuel) (first.drive (step lim) fuel) := by
  cases first with
  | more e =>
    rw [Turn.cut] at hfirst
    split_ifs at hfirst with hold
    exact h.drive fuel e hold
  | ok r =>
    refine ⟨?_, fun _ herr => (nomatch herr)⟩
    rintro _ ⟨⟩
    exact hfirst.symm
  | fail err => exact ⟨fun _ hr => (nomatch hr), fun _ herr => .inl herr⟩

end

/-! ## The four engines -/

/-- RLE keeps no dictionary, and its results have `next_code` 0 (41_rle.md R143, R153). -/
def RleEnc.usage (e : RleEnc) : Usage := (e.io.out.length, 0)

/-- As for RLE_ENCODE. -/
def RleDec.usage (e : RleDec) : Usage := (e.io.out.length, 0)

/-- The size of `Dict_E` is `next_code` (42_lz.md R171). -/
def LzEnc.usage (e : LzEnc) : Usage := (e.io.out.length, e.dict.nextCode)

/-- The size of `Dict_D` is `next_code` (42_lz.md R185). -/
def LzDec.usage (e : LzDec) : Usage := (e.io.out.length, e.dict.nextCode)

theorem rleEncodeStep_cuts : CutsStep RleEnc.usage rleEncodeStep := by
  rintro lim ⟨io, run⟩ ⟨hout, hdict⟩
  simp only [RleEnc.usage] at hout hdict
  simp only [rleEncodeStep, emitRun_eq_emitToken, emitToken_unbounded]
  cases io.x[io.ip]? with
  | some b =>
    cases run with
    | none => exact .within rfl le_rfl ⟨hout, hdict⟩
    | some r =>
      dsimp only
      split_ifs with hsame
      · exact .within rfl le_rfl ⟨hout, hdict⟩
      · exact .token (io := { io with ip := io.ip + 1 }) [r.val, BitVec.ofNat 8 r.len] ⟨hout, hdict⟩ rfl
          (fun hemit => by rw [hemit]) fun hemit => by rw [hemit]
  | none =>
    cases run with
    | none => exact .within rfl le_rfl ⟨hout, hdict⟩
    | some r =>
      dsimp only
      exact .token [r.val, BitVec.ofNat 8 r.len] ⟨hout, hdict⟩ rfl
        (fun hemit => by rw [hemit]) fun hemit => by rw [hemit]

theorem takePair_out {e e' : RleDec} (h : takePair e = some (.ok e')) : e'.io.out = e.io.out := by
  unfold takePair at h
  split at h
  · cases h
    rfl
  · cases h
  · cases h

theorem rleDecodeStep_cuts : CutsStep RleDec.usage rleDecodeStep := by
  rintro lim e ⟨hout, hdict⟩
  simp only [RleDec.usage] at hout hdict
  simp only [rleDecodeStep]
  cases htake : takePair e with
  | none => exact .within rfl le_rfl ⟨hout, hdict⟩
  | some taken =>
    cases taken with
    | error err => exact .fail err
    | ok e' =>
      simp only [RleDec.usage, ← takePair_out htake] at hout ⊢
      cases e'.pair with
      | none => exact .within rfl le_rfl ⟨hout, hdict⟩
      | some p =>
        dsimp only
        by_cases hzero : p.r = 0#8
        · simp only [expandPair, if_pos hzero]
          exact .fail _
        · simp only [expandPair_eq_emitToken _ hzero, emitToken_unbounded]
          exact .token (List.replicate p.r.toNat p.v) ⟨hout, hdict⟩ rfl
            (fun hemit => by rw [hemit]) fun hemit => by rw [hemit]

theorem lzEncodeStep_cuts : CutsStep LzEnc.usage lzEncodeStep := by
  rintro lim ⟨io, d, cur⟩ ⟨hout, hdict⟩
  simp only [LzEnc.usage] at hout hdict
  simp only [lzEncodeStep, emitCode_eq_emitToken, emitToken_unbounded]
  cases io.x[io.ip]? with
  | some b =>
    cases cur with
    | none => exact .within rfl le_rfl ⟨hout, hdict⟩
    | some p =>
      dsimp only
      by_cases hhas : d.has (p.snoc b) = true
      · simp only [if_pos hhas]
        exact .within rfl le_rfl ⟨hout, hdict⟩
      · simp only [if_neg hhas, if_neg (unbounded_dictCap_ne _)]
        let taken := { io with ip := io.ip + 1 }
        have hgrows : (io.out.length, d.nextCode) ≤
            ((taken.token (codeBytes taken (d.codeOf p))).out.length, (d.push (p.snoc b)).nextCode) :=
          ⟨Io.length_le_token taken _, by simp⟩
        rcases emitToken_cases (io := taken) (codeBytes taken (d.codeOf p)) hout with
          ⟨hfit, hemit⟩ | ⟨hover, hemit⟩
        · rw [hemit]
          dsimp only
          split_ifs with hfull
          · exact .over rfl hgrows fun hold => (dictFull_iff hdict _).mp hfull hold.2
          · exact .within rfl hgrows ⟨hfit, holdsDict_push_of_not_full hdict _ hfull⟩
        · rw [hemit]
          exact .over rfl hgrows fun hold => hover hold.1
  | none =>
    cases cur with
    | none => exact .within rfl le_rfl ⟨hout, hdict⟩
    | some p =>
      dsimp only
      exact .token (codeBytes io (d.codeOf p)) ⟨hout, hdict⟩ rfl
        (fun hemit => by rw [hemit]) fun hemit => by rw [hemit]

/-- The append after a code never shrinks the dictionary, and it is refused exactly where it would pass DICT_CAP. -/
theorem appendEntry_cases {lim : Limits} {d : Dict} (h : lim.HoldsDict d.nextCode) (prev : Option Phrase)
    (entry : Phrase) :
    ∃ d' : Dict, d.nextCode ≤ d'.nextCode ∧ appendEntry Limits.unbounded d prev entry = .ok d' ∧
      ((lim.HoldsDict d'.nextCode ∧ appendEntry lim d prev entry = .ok d') ∨
        (¬ lim.HoldsDict d'.nextCode ∧ appendEntry lim d prev entry = .error .capacityExceeded)) := by
  cases prev with
  | none => exact ⟨d, le_rfl, rfl, .inl ⟨h, rfl⟩⟩
  | some p =>
    have hfree : appendEntry Limits.unbounded d (some p) entry = .ok (d.push (p.snoc entry.first)) := by
      simp [appendEntry, unbounded_dictCap_ne]
    refine ⟨d.push (p.snoc entry.first), by simp, hfree, ?_⟩
    by_cases hfull : lim.dictCap = some d.nextCode
    · exact .inr ⟨(dictFull_iff h _).mp hfull, if_pos hfull⟩
    · exact .inl ⟨holdsDict_push_of_not_full h _ hfull, if_neg hfull⟩

theorem lzDecodeStep_cuts : CutsStep LzDec.usage lzDecodeStep := by
  rintro lim ⟨io, d, prev, fs⟩ ⟨hout, hdict⟩
  simp only [LzDec.usage] at hout hdict
  simp only [lzDecodeStep, emitAll_unbounded (lim := Limits.unbounded) rfl]
  cases parseField (fieldAt io.x fs) with
  | error err => exact .fail err
  | ok c =>
    dsimp only
    cases resolveCode d prev c with
    | none => exact .fail _
    | some entry =>
      obtain ⟨d', hle, hfree, happend⟩ := appendEntry_cases hdict prev entry
      have hgrows : (io.out.length, d.nextCode) ≤ ((io.out ++ entry.bytes).length, d'.nextCode) := ⟨by simp, hle⟩
      simp only [hfree]
      generalize fs + (fieldAt io.x fs).length = fe
      rcases emitAll_cases (io := { io with ip := fe }) entry.bytes hout with ⟨hfit, hemit⟩ | ⟨hover, hemit⟩
      · rcases happend with ⟨hholds, happend⟩ | ⟨hfull, happend⟩
        · simp only [hemit, happend]
          exact .within (by split_ifs <;> rfl) hgrows ⟨hfit, hholds⟩
        · simp only [hemit, happend]
          exact .over (by split_ifs <;> rfl) hgrows fun hold => hfull hold.2
      · simp only [hemit]
        exact .over (by split_ifs <;> rfl) hgrows fun hold => hover hold.1

/-! ## The four runs -/

section
variable {lim : Limits}

theorem rleEncodeRun_capacityOnly (x : List Byte) :
    CapacityOnly lim (rleEncodeRun Limits.unbounded x) (rleEncodeRun lim x) :=
  .map _ (rleEncodeStep_cuts.run _ (if_pos ⟨lim.holdsOut_zero, lim.holdsDict_zero⟩))

theorem rleDecodeRun_capacityOnly (x : List Byte) :
    CapacityOnly lim (rleDecodeRun Limits.unbounded x) (rleDecodeRun lim x) := by
  refine .map _ (rleDecodeStep_cuts.run _ ?_)
  rw [rleDecodeBegin]
  split_ifs
  · rfl
  · exact if_pos ⟨lim.holdsOut_zero, lim.holdsDict_zero⟩

theorem lzEncodeRun_capacityOnly (hseed : lim.HoldsDict 256) (x : List Byte) :
    CapacityOnly lim (lzEncodeRun Limits.unbounded x) (lzEncodeRun lim x) :=
  .map _ (lzEncodeStep_cuts.run _ (if_pos ⟨lim.holdsOut_zero, hseed⟩))

theorem lzDecodeRun_capacityOnly (hseed : lim.HoldsDict 256) (x : List Byte) :
    CapacityOnly lim (lzDecodeRun Limits.unbounded x) (lzDecodeRun lim x) := by
  refine .map _ (lzDecodeStep_cuts.run _ ?_)
  rw [lzDecodeBegin]
  split_ifs
  · exact if_pos ⟨lim.holdsOut_zero, hseed⟩
  · exact if_pos ⟨lim.holdsOut_zero, hseed⟩

end

/-- Settles O38: each engine's steps are cut by the capacities, so each run is. -/
theorem capacitiesOnlyAddCapacityExceeded : Obligations.CapacitiesOnlyAddCapacityExceeded := by
  intro lim x hseed run hrun
  have hcapacity : CapacityOnly lim (run Limits.unbounded x) (run lim x) := by
    simp only [List.mem_cons, List.not_mem_nil, or_false] at hrun
    rcases hrun with rfl | rfl | rfl | rfl
    · exact rleEncodeRun_capacityOnly x
    · exact rleDecodeRun_capacityOnly x
    · exact lzEncodeRun_capacityOnly hseed x
    · exact lzDecodeRun_capacityOnly hseed x
  exact hcapacity

end Sys2Proof.Machine
end

section
/-! What every command word issues, as one operation: its fields and its engine. `exec` is `issue` of the two, so what
holds of `issue` is said once for the five commands. -/

namespace Sys2Proof.Machine

/-- The CTRL fields of a command word (30_encoding.md R91). -/
def fieldsOf : Instr → Ctrl
  | .rleEncode ie => { dir := false, alg := 0#2, ie := ie }
  | .rleDecode ie => { dir := true, alg := 0#2, ie := ie }
  | .lzEncode ie => { dir := false, alg := 1#2, ie := ie }
  | .lzDecode ie => { dir := true, alg := 1#2, ie := ie }
  | .unsupportedAlg ie alg dir => { dir := dir, alg := alg, ie := ie }

/-- The whole engine of a command word. -/
def engineOf : Instr → Limits → List Byte → Turn Engine
  | .rleEncode _ => rleEncodeRun
  | .rleDecode _ => rleDecodeRun
  | .lzEncode _ => lzEncodeRun
  | .lzDecode _ => lzDecodeRun
  | .unsupportedAlg _ _ _ => unsupportedRun

theorem exec_eq_issue (i : Instr) (s : State) : exec i s = issue (fieldsOf i) (engineOf i) s := by
  cases i <;> rfl

theorem issue_busy_or_inReset {c : Ctrl} {run : Limits → List Byte → Turn Engine} {s : State}
    (h : s.status.busy = true ∨ s.inReset = true) : issue c run s = .next s :=
  if_pos (by simpa using h.symm)

/-- All a command word can do: nothing while BUSY or in reset, else its whole run from acceptance on. -/
theorem exec_cases {i : Instr} {s t : State} (h : exec i s = .next t) :
    ((s.status.busy = true ∨ s.inReset = true) ∧ t = s) ∨
      (s.inReset = false ∧ s.status.busy = false ∧
        t = (s.accept (fieldsOf i)).perform (engineOf i)
          { alg := (fieldsOf i).alg, dir := (fieldsOf i).dir } s.inLen) := by
  rw [exec_eq_issue] at h
  by_cases hready : s.status.busy = true ∨ s.inReset = true
  · rw [issue_busy_or_inReset hready] at h
    cases h
    exact .inl ⟨hready, rfl⟩
  · simp only [not_or, Bool.not_eq_true] at hready
    obtain ⟨hbusy, hreset⟩ := hready
    rw [issue_ready hreset hbusy] at h
    cases h
    exact .inr ⟨hreset, hbusy, rfl⟩

/-- A supported command whose input does not fit finishes with InvalidInputType (40_control.md R122). -/
theorem issue_tooLong {c : Ctrl} (run : Limits → List Byte → Turn Engine) {s : State} (hready : s.idleReady)
    (halg : OpSel.command { alg := c.alg, dir := c.dir } ≠ none) (hlong : s.params.inCap < s.inLen.toNat) :
    issue c run s = .next (s.failed c .invalidInputType 0) := by
  have hcheck : startError s.params { alg := c.alg, dir := c.dir } s.inLen = some .invalidInputType := by
    rw [startError, if_neg halg, if_pos hlong]
  rw [issue_ready hready.1 hready.2, perform_of_startError (s := s.accept c) hcheck]
  rfl

/-- The selector that names a command (30_encoding.md R91). -/
def Command.selector : Command → OpSel
  | .rleEncode => { alg := 0#2, dir := false }
  | .rleDecode => { alg := 0#2, dir := true }
  | .lzEncode => { alg := 1#2, dir := false }
  | .lzDecode => { alg := 1#2, dir := true }

theorem OpSel.eq_selector_of_command {sel : OpSel} {cmd : Command} (h : sel.command = some cmd) :
    sel = cmd.selector := by
  obtain ⟨alg, dir⟩ := sel
  simp only [OpSel.command] at h
  split_ifs at h with halg hdir halg' hdir
  all_goals
    cases h
    simp_all [Command.selector]

end Sys2Proof.Machine
end

section
/-! The engines keep their states legal (10_state.md R36 to R40, 42_lz.md R171). Where a step stays within the
capacities is already said by `CutsStep`; what is shown here of each engine is the shape of the state that a step under
no capacities leads to. -/

namespace Sys2Proof.Machine

/-! ## Turns that keep a property -/

/-- What a turn leads to has `P` if it goes on, and is within the capacities if it finishes OK. -/
def Turn.Keeps {α : Type} (lim : Limits) (P : α → Prop) : Turn α → Prop
  | .more e => P e
  | .ok r => lim.Holds r.usage
  | .fail _ => True

/-- What a turn leads to has `P` if it goes on. -/
def Turn.GoesOnWith {α : Type} (P : α → Prop) : Turn α → Prop
  | .more e => P e
  | .ok _ => True
  | .fail _ => True

section
variable {α β : Type} {lim : Limits} {P : α → Prop}

theorem Turn.Keeps.map {Q : β → Prop} {f : α → β} {t : Turn α} (h : t.Keeps lim P)
    (hf : ∀ e, P e → Q (f e)) : (t.map f).Keeps lim Q := by
  cases t with
  | more e => exact hf e h
  | ok r => exact h
  | fail err => trivial

/-- A turn cut to the capacities keeps what the turn itself leads to within them. -/
theorem Turn.keeps_cut {usage : α → Usage} {t : Turn α}
    (h : t.GoesOnWith fun e => lim.Holds (usage e) → P e) : (t.cut lim usage).Keeps lim P := by
  cases t with
  | more e =>
    simp only [Turn.cut]
    split_ifs with hold
    · exact h hold
    · trivial
  | ok r =>
    simp only [Turn.cut]
    split_ifs with hold
    · exact hold
    · trivial
  | fail err => trivial

theorem CutsStep.keeps {usage : α → Usage} {step : Limits → α → Turn α} (hcuts : CutsStep usage step) {e : α}
    (he : lim.Holds (usage e)) (h : (step Limits.unbounded e).GoesOnWith fun e' => lim.Holds (usage e') → P e') :
    (step lim e).Keeps lim P := by
  rw [(hcuts lim e he).2]
  exact Turn.keeps_cut h

/-- What the first turn has and each step keeps, any number of steps keeps. -/
theorem Turn.Keeps.drive {f : α → Turn α} {first : Turn α} (hfirst : first.Keeps lim P)
    (hstep : ∀ e, P e → (f e).Keeps lim P) (fuel : Nat) : (first.drive f fuel).Keeps lim P := by
  cases first with
  | more e =>
    refine drive_induct (P := P) (Q := Turn.Keeps lim P) ?_ (fun _ he => he) ?_ (fun _ _ _ _ => trivial) fuel e hfirst
    · intro e₁ e₂ he h
      have hkeep := hstep e₁ he
      rwa [h] at hkeep
    · intro e₁ r he h
      have hkeep := hstep e₁ he
      rwa [h] at hkeep
  | ok r => exact hfirst
  | fail err => trivial

end

/-! ## The capacities of the block -/

theorem Params.holds_limits {p : Params} {u : Usage} : p.limits.Holds u ↔ u.1 ≤ p.outCap ∧ u.2 ≤ p.dictCap := by
  simp [Limits.Holds, Limits.HoldsOut, Limits.HoldsDict, Params.limits]

/-! ## The four engines -/

/-- What the invariant says of RLE_ENCODE's engine state. -/
abbrev RleEnc.inv (p : Params) (inLen : Word) (e : RleEnc) : Prop := e.io.legal p inLen ∧ e.legal

/-- As for RLE_ENCODE. -/
abbrev RleDec.inv (p : Params) (inLen : Word) (e : RleDec) : Prop := e.io.legal p inLen ∧ e.legal

/-- As for RLE_ENCODE. -/
abbrev LzEnc.inv (p : Params) (inLen : Word) (e : LzEnc) : Prop := e.io.legal p inLen ∧ e.legal p

/-- As for RLE_ENCODE. -/
abbrev LzDec.inv (p : Params) (inLen : Word) (e : LzDec) : Prop := e.io.legal p inLen ∧ e.legal p

section
variable {p : Params} {inLen : Word}

theorem Io.lt_of_getElem? {io : Io} {k : Nat} {b : Byte} (h : io.x[k]? = some b) : k < io.x.length :=
  (List.getElem?_eq_some_iff.mp h).1

theorem Io.begin_legal {x : List Byte} (hlen : x.length = inLen.toNat) (hfits : inLen.toNat ≤ p.inCap) :
    (Io.begin x).legal p inLen :=
  ⟨hlen, hlen.trans_le hfits, Nat.zero_le _, Nat.zero_le _⟩

/-- Taking input and emitting tokens keep the common engine state legal, inside the input and OUT_CAP. -/
theorem Io.legal.advance {io : Io} (h : io.legal p inLen) {ip tok : Nat} {out : List Byte}
    (hip : ip ≤ io.x.length) (hout : out.length ≤ p.outCap) :
    Io.legal p inLen { io with ip := ip, out := out, tok := tok } := by
  obtain ⟨hlen, hfits, -, -⟩ := h
  exact ⟨hlen, hfits, hip, hout⟩

/-! ### RLE_ENCODE -/

theorem rleEncodeStep_shape {e : RleEnc} (h : e.inv p inLen) :
    (rleEncodeStep Limits.unbounded e).GoesOnWith fun e' => p.limits.Holds e'.usage → e'.inv p inLen := by
  obtain ⟨io, run⟩ := e
  obtain ⟨hio, htok, hrun⟩ := h
  simp only [rleEncodeStep, emitRun_eq_emitToken, emitToken_unbounded]
  cases hbyte : io.x[io.ip]? with
  | none => cases run <;> trivial
  | some b =>
    have hip := Io.lt_of_getElem? hbyte
    cases run with
    | none =>
      intro hold
      obtain ⟨hout, -⟩ := Params.holds_limits.mp hold
      exact ⟨hio.advance hip hout, htok, by simp at hrun ⊢; omega⟩
    | some r =>
      dsimp only at hrun ⊢
      split_ifs with hsame
      all_goals
        intro hold
        obtain ⟨hout, -⟩ := Params.holds_limits.mp hold
        refine ⟨hio.advance hip hout, ?_, ?_⟩
      · exact htok
      · dsimp only; omega
      · simp [Io.token] at htok ⊢; omega
      · simp [Io.token] at htok ⊢; omega

theorem RleEnc.inv.holds {e : RleEnc} (h : e.inv p inLen) : p.limits.Holds e.usage := by
  obtain ⟨⟨-, -, -, hout⟩, -⟩ := h
  exact Params.holds_limits.mpr ⟨hout, Nat.zero_le _⟩

theorem rleEncodeStep_keeps {e : RleEnc} (h : e.inv p inLen) :
    (rleEncodeStep p.limits e).Keeps p.limits (RleEnc.inv p inLen) :=
  rleEncodeStep_cuts.keeps h.holds (rleEncodeStep_shape h)

theorem rleEncodeBegin_keeps {x : List Byte} (hlen : x.length = inLen.toNat) (hfits : inLen.toNat ≤ p.inCap) :
    (rleEncodeBegin x).Keeps p.limits (RleEnc.inv p inLen) :=
  ⟨Io.begin_legal hlen hfits, rfl, rfl, rfl⟩

/-! ### RLE_DECODE -/

theorem takePair_ok {e e' : RleDec} (h : takePair e = some (.ok e')) :
    ∃ pair, e' = { io := { e.io with ip := e.io.ip + 2 }, pair := some pair } ∧ e.io.ip + 1 < e.io.x.length := by
  unfold takePair at h
  split at h
  · next hr =>
    cases h
    exact ⟨_, rfl, Io.lt_of_getElem? hr⟩
  · cases h
  · cases h

theorem rleDecodeStep_shape {e : RleDec} (h : e.inv p inLen) :
    (rleDecodeStep Limits.unbounded e).GoesOnWith fun e' => p.limits.Holds e'.usage → e'.inv p inLen := by
  obtain ⟨hio, heven, hip⟩ := h
  simp only [rleDecodeStep]
  cases htake : takePair e with
  | none => trivial
  | some taken =>
    cases taken with
    | error err => trivial
    | ok e' =>
      obtain ⟨pair, rfl, hlt⟩ := takePair_ok htake
      dsimp only
      by_cases hzero : pair.r = 0#8
      · rw [expandPair, if_pos hzero]
        trivial
      · rw [expandPair_eq_emitToken _ hzero, emitToken_unbounded]
        intro hold
        obtain ⟨hout, -⟩ := Params.holds_limits.mp hold
        exact ⟨hio.advance hlt hout, heven, by simp [Io.token]; omega⟩

theorem RleDec.inv.holds {e : RleDec} (h : e.inv p inLen) : p.limits.Holds e.usage := by
  obtain ⟨⟨-, -, -, hout⟩, -⟩ := h
  exact Params.holds_limits.mpr ⟨hout, Nat.zero_le _⟩

theorem rleDecodeStep_keeps {e : RleDec} (h : e.inv p inLen) :
    (rleDecodeStep p.limits e).Keeps p.limits (RleDec.inv p inLen) :=
  rleDecodeStep_cuts.keeps h.holds (rleDecodeStep_shape h)

theorem rleDecodeBegin_keeps {x : List Byte} (hlen : x.length = inLen.toNat) (hfits : inLen.toNat ≤ p.inCap) :
    (rleDecodeBegin x).Keeps p.limits (RleDec.inv p inLen) := by
  rw [rleDecodeBegin]
  split_ifs with hodd
  · trivial
  · exact ⟨Io.begin_legal hlen hfits, by simp [Io.begin]; omega, rfl⟩

/-! ### LZ_ENCODE -/

theorem Dict.has_single (d : Dict) (b : Byte) : d.has (Phrase.single b) = true := rfl

theorem Dict.has_push_of_has {d : Dict} {q : Phrase} (h : d.has q = true) (r : Phrase) : (d.push r).has q = true := by
  simp only [Dict.has, Dict.push, Bool.or_eq_true, List.contains_iff_mem, List.mem_append] at h ⊢
  exact h.imp_right .inl

theorem Dict.not_mem_of_not_has {d : Dict} {q : Phrase} (h : ¬ d.has q = true) : q ∉ d.added := by
  simp only [Dict.has, Bool.or_eq_true, List.contains_iff_mem, not_or] at h
  exact h.2

/-- The encoder's insertion keeps its dictionary injective and every entry's shorter phrase in the domain (42_lz.md
R171): it binds a phrase that is new, one byte longer than one in the domain. -/
theorem Dict.legalEnc_push {d : Dict} {q : Phrase} {b : Byte} (h : Dict.legalEnc p d) (hq : d.has q = true)
    (hnew : ¬ d.has (q.snoc b) = true) (hcode : (d.push (q.snoc b)).nextCode ≤ p.dictCap) :
    Dict.legalEnc p (d.push (q.snoc b)) := by
  obtain ⟨hinj, -, hentries⟩ := h
  refine ⟨?_, hcode, fun r hr => ?_⟩
  · exact List.nodup_append'.mpr
      ⟨hinj, List.nodup_singleton _, List.disjoint_singleton.mpr (Dict.not_mem_of_not_has hnew)⟩
  · rcases List.mem_append.mp hr with hr | hr
    · exact (hentries r hr).imp_right fun hhas => Dict.has_push_of_has hhas _
    · rw [List.mem_singleton.mp hr]
      exact ⟨by simp [Phrase.snoc], Dict.has_push_of_has (by simpa [Phrase.snoc] using hq) _⟩

theorem lzEncodeStep_shape {e : LzEnc} (h : e.inv p inLen) :
    (lzEncodeStep Limits.unbounded e).GoesOnWith fun e' => p.limits.Holds e'.usage → e'.inv p inLen := by
  obtain ⟨io, d, cur⟩ := e
  obtain ⟨hio, hd, htok, hcur⟩ := h
  simp only [lzEncodeStep, emitCode_eq_emitToken, emitToken_unbounded]
  cases hbyte : io.x[io.ip]? with
  | none => cases cur <;> trivial
  | some b =>
    have hip := Io.lt_of_getElem? hbyte
    cases cur with
    | none =>
      intro hold
      obtain ⟨hout, -⟩ := Params.holds_limits.mp hold
      obtain ⟨hip₀, htok₀⟩ := hcur
      exact ⟨hio.advance hip hout, hd, htok, Dict.has_single d b, by dsimp only at *; omega⟩
    | some q =>
      obtain ⟨hq, hlt⟩ := hcur
      dsimp only
      by_cases hhas : d.has (q.snoc b) = true
      · rw [if_pos hhas]
        intro hold
        obtain ⟨hout, -⟩ := Params.holds_limits.mp hold
        exact ⟨hio.advance hip hout, hd, htok, hhas, Nat.le_succ_of_le hlt⟩
      · rw [if_neg hhas, if_neg (unbounded_dictCap_ne _)]
        intro hold
        obtain ⟨hout, hcode⟩ := Params.holds_limits.mp hold
        exact ⟨hio.advance hip hout, Dict.legalEnc_push hd hq hhas hcode, by simpa [Io.token, Dict.push] using htok,
          Dict.has_single _ b, Nat.succ_le_succ hlt⟩

theorem LzEnc.inv.holds {e : LzEnc} (h : e.inv p inLen) : p.limits.Holds e.usage := by
  obtain ⟨⟨-, -, -, hout⟩, ⟨-, hcode, -⟩, -⟩ := h
  exact Params.holds_limits.mpr ⟨hout, hcode⟩

theorem lzEncodeStep_keeps {e : LzEnc} (h : e.inv p inLen) :
    (lzEncodeStep p.limits e).Keeps p.limits (LzEnc.inv p inLen) :=
  lzEncodeStep_cuts.keeps h.holds (lzEncodeStep_shape h)

theorem lzEncodeBegin_keeps {x : List Byte} (hlen : x.length = inLen.toNat) (hfits : inLen.toNat ≤ p.inCap)
    (hseed : 256 ≤ p.dictCap) : (lzEncodeBegin x).Keeps p.limits (LzEnc.inv p inLen) :=
  ⟨Io.begin_legal hlen hfits, ⟨List.nodup_nil, hseed, nofun⟩, rfl, rfl, rfl⟩

/-! ### LZ_DECODE -/

/-- A field that holds a code is not empty (30_encoding.md R99). -/
theorem length_pos_of_parseField_ok {f : List Byte} {c : Nat} (h : parseField f = .ok c) : 0 < f.length := by
  cases f with
  | nil => cases h
  | cons b f => exact Nat.succ_pos _

theorem appendEntry_unbounded {d d' : Dict} {prev : Option Phrase} {entry : Phrase}
    (h : appendEntry Limits.unbounded d prev entry = .ok d') :
    d'.added.length = d.added.length + (if prev.isSome then 1 else 0) := by
  cases prev with
  | none =>
    cases h
    rfl
  | some q =>
    rw [appendEntry, if_neg (unbounded_dictCap_ne _)] at h
    cases h
    simp [Dict.push]

/-- The decoder has appended one entry for each code but the first (42_lz.md R187, R189). -/
theorem LzDec.legal_entries {e : LzDec} (h : e.legal p) :
    e.io.tok = e.dict.added.length + (if e.prev.isSome then 1 else 0) := by
  obtain ⟨-, -, -, -, hprev⟩ := h
  split at hprev
  · next hnone => simp [hnone, hprev]
  · next hsome => simp [hsome, hprev]

theorem lzDecodeStep_shape {e : LzDec} (h : e.inv p inLen) :
    (lzDecodeStep Limits.unbounded e).GoesOnWith fun e' => p.limits.Holds e'.usage → e'.inv p inLen := by
  obtain ⟨hio, hlegal⟩ := h
  have hentries := LzDec.legal_entries hlegal
  obtain ⟨-, -, hfs, hne, -⟩ := hlegal
  simp only [lzDecodeStep, emitAll_unbounded (lim := Limits.unbounded) rfl]
  cases hparse : parseField (fieldAt e.io.x e.fs) with
  | error err => trivial
  | ok c =>
    have hfield := length_pos_of_parseField_ok hparse
    dsimp only
    cases resolveCode e.dict e.prev c with
    | none => trivial
    | some entry =>
      dsimp only
      cases happend : appendEntry Limits.unbounded e.dict e.prev entry with
      | error err => trivial
      | ok d =>
        have hd := appendEntry_unbounded happend
        dsimp only
        split_ifs with hlast
        · intro hold
          obtain ⟨hout, hcode⟩ := Params.holds_limits.mp hold
          refine ⟨hio.advance (Nat.le_of_lt hlast) hout, hcode, hlast, ?_, hne, ?_⟩
          · dsimp only; omega
          · dsimp only; omega
        · trivial

theorem LzDec.inv.holds {e : LzDec} (h : e.inv p inLen) : p.limits.Holds e.usage := by
  obtain ⟨⟨-, -, -, hout⟩, hcode, -⟩ := h
  exact Params.holds_limits.mpr ⟨hout, hcode⟩

theorem lzDecodeStep_keeps {e : LzDec} (h : e.inv p inLen) :
    (lzDecodeStep p.limits e).Keeps p.limits (LzDec.inv p inLen) :=
  lzDecodeStep_cuts.keeps h.holds (lzDecodeStep_shape h)

theorem lzDecodeBegin_keeps {x : List Byte} (hlen : x.length = inLen.toNat) (hfits : inLen.toNat ≤ p.inCap)
    (hseed : 256 ≤ p.dictCap) : (lzDecodeBegin x).Keeps p.limits (LzDec.inv p inLen) := by
  rw [lzDecodeBegin]
  split_ifs with hempty
  · exact Params.holds_limits.mpr ⟨Nat.zero_le _, hseed⟩
  · exact ⟨Io.begin_legal hlen hfits, hseed, Nat.zero_le _, Nat.zero_le _, hempty, rfl, rfl⟩

end

end Sys2Proof.Machine
end

section
/-! The host port: what an access can change, and what an access to each register and to IN_MEM does. -/

namespace Sys2Proof.Machine

/-! ## Lanes -/

/-- The lanes of a register access carry its value (20_memory.md R64). -/
@[simp] theorem wordOfLanes_lanesOfWord (w : Word) : wordOfLanes (lanesOfWord w) = w := by
  apply BitVec.eq_of_getLsbD_eq
  intro k hk
  simp only [lanesOfWord, wordOfLanes, BitVec.getLsbD_or, BitVec.getLsbD_setWidth, BitVec.getLsbD_shiftLeft,
    BitVec.getLsbD_extractLsb']
  have hlane : k < 8 ∨ (8 ≤ k ∧ k < 16) ∨ (16 ≤ k ∧ k < 24) ∨ 24 ≤ k := by omega
  rcases hlane with hk₀ | ⟨hk₁, hk₂⟩ | ⟨hk₁, hk₂⟩ | hk₃
  all_goals grind

theorem decode_lanesOfWord (w : Word) : decode (lanesOfWord w) = decodeWord w := by
  have hlen : (lanesOfWord w).length = 4 := rfl
  rw [decode, if_pos hlen, wordOfLanes_lanesOfWord]

/-! ## What a write can do -/

theorem writeCtrl_busy {s : State} (hbusy : s.status.busy = true) (w : Word) : s.writeCtrl w = s := by
  simp [State.writeCtrl, hbusy]

theorem writeCtrl_inReset {s : State} (hr : s.inReset = true) (w : Word) : s.writeCtrl w = s := by
  simp [State.writeCtrl, hr]

theorem writeCtrl_start {s : State} (hready : s.idleReady) {w : Word} (hstart : w.getLsbD 0 = true) :
    s.writeCtrl w = s.accept (Ctrl.ofWord w) := by
  rw [State.writeCtrl, if_neg (by simp [hready.1, hready.2]), if_pos hstart]

theorem writeCtrl_noStart {s : State} (hready : s.idleReady) {w : Word} (hstart : w.getLsbD 0 = false) :
    s.writeCtrl w = { s with ctrl := Ctrl.ofWord w } := by
  rw [State.writeCtrl, if_neg (by simp [hready.1, hready.2]), if_neg (by rw [hstart]; nofun)]

/-- The bus answer has no part in a CTRL write. -/
theorem writeCtrl_response (s : State) (resp : Response) (w : Word) :
    State.writeCtrl w { s with response := resp } = { s.writeCtrl w with response := resp } := by
  unfold State.writeCtrl
  dsimp only
  split_ifs <;> rfl

/-- Every register write is ignored while BUSY = 1 (10_state.md R28, R33). -/
theorem writeReg_busy {s : State} (hbusy : s.status.busy = true) (r : RegName) (w : Word) : s.writeReg r w = s := by
  cases r
  case ctrl => exact writeCtrl_busy hbusy w
  case status | inLen => exact if_pos hbusy
  all_goals rfl

theorem writeReg_readOnly {r : RegName} (h : r ∈ [.outLen, .tokenCount, .nextCode, .inCapR, .outCapR, .dictCapR])
    (s : State) (w : Word) : s.writeReg r w = s := by
  cases r
  case ctrl | status | inLen => simp at h
  all_goals rfl

theorem writeReg_status_idle {s : State} (hidle : s.status.busy = false) (w : Word) :
    s.writeReg .status w = { s with status := s.status.afterWrite w } := by
  simp [State.writeReg, hidle]

theorem writeReg_inLen_idle {s : State} (hidle : s.status.busy = false) (w : Word) :
    s.writeReg .inLen w = { s with inLen := w } := by
  simp [State.writeReg, hidle]

@[simp] theorem State.writeCtrl_params (s : State) (w : Word) : (s.writeCtrl w).params = s.params := by
  unfold State.writeCtrl
  split_ifs <;> rfl

@[simp] theorem State.writeReg_params (s : State) (r : RegName) (w : Word) : (s.writeReg r w).params = s.params := by
  cases r
  case ctrl => exact State.writeCtrl_params s w
  case status | inLen =>
    unfold State.writeReg
    dsimp only
    split_ifs <;> rfl
  all_goals rfl

theorem writeIn_busy {s : State} (hbusy : s.status.busy = true) (i : Nat) (v : Byte) : s.writeIn i v = s := if_pos hbusy

theorem writeIn_idle {s : State} (hidle : s.status.busy = false) (i : Nat) (v : Byte) :
    s.writeIn i v = { s with inMem := s.inMem.write i v } := by
  simp [State.writeIn, hidle]

@[simp] theorem State.writeIn_params (s : State) (i : Nat) (v : Byte) : (s.writeIn i v).params = s.params := by
  unfold State.writeIn
  split_ifs <;> rfl

/-! ## The address map -/

theorem offset?_base_add (p : Params) {off : Nat} (h : off < 2 ^ 26) : p.offset? (p.base + off) = some off := by
  rw [Params.offset?, if_pos ⟨Nat.le_add_right _ _, Nat.add_lt_add_left h _⟩, Nat.add_sub_cancel_left]

theorem targetAt_offset (p : Params) (r : RegName) : targetAt p r.offset 4 = some (.reg r) := by
  cases r <;> rfl

theorem RegName.offset_lt (r : RegName) : r.offset < 2 ^ 26 := by
  cases r <;> decide

theorem targetAt_inMem {p : Params} {j : Nat} (h : j < p.inCap) : targetAt p (0x01000000 + j) 1 = some (.inByte j) := by
  have hwindow : ¬ 0x01000000 + j < 0x100 := by omega
  have hin : inMemBase ≤ 0x01000000 + j ∧ 0x01000000 + j < inMemBase + p.inCap :=
    ⟨Nat.le_add_right _ _, Nat.add_lt_add_left h _⟩
  rw [targetAt, if_neg hwindow, if_pos hin, if_pos rfl, inMemBase, Nat.add_sub_cancel_left]

/-- A byte of IN_MEM that an access reaches is inside IN_CAP. -/
theorem lt_inCap_of_targetAt {p : Params} {off width i : Nat} (h : targetAt p off width = some (.inByte i)) :
    i < p.inCap := by
  unfold targetAt at h
  split_ifs at h with hreg hwidth hin hwidth hout hwidth
  · simp at h
  · have hi := Target.inByte.inj (Option.some.inj h)
    obtain ⟨hlo, hhi⟩ := hin
    omega
  · cases h

/-! ## What an access does -/

/-- What a host access leaves of the state, the bus answer and the count of draws aside: the state as it was, a register
write, or a write to a byte of IN_MEM. -/
def HostEffect (s t : State) : Prop :=
  t = s ∨ s.inReset = false ∧
    ((∃ r w, t = s.writeReg r w) ∨ ∃ i v, i < s.params.inCap ∧ t = s.writeIn i v)

theorem access_effect (s : State) (a : Access) :
    ∃ t resp k, s.access a = { t with response := resp, hostDraws := k } ∧ HostEffect s t := by
  rcases access_cases s a with ⟨-, h⟩ | ⟨-, -, h⟩ | ⟨off, hr, -, ⟨-, h⟩ | ⟨tgt, htgt, hread | hwrite⟩⟩
  · exact ⟨s, _, s.hostDraws, h, .inl rfl⟩
  · exact ⟨s, _, s.hostDraws, h, .inl rfl⟩
  · exact ⟨s, _, s.hostDraws, h, .inl rfl⟩
  · obtain ⟨w, addr, rfl, h⟩ := hread
    obtain ⟨resp, k, hframe⟩ := readTarget_frame s tgt
    exact ⟨s, resp, k, h.trans hframe, .inl rfl⟩
  · obtain ⟨addr, lanes, rfl, h⟩ := hwrite
    cases tgt with
    | reg r => exact ⟨_, .done, _, h, .inr ⟨hr, .inl ⟨r, _, rfl⟩⟩⟩
    | inByte i => exact ⟨_, .done, _, h, .inr ⟨hr, .inr ⟨i, _, lt_inCap_of_targetAt htgt, rfl⟩⟩⟩
    | outByte i => exact ⟨s, _, s.hostDraws, h, .inl rfl⟩

section
variable {s : State}

theorem access_write_of_target (hr : s.inReset = false) {off : Nat} (hoff : off < 2 ^ 26) {lanes : List Byte}
    {t : Target} (ht : targetAt s.params off lanes.length = some t) :
    s.access (.write (s.params.base + off) lanes) = s.writeTarget t lanes := by
  simp [State.access, hr, Access.addr, Access.width, offset?_base_add _ hoff, ht]

theorem access_write_reg (hr : s.inReset = false) (r : RegName) (w : Word) :
    s.access (.write (s.params.base + r.offset) (lanesOfWord w)) = { s.writeReg r w with response := .done } := by
  rw [access_write_of_target hr r.offset_lt (targetAt_offset _ r), State.writeTarget, wordOfLanes_lanesOfWord]

theorem access_write_inMem (hr : s.inReset = false) (hp : s.params.legal) {j : Nat} (hj : j < s.params.inCap)
    (v : Byte) : s.access (.write (s.params.base + 0x01000000 + j) [v]) = { s.writeIn j v with response := .done } := by
  obtain ⟨-, -, hcap, -⟩ := hp
  rw [Nat.add_assoc, access_write_of_target hr (by omega) (targetAt_inMem hj)]
  rfl

theorem access_read_reg (hr : s.inReset = false) (r : RegName) :
    s.access (.read 4 (s.params.base + r.offset)) = s.readTarget (.reg r) := by
  simp [State.access, hr, Access.addr, Access.width, offset?_base_add _ r.offset_lt, targetAt_offset]

/-- A read of a register with a specified value answers its lanes. -/
theorem access_read_value (hr : s.inReset = false) {r : RegName} {v : Word} (hv : s.regValue r = some v) :
    s.access (.read 4 (s.params.base + r.offset)) = { s with response := .data (lanesOfWord v) } := by
  simp [access_read_reg hr, State.readTarget, State.peek, hv]

/-- A read of a register without one answers the next draw (10_state.md R34). -/
theorem access_read_draw (hr : s.inReset = false) {r : RegName} (hv : s.regValue r = none) :
    s.access (.read 4 (s.params.base + r.offset)) =
      { s with
        response := .data (lanesOfWord (Config.hostWordDraw s.hostDraws))
        hostDraws := s.hostDraws + 1 } := by
  simp [access_read_reg hr, State.readTarget, State.peek, hv, drawLanes]

end

end Sys2Proof.Machine
end

section
/-! The step: which operation runs for each input, and what follows for a property that every operation keeps. -/

namespace Sys2Proof.Machine

/-! ## One step -/

section
variable {s : State} {rest : List Input}

theorem step_of_nil (h : s.inputs = []) : step s = .next s.engineTurn := by simp only [step, h]

theorem step_of_bus {a : Access} (h : s.inputs = .bus a :: rest) : step s = .next ((s.pop rest).access a) := by
  simp only [step, h]

theorem step_of_engine (h : s.inputs = .engine :: rest) : step s = .next (s.pop rest).engineTurn := by
  simp only [step, h]

theorem step_of_reset {level : Bool} (h : s.inputs = (if level then .assertReset else .releaseReset) :: rest) :
    step s = .next ((s.pop rest).resetTo level) := by
  cases level <;> simp only [step, h] <;> rfl

theorem step_of_command {w : Word} {i : Instr} (h : s.inputs = .command w :: rest) (hi : decodeWord w = .ok i) :
    step s = exec i (s.pop rest).answerWrite := by
  simp only [step, h, hi]

theorem step_of_noCommand {w : Word} {err : Reject} (h : s.inputs = .command w :: rest)
    (hw : decodeWord w = .error err) : step s = .next ((s.pop rest).answerWrite.writeCtrl w) := by
  simp only [step, h, hw]

end

theorem decodeWord_of_noStart {w : Word} (hw : w.getLsbD 0 = false) : ∃ err, decodeWord w = .error err := by
  cases hi : decodeWord w with
  | ok i => exact nomatch hw.symm.trans (decodeWord_ok_start hi)
  | error err => exact ⟨err, rfl⟩

/-- The encoder's word of a well-formed command selects it (30_encoding.md R91). -/
theorem decodeWord_encode {i : Instr} (h : i.wellFormed = true) : decodeWord (encode i) = .ok i := by
  cases i with
  | rleEncode ie => cases ie <;> rfl
  | rleDecode ie => cases ie <;> rfl
  | lzEncode ie => cases ie <;> rfl
  | lzDecode ie => cases ie <;> rfl
  | unsupportedAlg ie alg dir =>
    revert ie alg dir
    decide

theorem withFetchWord_encode (s : State) (i : Instr) :
    s.withFetchWord 32 (encode i).toNat = { s with inputs := .command (encode i) :: s.inputs } := by
  rw [State.withFetchWord, Nat.mod_eq_of_lt (encode i).isLt, BitVec.ofNat_toNat, BitVec.setWidth_eq]

/-- A bus write of a word with START = 0 to CTRL is the write that a command input of that word makes. -/
theorem access_ctrl_eq_writeCtrl (s : State) (w : Word) :
    s.access (.write s.params.base (lanesOfWord w)) = s.answerWrite.writeCtrl w := by
  cases hr : s.inReset with
  | true =>
    rw [writeCtrl_inReset (s := s.answerWrite) hr, State.access, if_pos hr, State.answerWrite, if_pos hr]
  | false =>
    refine (access_write_reg hr .ctrl w).trans ?_
    rw [State.answerWrite, if_neg (by simp [hr])]
    exact (writeCtrl_response s .done w).symm

/-- Settles O4: each clause is the branch of `step` for the input at the head of the list. -/
theorem stepRunsDecodedCommand : Obligations.StepRunsDecodedCommand := by
  refine ⟨?command, ?fetched, ?noStart, ?bus, ?engine, ?nothing, ?reset⟩
  case command =>
    intro s w rest i h hi
    rw [decode_lanesOfWord] at hi
    exact step_of_command h hi
  case fetched =>
    intro s i hi
    rw [withFetchWord_encode]
    exact step_of_command rfl (decodeWord_encode hi)
  case noStart =>
    intro s w rest h hw
    obtain ⟨err, herr⟩ := decodeWord_of_noStart hw
    rw [step_of_noCommand h herr]
    exact congrArg _ (access_ctrl_eq_writeCtrl (s.pop rest) w).symm
  case bus => exact fun _ _ _ => step_of_bus
  case engine => exact fun _ _ => step_of_engine
  case nothing => exact fun _ => step_of_nil
  case reset => exact fun _ _ _ => step_of_reset

theorem run_succ {k : Nat} {s t : State} (h : Host.Core.run Sys2Proof.core (k + 1) s = .next t) :
    ∃ s', step s = .next s' ∧ Host.Core.run Sys2Proof.core k s' = .next t := by
  cases hstep : step s with
  | next s' => exact ⟨s', rfl, by simpa [Host.Core.run, Sys2Proof.core, hstep] using h⟩
  | fault r => cases r
  | refused r => simp [Host.Core.run, Sys2Proof.core, hstep] at h

/-! ## Properties that every operation keeps -/

/-- A property of states that each operation a step can run keeps. -/
structure KeptByOperations (P : State → Prop) : Prop where
  pop : ∀ {s} rest, P s → P (s.pop rest)
  answerWrite : ∀ {s}, P s → P s.answerWrite
  access : ∀ {s} a, P s → P (s.access a)
  exec : ∀ {s t} i, P s → exec i s = .next t → P t
  writeCtrl : ∀ {s} w, P s → P (s.writeCtrl w)
  engineTurn : ∀ {s}, P s → P s.engineTurn
  resetTo : ∀ {s} level, P s → P (s.resetTo level)

section
variable {P : State → Prop}

theorem KeptByOperations.step (hP : KeptByOperations P) {s t : State} (hs : P s) (h : step s = .next t) : P t := by
  cases hin : s.inputs with
  | nil =>
    rw [step_of_nil hin] at h
    cases h
    exact hP.engineTurn hs
  | cons input rest =>
    have hpop := hP.pop rest hs
    cases input with
    | command w =>
      cases hw : decodeWord w with
      | ok i =>
        rw [step_of_command hin hw] at h
        exact hP.exec i (hP.answerWrite hpop) h
      | error err =>
        rw [step_of_noCommand hin hw] at h
        cases h
        exact hP.writeCtrl w (hP.answerWrite hpop)
    | bus a =>
      rw [step_of_bus hin] at h
      cases h
      exact hP.access a hpop
    | engine =>
      rw [step_of_engine hin] at h
      cases h
      exact hP.engineTurn hpop
    | assertReset =>
      rw [step_of_reset (level := true) hin] at h
      cases h
      exact hP.resetTo true hpop
    | releaseReset =>
      rw [step_of_reset (level := false) hin] at h
      cases h
      exact hP.resetTo false hpop

theorem KeptByOperations.run (hP : KeptByOperations P) (k : Nat) {s t : State} (hs : P s)
    (h : Host.Core.run Sys2Proof.core k s = .next t) : P t := by
  induction k generalizing s with
  | zero =>
    cases h
    exact hs
  | succ k ih =>
    obtain ⟨s', hstep, hrun⟩ := run_succ h
    exact ih (hP.step hs hstep) hrun

end

/-! ## The parameters never change -/

@[simp] theorem State.settle_params (t : Turn Engine) (s : State) : (s.settle t).params = s.params := by
  cases t <;> rfl

theorem State.perform_params (run : Limits → List Byte → Turn Engine) (sel : OpSel) (n : Word) (s : State) :
    (s.perform run sel n).params = s.params := by
  unfold State.perform
  split <;> simp

theorem State.startTurn_params (sel : OpSel) (n : Word) (s : State) : (s.startTurn sel n).params = s.params := by
  unfold State.startTurn
  split <;> simp

theorem State.engineTurn_params (s : State) : s.engineTurn.params = s.params := by
  unfold State.engineTurn
  split <;> simp [State.startTurn_params]

theorem State.access_params (a : Access) (s : State) : (s.access a).params = s.params := by
  obtain ⟨t, resp, k, h, rfl | ⟨-, ⟨r, w, rfl⟩ | ⟨i, v, -, rfl⟩⟩⟩ := access_effect s a <;> simp [h]

theorem exec_params {i : Instr} {s t : State} (h : exec i s = .next t) : t.params = s.params := by
  rcases exec_cases h with ⟨-, rfl⟩ | ⟨-, -, rfl⟩
  · rfl
  · exact State.perform_params _ _ _ _

theorem params_keptByOperations (p : Params) : KeptByOperations fun s => s.params = p where
  pop _ hs := hs
  answerWrite hs := hs
  access a hs := (State.access_params a _).trans hs
  exec _ hs h := (exec_params h).trans hs
  writeCtrl w hs := (State.writeCtrl_params _ w).trans hs
  engineTurn hs := (State.engineTurn_params _).trans hs
  resetTo _ hs := hs

/-- Settles O14: the capacity registers are views of the parameters, which every operation keeps. -/
theorem capacityRegistersAreConstant : Obligations.CapacityRegistersAreConstant :=
  ⟨fun _ hr => ⟨access_read_value hr (r := .inCapR) rfl, access_read_value hr (r := .outCapR) rfl,
    access_read_value hr (r := .dictCapR) rfl⟩, fun s _ h => (params_keptByOperations s.params).step rfl h⟩

end Sys2Proof.Machine
end

section
/-! The words CTRL and STATUS read as (10_state.md R22, R24). -/

namespace Sys2Proof.Machine

theorem Ctrl.toWord_fields (c : Ctrl) :
    c.toWord.getLsbD 4 = c.ie ∧ c.toWord.extractLsb' 2 2 = c.alg ∧ c.toWord.getLsbD 1 = c.dir ∧
      c.toWord.getLsbD 0 = false := by
  obtain ⟨dir, alg, ie⟩ := c
  revert dir alg ie
  decide

/-- CTRL holds nothing above IE. -/
theorem Ctrl.toWord_getLsbD_of_ge (c : Ctrl) {k : Nat} (hk : 5 ≤ k) : c.toWord.getLsbD k = false := by
  rw [Ctrl.toWord, BitVec.getLsbD_setWidth, BitVec.getLsbD_of_ge _ k hk, Bool.and_false]

theorem Status.toWord_fields (t : Status) :
    t.toWord.getLsbD 0 = t.busy ∧ t.toWord.getLsbD 1 = t.done ∧ t.toWord.getLsbD 2 = t.err ∧
      t.toWord.getLsbD 3 = false ∧ t.toWord.extractLsb' 4 4 = t.errcode := by
  obtain ⟨busy, done, err, errcode⟩ := t
  revert busy done err errcode
  decide

/-- STATUS holds nothing above ERRCODE. -/
theorem Status.toWord_getLsbD_of_ge (t : Status) {k : Nat} (hk : 8 ≤ k) : t.toWord.getLsbD k = false := by
  rw [Status.toWord, BitVec.getLsbD_setWidth, BitVec.getLsbD_of_ge _ k hk, Bool.and_false]

end Sys2Proof.Machine
end

section
/-! The invariant of the block through each of its operations, and so through a step. -/

namespace Sys2Proof.Machine

/-! ## Engine states in flight -/

/-- An engine state the invariant allows while BUSY = 1. -/
def Engine.InFlight (p : Params) (c : Ctrl) (inLen : Word) (e : Engine) : Prop :=
  e.phase = .run ∧ e.legal p c inLen

theorem Engine.phase_eq_idle {e : Engine} : e.phase = .idle ↔ e = .idle := by
  cases e <;> simp [Engine.phase]

section
variable {p : Params} {c : Ctrl} {inLen : Word}

theorem RleEnc.inv.inFlight (hc : c.alg = 0#2 ∧ c.dir = false) (e : RleEnc) (h : e.inv p inLen) :
    (Engine.rleEncode e).InFlight p c inLen :=
  ⟨rfl, hc.1, hc.2, h⟩

theorem RleDec.inv.inFlight (hc : c.alg = 0#2 ∧ c.dir = true) (e : RleDec) (h : e.inv p inLen) :
    (Engine.rleDecode e).InFlight p c inLen :=
  ⟨rfl, hc.1, hc.2, h⟩

theorem LzEnc.inv.inFlight (hc : c.alg = 1#2 ∧ c.dir = false) (e : LzEnc) (h : e.inv p inLen) :
    (Engine.lzEncode e).InFlight p c inLen :=
  ⟨rfl, hc.1, hc.2, h⟩

theorem LzDec.inv.inFlight (hc : c.alg = 1#2 ∧ c.dir = true) (e : LzDec) (h : e.inv p inLen) :
    (Engine.lzDecode e).InFlight p c inLen :=
  ⟨rfl, hc.1, hc.2, h⟩

/-- The first turn of a command starts its engine in a legal state. -/
theorem Command.begin_keeps (cmd : Command) (hc : { alg := c.alg, dir := c.dir } = cmd.selector) {x : List Byte}
    (hlen : x.length = inLen.toNat) (hfits : inLen.toNat ≤ p.inCap) (hseed : 256 ≤ p.dictCap) :
    (cmd.begin x).Keeps p.limits (Engine.InFlight p c inLen) := by
  cases cmd <;> obtain ⟨halg, hdir⟩ := OpSel.mk.inj hc
  case rleEncode => exact (rleEncodeBegin_keeps hlen hfits).map (RleEnc.inv.inFlight ⟨halg, hdir⟩)
  case rleDecode => exact (rleDecodeBegin_keeps hlen hfits).map (RleDec.inv.inFlight ⟨halg, hdir⟩)
  case lzEncode => exact (lzEncodeBegin_keeps hlen hfits hseed).map (LzEnc.inv.inFlight ⟨halg, hdir⟩)
  case lzDecode => exact (lzDecodeBegin_keeps hlen hfits hseed).map (LzDec.inv.inFlight ⟨halg, hdir⟩)

/-- The whole engine of a command word stays in legal states. -/
theorem engineOf_keeps (i : Instr) {x : List Byte} (hlen : x.length = inLen.toNat) (hfits : inLen.toNat ≤ p.inCap)
    (hseed : 256 ≤ p.dictCap) :
    (engineOf i p.limits x).Keeps p.limits (Engine.InFlight p (fieldsOf i) inLen) := by
  cases i with
  | rleEncode ie =>
    exact ((rleEncodeBegin_keeps hlen hfits).drive (fun _ => rleEncodeStep_keeps) _).map
      (RleEnc.inv.inFlight ⟨rfl, rfl⟩)
  | rleDecode ie =>
    exact ((rleDecodeBegin_keeps hlen hfits).drive (fun _ => rleDecodeStep_keeps) _).map
      (RleDec.inv.inFlight ⟨rfl, rfl⟩)
  | lzEncode ie =>
    exact ((lzEncodeBegin_keeps hlen hfits hseed).drive (fun _ => lzEncodeStep_keeps) _).map
      (LzEnc.inv.inFlight ⟨rfl, rfl⟩)
  | lzDecode ie =>
    exact ((lzDecodeBegin_keeps hlen hfits hseed).drive (fun _ => lzDecodeStep_keeps) _).map
      (LzDec.inv.inFlight ⟨rfl, rfl⟩)
  | unsupportedAlg ie alg dir => trivial

end

/-! ## Acceptance, the engine's turns and Finish -/

theorem Status.reset_legal : Status.reset.legal := by decide

theorem Status.atAcceptance_legal : Status.atAcceptance.legal := by decide

theorem Status.atFinishOk_legal : Status.atFinishOk.legal := by decide

theorem Status.atFinishError_legal (e : CodecError) : (Status.atFinishError e).legal := by
  cases e <;> decide

theorem State.resetLegal_of_not_inReset {s : State} (hr : s.inReset = false) : s.resetLegal :=
  fun hreset => nomatch hr.symm.trans hreset

section
variable {s : State}

theorem State.Inv.inMem_legal (h : s.Inv) : s.inMem.wf ∧ s.inMem.within s.params.inCap := by
  obtain ⟨-, -, -, -, ⟨hwf, hin, -, -⟩, -, -, -⟩ := h
  exact ⟨hwf, hin⟩

/-- The seed fits in DICT_CAP. -/
theorem State.Inv.seed_fits (h : s.Inv) : 256 ≤ s.params.dictCap := by
  obtain ⟨⟨-, -, -, -, -, hseed, -⟩, -⟩ := h
  exact hseed

/-- A busy block is not in reset. -/
theorem State.Inv.inReset_of_busy (h : s.Inv) (hbusy : s.status.busy = true) : s.inReset = false := by
  obtain ⟨-, -, -, -, -, -, -, hreset⟩ := h
  cases hr : s.inReset with
  | false => rfl
  | true =>
    obtain ⟨-, hstatus, -⟩ := hreset hr
    rw [hstatus] at hbusy
    cases hbusy

/-- An idle block has an idle engine. -/
theorem State.Inv.engine_of_idle (h : s.Inv) (hidle : s.status.busy = false) : s.engine = .idle := by
  obtain ⟨-, -, hphase, -⟩ := h
  exact Engine.phase_eq_idle.mp (hphase.mpr hidle)

/-- A block whose engine runs is busy, and its engine state is legal. -/
theorem State.Inv.inFlight (h : s.Inv) {e : Engine} (he : s.engine = e) (hrun : e.phase = .run) :
    s.status.busy = true ∧ e.legal s.params s.ctrl s.inLen := by
  obtain ⟨-, -, hphase, -, -, -, hengine, -⟩ := h
  subst he
  refine ⟨?_, hengine⟩
  cases hbusy : s.status.busy with
  | true => rfl
  | false => exact nomatch hrun.symm.trans (hphase.mpr hbusy)

theorem State.Inv.accept (h : s.Inv) (hr : s.inReset = false) (c : Ctrl) : (s.accept c).Inv := by
  obtain ⟨hparams, -, -, hcode, ⟨hinMem, hin, -, -⟩, -, -, -⟩ := h
  exact ⟨hparams, Status.atAcceptance_legal, ⟨nofun, nofun⟩, hcode, ⟨hinMem, hin, .nil, nofun⟩,
    ⟨fun _ => rfl, nofun, nofun⟩, ⟨rfl, rfl⟩, State.resetLegal_of_not_inReset hr⟩

theorem State.Inv.takeInput (h : s.Inv) (n : Nat) : (s.takeInput n).Inv := h

theorem State.Inv.finishError (h : s.Inv) (hr : s.inReset = false) (e : CodecError) :
    (s.finishError e).Inv := by
  obtain ⟨hparams, -, -, hcode, ⟨hinMem, hin, -, -⟩, -, -, -⟩ := h
  exact ⟨hparams, Status.atFinishError_legal e, ⟨fun _ => rfl, fun _ => rfl⟩, hcode, ⟨hinMem, hin, .nil, nofun⟩,
    ⟨nofun, fun _ => rfl, nofun⟩, trivial, State.resetLegal_of_not_inReset hr⟩

theorem State.Inv.finishOk (h : s.Inv) (hr : s.inReset = false) {r : Result}
    (hfits : s.params.limits.Holds r.usage) : (s.finishOk r).Inv := by
  obtain ⟨hparams, -, -, -, ⟨hinMem, hin, -, -⟩, -, -, -⟩ := h
  obtain ⟨hout, hcode⟩ := Params.holds_limits.mp hfits
  have hlen : (BitVec.ofNat 32 r.out.length).toNat = r.out.length := by
    obtain ⟨-, -, -, -, houtCap, -⟩ := hparams
    exact Nat.mod_eq_of_lt (by dsimp only at hout; omega)
  refine ⟨hparams, Status.atFinishOk_legal, ⟨fun _ => rfl, fun _ => rfl⟩, ?_,
    ⟨hinMem, hin, Memory.ofBytes_wf 0 _, Memory.ofBytes_within hout⟩, ⟨nofun, nofun, fun _ => ?_⟩, trivial,
    State.resetLegal_of_not_inReset hr⟩
  · exact (Nat.mod_le _ _).trans hcode
  · rw [State.finishOk_outMem, State.finishOk_outLen, hlen, Memory.map_fst_ofBytes, List.range_eq_range']

/-- A legal engine has emitted no more than OUT_CAP bytes. -/
theorem Engine.out_length_le {e : Engine} {p : Params} {c : Ctrl} {inLen : Word} (h : e.legal p c inLen) :
    e.out.length ≤ p.outCap := by
  cases e
  case idle | start => exact Nat.zero_le _
  all_goals
    obtain ⟨-, -, ⟨-, -, -, hout⟩, -⟩ := h
    exact hout

/-- An engine turn of a command in flight, to a legal engine state, to an output that fits or to an error. -/
theorem State.Inv.settle (h : s.Inv) (hbusy : s.status.busy = true) {t : Turn Engine}
    (ht : t.Keeps s.params.limits (Engine.InFlight s.params s.ctrl s.inLen)) : (s.settle t).Inv := by
  have hr := h.inReset_of_busy hbusy
  cases t with
  | ok r => exact h.finishOk hr ht
  | fail err => exact h.finishError hr err
  | more e =>
    obtain ⟨hrun, hengine⟩ := ht
    obtain ⟨hparams, hstatus, -, hcode, ⟨hinMem, hin, -, -⟩, -, -, -⟩ := h
    obtain ⟨-, herr, -⟩ := hstatus.1 hbusy
    refine ⟨hparams, hstatus, ⟨fun hidle => ?_, fun hidle => ?_⟩, hcode,
      ⟨hinMem, hin, Memory.ofBytes_wf 0 _, Memory.ofBytes_within (Engine.out_length_le hengine)⟩,
      ⟨fun _ => rfl, fun herr' => ?_, fun hspec => ?_⟩, hengine, State.resetLegal_of_not_inReset hr⟩
    · exact nomatch hrun.symm.trans hidle
    · exact nomatch hbusy.symm.trans hidle
    · exact nomatch herr.symm.trans herr'
    · simp [State.resultsSpecified, settle_more, hbusy] at hspec

theorem State.Inv.startTurn (h : s.Inv) (hbusy : s.status.busy = true) {sel : OpSel}
    (hsel : sel = { alg := s.ctrl.alg, dir := s.ctrl.dir }) : (s.startTurn sel s.inLen).Inv := by
  have hr := h.inReset_of_busy hbusy
  unfold State.startTurn
  split
  · exact h.finishError hr _
  · exact h.finishError hr _
  · next cmd hcheck hcmd =>
    obtain ⟨-, hfits⟩ := startError_none.mp hcheck
    have hkeeps := cmd.begin_keeps (hsel.symm.trans (OpSel.eq_selector_of_command hcmd))
      (inputBytes_length s s.inLen.toNat) hfits h.seed_fits
    exact (h.takeInput _).settle hbusy hkeeps

/-- One engine step keeps the invariant. -/
theorem State.Inv.engineTurn (h : s.Inv) : s.engineTurn.Inv := by
  unfold State.engineTurn
  cases hs : s.engine with
  | idle => exact h
  | start sel n =>
    obtain ⟨hbusy, hsel, rfl⟩ := h.inFlight hs rfl
    exact h.startTurn hbusy hsel
  | rleEncode e =>
    obtain ⟨hbusy, halg, hdir, he⟩ := h.inFlight hs rfl
    exact h.settle hbusy ((rleEncodeStep_keeps he).map (RleEnc.inv.inFlight ⟨halg, hdir⟩))
  | rleDecode e =>
    obtain ⟨hbusy, halg, hdir, he⟩ := h.inFlight hs rfl
    exact h.settle hbusy ((rleDecodeStep_keeps he).map (RleDec.inv.inFlight ⟨halg, hdir⟩))
  | lzEncode e =>
    obtain ⟨hbusy, halg, hdir, he⟩ := h.inFlight hs rfl
    exact h.settle hbusy ((lzEncodeStep_keeps he).map (LzEnc.inv.inFlight ⟨halg, hdir⟩))
  | lzDecode e =>
    obtain ⟨hbusy, halg, hdir, he⟩ := h.inFlight hs rfl
    exact h.settle hbusy ((lzDecodeStep_keeps he).map (LzDec.inv.inFlight ⟨halg, hdir⟩))

/-- A command word, taken from acceptance to Finish, keeps the invariant. -/
theorem State.Inv.exec {i : Instr} {t : State} (h : s.Inv) (hexec : exec i s = .next t) : t.Inv := by
  rcases exec_cases hexec with ⟨-, rfl⟩ | ⟨hr, -, rfl⟩
  · exact h
  · have haccept := h.accept hr (fieldsOf i)
    unfold State.perform
    split
    · exact haccept.finishError hr _
    · next hcheck =>
      obtain ⟨-, hfits⟩ := startError_none.mp hcheck
      exact (haccept.takeInput _).settle rfl
        (engineOf_keeps i (inputBytes_length (s.accept (fieldsOf i)) s.inLen.toNat) hfits h.seed_fits)

/-! ## The host port and reset -/

/-- While the block is idle and reset is not asserted, CTRL, IN_LEN and DONE are free, and so is IN_MEM inside its
capacity. -/
theorem State.Inv.hostUpdate (h : s.Inv) (hr : s.inReset = false) (hidle : s.status.busy = false)
    (c : Ctrl) (inLen : Word) (done : Bool) {m : Memory} (hwf : m.wf) (hin : m.within s.params.inCap) :
    State.Inv { s with ctrl := c, inLen := inLen, status := { s.status with done := done }, inMem := m } := by
  have hengine := h.engine_of_idle hidle
  obtain ⟨hparams, ⟨-, herr, hcode⟩, hphase, hnext, ⟨-, -, hout⟩, ⟨-, hfail, hspec⟩, -, -⟩ := h
  refine ⟨hparams, ⟨fun hbusy => (nomatch hidle.symm.trans hbusy), herr, hcode⟩, hphase, hnext, ⟨hwf, hin, hout⟩,
    ⟨fun hbusy => (nomatch hidle.symm.trans hbusy), hfail, hspec⟩, ?_, State.resetLegal_of_not_inReset hr⟩
  rw [hengine]
  trivial

theorem State.Inv.writeCtrl (h : s.Inv) (w : Word) : (s.writeCtrl w).Inv := by
  cases hr : s.inReset with
  | true => rwa [writeCtrl_inReset hr]
  | false =>
    cases hbusy : s.status.busy with
    | true => rwa [writeCtrl_busy hbusy]
    | false =>
      cases hstart : w.getLsbD 0 with
      | true =>
        rw [writeCtrl_start ⟨hr, hbusy⟩ hstart]
        exact h.accept hr _
      | false =>
        obtain ⟨hwf, hin⟩ := h.inMem_legal
        rw [writeCtrl_noStart ⟨hr, hbusy⟩ hstart]
        exact h.hostUpdate hr hbusy _ _ _ hwf hin

theorem State.Inv.writeReg (h : s.Inv) (hr : s.inReset = false) (r : RegName) (w : Word) :
    (s.writeReg r w).Inv := by
  obtain ⟨hwf, hin⟩ := h.inMem_legal
  cases hbusy : s.status.busy with
  | true => rwa [writeReg_busy hbusy]
  | false =>
    cases r
    case ctrl => exact h.writeCtrl w
    case status =>
      rw [writeReg_status_idle hbusy, Status.afterWrite]
      split_ifs
      · exact h.hostUpdate hr hbusy _ _ _ hwf hin
      · exact h
    case inLen =>
      rw [writeReg_inLen_idle hbusy]
      exact h.hostUpdate hr hbusy _ _ _ hwf hin
    all_goals exact h

theorem State.Inv.writeIn (h : s.Inv) (hr : s.inReset = false) {i : Nat} (hi : i < s.params.inCap)
    (v : Byte) : (s.writeIn i v).Inv := by
  obtain ⟨hwf, hin⟩ := h.inMem_legal
  cases hbusy : s.status.busy with
  | true => rwa [writeIn_busy hbusy]
  | false =>
    rw [writeIn_idle hbusy]
    exact h.hostUpdate hr hbusy _ _ _ (Memory.write_wf i v hwf) (Memory.write_within v hin hi)

theorem State.inv_resetTo (h : s.params.legal) (level : Bool) : (s.resetTo level).Inv :=
  ⟨h, Status.reset_legal, ⟨fun _ => rfl, fun _ => rfl⟩, Nat.zero_le _, ⟨.nil, nofun, .nil, nofun⟩,
    ⟨nofun, fun _ => rfl, fun _ => rfl⟩, trivial, fun _ => ⟨rfl, rfl, rfl, rfl, rfl, rfl, rfl⟩⟩

theorem State.Inv.access (h : s.Inv) (a : Access) : (s.access a).Inv := by
  obtain ⟨t, resp, k, haccess, heffect⟩ := access_effect s a
  have ht : t.Inv := by
    rcases heffect with rfl | ⟨hr, ⟨r, w, rfl⟩ | ⟨i, v, hi, rfl⟩⟩
    · exact h
    · exact h.writeReg hr r w
    · exact h.writeIn hr hi v
  rw [haccess]
  exact ht

end

/-! ## Every step -/

theorem inv_keptByOperations : KeptByOperations State.Inv where
  pop _ h := h
  answerWrite h := h
  access a h := h.access a
  exec _ h hexec := h.exec hexec
  writeCtrl w h := h.writeCtrl w
  engineTurn h := h.engineTurn
  resetTo level h := State.inv_resetTo h.1 level

/-- Settles O37: every operation a step can run keeps the invariant. -/
theorem stepKeepsInv : Obligations.StepKeepsInv := fun _ _ => inv_keptByOperations.step

/-! ## From reset on -/

/-- The configured parameters are in the ranges of 00_scope.md R6. -/
theorem State.reset_params_legal : State.reset.params.legal := by
  have hbase : State.reset.params.base = Config.baseIndex * 2 ^ 26 := rfl
  have hinCap : State.reset.params.inCap = Config.inCapIndex.val + 1 := rfl
  have houtCap : State.reset.params.outCap = Config.outCapIndex.val + 1 := rfl
  have hdictCap : State.reset.params.dictCap = Config.dictCapIndex.val + 256 := rfl
  have hin := Config.inCapIndex.isLt
  have hout := Config.outCapIndex.isLt
  have hdict := Config.dictCapIndex.isLt
  refine ⟨?_, ?_, ?_, ?_, ?_, ?_, ?_⟩ <;> omega

/-- Settles O36: the reset input gives the invariant, and `State.reset` is what it gives. -/
theorem invHoldsAtReset : Obligations.InvHoldsAtReset := State.inv_resetTo State.reset_params_legal false

theorem inv_of_run_reset {inputs : List Input} {k : Nat} {s : State}
    (h : Host.Core.run Sys2Proof.core k { State.reset with inputs := inputs } = .next s) : s.Inv :=
  inv_keptByOperations.run k (inv_keptByOperations.pop inputs invHoldsAtReset) h

theorem mem_errcodes : ∀ c : BitVec 4, c.toNat ≤ 5 → c ∈ [0#4, 1#4, 2#4, 3#4, 4#4, 5#4] := by decide

theorem CodecError.exists_code {c : BitVec 4} (hne : c ≠ 0#4) (hle : c.toNat ≤ 5) :
    ∃ e : CodecError, e.code = c := by
  have hcodes : [0#4, 1#4, 2#4, 3#4, 4#4, 5#4] =
      0#4 :: [malformedStream, invalidCode, unsupportedAlgorithm, invalidInputType, capacityExceeded].map code := rfl
  have hmem := mem_errcodes c hle
  rw [hcodes, List.mem_cons] at hmem
  obtain ⟨e, -, he⟩ := List.mem_map.mp (hmem.resolve_left hne)
  exact ⟨e, he⟩

/-- A legal STATUS is that of a command in flight, of an idle block without an error, or of one with an error. -/
theorem Status.legal_cases {t : Status} (h : t.legal) :
    t = Status.atAcceptance ∨ (∃ done, t = { Status.reset with done := done }) ∨
      ∃ e done, t = { Status.atFinishError e with done := done } := by
  obtain ⟨busy, done, err, errcode⟩ := t
  obtain ⟨hbusy, herr, hcode⟩ := h
  cases busy with
  | true =>
    obtain ⟨rfl, rfl, rfl⟩ := hbusy rfl
    exact .inl rfl
  | false =>
    cases err with
    | false =>
      obtain rfl := herr.mp rfl
      exact .inr (.inl ⟨done, rfl⟩)
    | true =>
      obtain ⟨e, rfl⟩ := CodecError.exists_code (fun hzero => nomatch herr.mpr hzero) hcode
      exact .inr (.inr ⟨e, done, rfl⟩)

/-- The thirteen values of STATUS (10_state.md R26). -/
theorem Status.toWord_mem {t : Status} (h : t.legal) :
    t.toWord ∈ [0x00#32, 0x01#32, 0x02#32, 0x16#32, 0x26#32, 0x36#32, 0x46#32, 0x56#32, 0x14#32, 0x24#32, 0x34#32,
      0x44#32, 0x54#32] := by
  rcases Status.legal_cases h with rfl | ⟨done, rfl⟩ | ⟨e, done, rfl⟩
  · decide
  · cases done <;> decide
  · cases e <;> cases done <;> decide

/-- Settles O10: the invariant holds of every state a run reaches from reset, and it keeps STATUS legal. -/
theorem statusInReachableStates : Obligations.StatusInReachableStates := by
  intro inputs k s hrun
  obtain ⟨-, hstatus, -⟩ := inv_of_run_reset hrun
  obtain ⟨hbusy, herr, hcode⟩ := id hstatus
  obtain ⟨-, -, -, hthree, -⟩ := s.status.toWord_fields
  exact ⟨hbusy, herr, mem_errcodes _ hcode, hthree, fun _ => s.status.toWord_getLsbD_of_ge, Status.toWord_mem hstatus⟩

end Sys2Proof.Machine
end

section
/-! The statements about single registers (10_state.md R22 to R34, R43) and about commands that are ignored. -/

namespace Sys2Proof.Machine

/-! ## CTRL -/

/-- Settles O6: CTRL always has a specified value, its word. -/
theorem ctrlReadReturnsFields : Obligations.CtrlReadReturnsFields := by
  intro s hr
  obtain ⟨hie, halg, hdir, hstart⟩ := s.ctrl.toWord_fields
  exact ⟨s.ctrl.toWord, access_read_value hr (r := .ctrl) rfl, hie, halg, hdir, hstart,
    fun _ => s.ctrl.toWord_getLsbD_of_ge⟩

/-- Settles O7: the three cases of `writeCtrl` outside reset. -/
theorem ctrlWriteAndAcceptance : Obligations.CtrlWriteAndAcceptance := by
  intro s w hr t c
  have ht : t = { s.writeCtrl w with response := .done } := access_write_reg hr .ctrl w
  refine ⟨fun hbusy => ?_, fun hidle hstart => ?_, fun hidle hstart => ?_⟩
  · rw [ht, writeCtrl_busy hbusy]
  · rw [ht, writeCtrl_noStart ⟨hr, hidle⟩ hstart]
    rfl
  · rw [ht, writeCtrl_start ⟨hr, hidle⟩ hstart]
    exact ⟨rfl, rfl, rfl⟩

/-! ## STATUS -/

/-- Settles O8: a write of STATUS while idle is `afterWrite`, which looks at bit 1 alone. -/
theorem statusWriteClearsDoneOnly : Obligations.StatusWriteClearsDoneOnly := by
  intro s w hr t
  have ht : t = { s.writeReg .status w with response := .done } := access_write_reg hr .status w
  refine ⟨fun hbusy => ?_, fun hidle hbit => ?_, fun hidle hbit => ?_⟩
  · rw [ht, writeReg_busy hbusy]
  · rw [ht, writeReg_status_idle hidle, Status.afterWrite, hbit]
    rfl
  · rw [ht, writeReg_status_idle hidle, Status.afterWrite, hbit]
    exact ⟨rfl, rfl, rfl, rfl⟩

/-- Settles O9: STATUS always has a specified value, its word. -/
theorem statusReadReturnsFields : Obligations.StatusReadReturnsFields := by
  intro s hr
  obtain ⟨hbusy, hdone, herr, hthree, hcode⟩ := s.status.toWord_fields
  exact ⟨s.status.toWord, access_read_value hr (r := .status) rfl, hbusy, hdone, herr, hthree, hcode,
    fun _ => s.status.toWord_getLsbD_of_ge⟩

/-! ## IN_LEN -/

/-- Settles O11: IN_LEN takes the word as it is, and the start checks of the next command see it. -/
theorem inLenHoldsAnyValue : Obligations.InLenHoldsAnyValue := by
  intro s v hr hidle t
  have ht : t = { s with inLen := v, response := .done } :=
    (access_write_reg hr .inLen v).trans (by rw [writeReg_inLen_idle hidle])
  clear_value t
  subst ht
  refine ⟨rfl, access_read_value (s := { s with inLen := v, response := .done }) hr (r := .inLen) rfl,
    fun hlong ie => ⟨?_, ?_, ?_, ?_⟩⟩
  all_goals
    rw [exec_eq_issue]
    exact issue_tooLong _ ⟨hr, hidle⟩ nofun hlong

/-! ## Writes that are ignored -/

/-- Settles O12: the writes to CTRL, STATUS, IN_LEN and IN_MEM all look at BUSY first. -/
theorem busyWritesAreIgnored : Obligations.BusyWritesAreIgnored := by
  intro s hr hbusy hp
  refine ⟨fun off w hoff => ?_, fun j v hj => ?_⟩
  · obtain ⟨r, -, rfl⟩ := List.mem_map.mp (show off ∈ [RegName.ctrl, .status, .inLen].map RegName.offset from hoff)
    rw [access_write_reg hr, writeReg_busy hbusy]
  · rw [access_write_inMem hr hp hj, writeIn_busy hbusy]

/-- Settles O13: a write to a read-only register is the bus answer alone. -/
theorem readOnlyRegisterWritesIgnored : Obligations.ReadOnlyRegisterWritesIgnored := by
  intro s off w hr hoff
  obtain ⟨r, hmem, rfl⟩ := List.mem_map.mp (show off ∈
    [RegName.outLen, .tokenCount, .nextCode, .inCapR, .outCapR, .dictCapR].map RegName.offset from hoff)
  rw [access_write_reg hr, writeReg_readOnly hmem]

/-- Settles O28: every command word is an `issue`, which looks at reset and BUSY first. -/
theorem commandsAreIgnoredWhileBusyOrInReset : Obligations.CommandsAreIgnoredWhileBusyOrInReset := by
  intro i s h
  rw [exec_eq_issue, issue_busy_or_inReset h]

/-! ## The result registers -/

theorem resultsSpecified_iff {s : State} :
    s.resultsSpecified = true ↔ ¬ (s.status.busy = true ∨ s.status.err = true) := by
  simp [State.resultsSpecified]

/-- A read of a register whose value is `v` just while the results are specified (10_state.md R34). -/
theorem access_read_result {s : State} (hr : s.inReset = false) {r : RegName} {v : Word}
    (hv : s.regValue r = if s.resultsSpecified then some v else none) :
    s.access (.read 4 (s.params.base + r.offset)) =
      if s.status.busy = true ∨ s.status.err = true then
        { s with
          response := .data (lanesOfWord (Config.hostWordDraw s.hostDraws))
          hostDraws := s.hostDraws + 1 }
      else { s with response := .data (lanesOfWord v) } := by
  split_ifs with hunspecified
  · exact access_read_draw hr (hv.trans (if_neg fun hspec => resultsSpecified_iff.mp hspec hunspecified))
  · exact access_read_value hr (hv.trans (if_pos (resultsSpecified_iff.mpr hunspecified)))

/-- Settles O15: the three result registers are specified together. -/
theorem resultRegisterReads : Obligations.ResultRegisterReads := by
  intro s off v hr hmem
  simp only [List.mem_cons, Prod.mk.injEq, List.not_mem_nil, or_false] at hmem
  rcases hmem with ⟨rfl, rfl⟩ | ⟨rfl, rfl⟩ | ⟨rfl, rfl⟩
  · exact access_read_result hr (r := .outLen) rfl
  · exact access_read_result hr (r := .tokenCount) rfl
  · exact access_read_result hr (r := .nextCode) rfl

/-! ## Reset -/

/-- Settles O24: the fields of `State.reset`, and reads of empty buffers. -/
theorem resetValues : Obligations.ResetValues :=
  ⟨by decide, by decide, rfl, rfl, rfl, rfl, rfl, rfl, fun _ => rfl, fun _ => rfl⟩

end Sys2Proof.Machine
end

section
/-! Every engine finishes (40_control.md R129): each step that goes on leaves less of the input to take, under any
capacities, and a run has fuel for all of it. -/

namespace Sys2Proof.Machine

/-! ## Turns that finish -/

section
variable {α β : Type} {t : Turn α}

theorem Turn.goesOnWith_iff {P : α → Prop} : t.GoesOnWith P ↔ ∀ e, t = .more e → P e := by
  cases t <;> simp [Turn.GoesOnWith]

/-- The turn is a Finish: OK or with an error. -/
abbrev Turn.Finishes (t : Turn α) : Prop := ∀ e, t ≠ .more e

theorem Turn.finishes_iff : t.Finishes ↔ (∃ r, t = .ok r) ∨ ∃ err, t = .fail err := by
  cases t <;> simp [Turn.Finishes]

theorem Turn.Finishes.map (h : t.Finishes) (f : α → β) : (t.map f).Finishes := by
  rcases Turn.finishes_iff.mp h with ⟨r, rfl⟩ | ⟨err, rfl⟩ <;> exact nofun

/-- Steps that each leave less than before finish within as much fuel as the first turn leaves. -/
theorem Turn.drive_finishes {f : α → Turn α} (left : α → Nat) {fuel : Nat}
    (hfirst : t.GoesOnWith fun e => left e < fuel) (hstep : ∀ e, (f e).GoesOnWith fun e' => left e' < left e) :
    (t.drive f fuel).Finishes := by
  cases t with
  | more e =>
    exact Sys2Proof.Machine.drive_finishes (P := fun _ => True) left
      (fun e₁ e₂ _ h => ⟨trivial, Turn.goesOnWith_iff.mp (hstep e₁) e₂ h⟩) fuel e trivial hfirst
  | ok r => exact nofun
  | fail err => exact nofun

end

/-! ## What the four engines have left -/

/-- The input bytes not taken yet. -/
def Io.left (io : Io) : Nat := io.x.length - io.ip

/-- The bytes from the next field on. -/
def LzDec.left (e : LzDec) : Nat := e.io.x.length - e.fs

theorem emitToken_ok {lim : Limits} {vs : List Byte} {io io' : Io} (h : emitToken lim vs io = .ok io') :
    io' = io.token vs := by
  cases hemit : emitAll lim vs io with
  | error err =>
    rw [emitToken, hemit] at h
    cases h
  | ok io₁ =>
    obtain rfl := emitAll_ok hemit
    rw [emitToken, hemit] at h
    cases h
    rfl

theorem Io.left_take {io : Io} {k : Nat} (h : io.ip + k < io.x.length) :
    Io.left { io with ip := io.ip + (k + 1) } < io.left := by
  simp only [Io.left]
  omega

section
variable {lim : Limits}

theorem rleEncodeStep_progress (e : RleEnc) :
    (rleEncodeStep lim e).GoesOnWith fun e' => e'.io.left < e.io.left := by
  obtain ⟨io, run⟩ := e
  simp only [rleEncodeStep, emitRun_eq_emitToken]
  cases hbyte : io.x[io.ip]? with
  | some b =>
    have htake := Io.left_take (k := 0) (Io.lt_of_getElem? hbyte)
    cases run with
    | none => exact htake
    | some r =>
      dsimp only
      split_ifs
      · exact htake
      · split
        · next hemit =>
          rw [emitToken_ok hemit]
          exact htake
        · trivial
  | none =>
    cases run with
    | none => trivial
    | some r =>
      dsimp only
      split <;> trivial

theorem rleDecodeStep_progress (e : RleDec) :
    (rleDecodeStep lim e).GoesOnWith fun e' => e'.io.left < e.io.left := by
  simp only [rleDecodeStep]
  cases htake : takePair e with
  | none => trivial
  | some taken =>
    cases taken with
    | error err => trivial
    | ok e' =>
      obtain ⟨pair, rfl, hlt⟩ := takePair_ok htake
      dsimp only
      by_cases hzero : pair.r = 0#8
      · rw [expandPair, if_pos hzero]
        trivial
      · rw [expandPair_eq_emitToken _ hzero]
        split
        · next hemit =>
          rw [emitToken_ok hemit]
          exact Io.left_take (k := 1) hlt
        · trivial

theorem lzEncodeStep_progress (e : LzEnc) :
    (lzEncodeStep lim e).GoesOnWith fun e' => e'.io.left < e.io.left := by
  obtain ⟨io, d, cur⟩ := e
  simp only [lzEncodeStep, emitCode_eq_emitToken]
  cases hbyte : io.x[io.ip]? with
  | some b =>
    have htake := Io.left_take (k := 0) (Io.lt_of_getElem? hbyte)
    cases cur with
    | none => exact htake
    | some p =>
      dsimp only
      by_cases hhas : d.has (p.snoc b) = true
      · rw [if_pos hhas]
        exact htake
      · rw [if_neg hhas]
        split
        · trivial
        · next hemit =>
          split_ifs
          · trivial
          · rw [emitToken_ok hemit]
            exact htake
  | none =>
    cases cur with
    | none => trivial
    | some p =>
      dsimp only
      split <;> trivial

theorem lzDecodeStep_progress (e : LzDec) :
    (lzDecodeStep lim e).GoesOnWith fun e' => e'.left < e.left := by
  simp only [lzDecodeStep]
  cases parseField (fieldAt e.io.x e.fs) with
  | error err => trivial
  | ok c =>
    dsimp only
    cases resolveCode e.dict e.prev c with
    | none => trivial
    | some entry =>
      dsimp only
      cases hemit : emitAll lim entry.bytes { e.io with ip := e.fs + (fieldAt e.io.x e.fs).length } with
      | error err => trivial
      | ok io =>
        obtain rfl := emitAll_ok hemit
        dsimp only
        cases appendEntry lim e.dict e.prev entry with
        | error err => trivial
        | ok d =>
          dsimp only
          split_ifs with hlast
          · simp only [Turn.GoesOnWith, LzDec.left, Io.n] at hlast ⊢
            omega
          · trivial

end

/-! ## The four runs -/

theorem Io.left_begin_lt (x : List Byte) : (Io.begin x).left < x.length + 1 := Nat.lt_succ_of_le (Nat.sub_le _ _)

/-- Every command's engine finishes, whatever its input and the capacities. -/
theorem engineOf_finishes (i : Instr) (lim : Limits) (x : List Byte) : (engineOf i lim x).Finishes := by
  cases i with
  | rleEncode ie =>
    refine (Turn.drive_finishes (fun e : RleEnc => e.io.left) ?_ rleEncodeStep_progress).map _
    exact Io.left_begin_lt x
  | rleDecode ie =>
    refine (Turn.drive_finishes (fun e : RleDec => e.io.left) ?_ rleDecodeStep_progress).map _
    rw [rleDecodeBegin]
    split_ifs
    · trivial
    · exact Io.left_begin_lt x
  | lzEncode ie =>
    refine (Turn.drive_finishes (fun e : LzEnc => e.io.left) ?_ lzEncodeStep_progress).map _
    exact Io.left_begin_lt x
  | lzDecode ie =>
    refine (Turn.drive_finishes LzDec.left ?_ lzDecodeStep_progress).map _
    rw [lzDecodeBegin]
    split_ifs
    · trivial
    · exact Nat.lt_succ_self _
  | unsupportedAlg ie alg dir => exact nofun

end Sys2Proof.Machine
end

section
/-! A command from acceptance to Finish: it completes with its engine's result, or it fails. -/

namespace Sys2Proof.Machine

/-- The CTRL fields that a command word carries are those its row fixes (30_encoding.md R90, R91). -/
theorem ctrl_ofWord_encode (i : Instr) : Ctrl.ofWord (encode i) = fieldsOf i := by
  cases i with
  | rleEncode ie => cases ie <;> rfl
  | rleDecode ie => cases ie <;> rfl
  | lzEncode ie => cases ie <;> rfl
  | lzDecode ie => cases ie <;> rfl
  | unsupportedAlg ie alg dir =>
    revert ie alg dir
    decide

theorem exec_notReady {i : Instr} {s t : State} (h : exec i s = .next t) (hready : ¬ s.idleReady) : t = s := by
  rcases exec_cases h with ⟨-, ht⟩ | ⟨hr, hidle, -⟩
  · exact ht
  · exact absurd ⟨hr, hidle⟩ hready

/-- A command that is taken completes with its engine's result on the input, fails with its engine's error, or fails at
the start checks with no input taken (40_control.md R122, R127, R128). -/
theorem exec_outcome {i : Instr} {s t : State} (h : exec i s = .next t) (hready : s.idleReady) :
    (∃ r, engineOf i s.params.limits s.input = .ok r ∧ t = s.completed (fieldsOf i) r) ∨
      (∃ e, engineOf i s.params.limits s.input = .fail e ∧ t = s.failed (fieldsOf i) e s.inLen.toNat) ∨
      ∃ e, startError s.params { alg := (fieldsOf i).alg, dir := (fieldsOf i).dir } s.inLen = some e ∧
        t = s.failed (fieldsOf i) e 0 := by
  obtain ⟨hr, hidle⟩ := hready
  rcases exec_cases h with ⟨hbusy | hreset, -⟩ | ⟨-, -, rfl⟩
  · exact nomatch hidle.symm.trans hbusy
  · exact nomatch hr.symm.trans hreset
  · cases hcheck : startError s.params { alg := (fieldsOf i).alg, dir := (fieldsOf i).dir } s.inLen with
    | some e => exact .inr (.inr ⟨e, rfl, perform_of_startError (s := s.accept (fieldsOf i)) hcheck⟩)
    | none =>
      have hperform := perform_of_startOk (run := engineOf i) (s := s.accept (fieldsOf i)) hcheck
      have hinput : (s.accept (fieldsOf i)).inputBytes s.inLen.toNat = s.input := rfl
      rw [hinput, State.accept_params] at hperform
      rw [hperform]
      rcases Turn.finishes_iff.mp (engineOf_finishes i s.params.limits s.input) with ⟨r, hrun⟩ | ⟨e, hrun⟩
      · exact .inl ⟨r, hrun, by rw [hrun]; rfl⟩
      · exact .inr (.inl ⟨e, hrun, by rw [hrun]; rfl⟩)

theorem Memory.read_ofBytes_zero (out : List Byte) (j : Nat) : (Memory.ofBytes 0 out).read j = out[j]? := by
  rw [← Memory.read_ofBytes 0, Nat.zero_add]

/-- Settles O32: a command that is not taken is no change, and both ways a taken one ends are whole next states. -/
theorem commandFrame : Obligations.CommandFrame := by
  intro i s t h
  rw [ctrl_ofWord_encode]
  by_cases hready : s.idleReady
  · have hends : (∃ r, t = s.completed (fieldsOf i) r) ∨ ∃ e k, t = s.failed (fieldsOf i) e k := by
      rcases exec_outcome h hready with ⟨r, -, ht⟩ | ⟨e, -, ht⟩ | ⟨e, -, ht⟩
      · exact .inl ⟨r, ht⟩
      · exact .inr ⟨e, _, ht⟩
      · exact .inr ⟨e, _, ht⟩
    rcases hends with ⟨r, rfl⟩ | ⟨e, k, rfl⟩
    · exact ⟨rfl, rfl, fun _ => rfl, rfl, rfl, rfl, rfl, rfl, fun hnot => absurd hready hnot, fun _ => rfl,
        fun _ => ⟨r.out, rfl, Memory.read_ofBytes_zero r.out, rfl⟩, nofun⟩
    · exact ⟨rfl, rfl, fun _ => rfl, rfl, rfl, rfl, rfl, rfl, fun hnot => absurd hready hnot, fun _ => rfl,
        fun _ => ⟨[], rfl, fun _ => rfl, rfl⟩, fun _ _ => ⟨rfl, rfl, rfl⟩⟩
  · obtain rfl := exec_notReady h hready
    exact ⟨rfl, rfl, fun _ => rfl, rfl, rfl, rfl, rfl, rfl, fun _ => rfl, fun hr => absurd hr hready,
      fun hr => absurd hr hready, fun _ hr => absurd hr hready⟩

end Sys2Proof.Machine
end

section
/-! The address map read backwards, and host accesses to the buffers (20_memory.md R60 to R70). -/

namespace Sys2Proof.Machine

/-! ## What an access reaches -/

theorem addr_of_offset? {p : Params} {addr off : Nat} (h : p.offset? addr = some off) : addr = p.base + off := by
  unfold Params.offset? at h
  split_ifs at h with hin
  have hoff := Option.some.inj h
  omega

/-- Everything a legal access can reach, with the offset and the width that reach it (20_memory.md R61 to R63). -/
theorem targetAt_cases {p : Params} {off width : Nat} {t : Target} (h : targetAt p off width = some t) :
    (∃ r : RegName, t = .reg r ∧ off = r.offset ∧ width = 4) ∨
      (∃ i, t = .inByte i ∧ off = 0x01000000 + i ∧ i < p.inCap ∧ width = 1) ∨
      ∃ i, t = .outByte i ∧ off = 0x02000000 + i ∧ i < p.outCap ∧ width = 1 := by
  unfold targetAt at h
  split_ifs at h with hreg hwidth hin hwidth hout hwidth
  · obtain ⟨r, hr, rfl⟩ := Option.map_eq_some_iff.mp h
    have hoff := List.find?_some hr
    exact .inl ⟨r, rfl, (beq_iff_eq.mp hoff).symm, hwidth⟩
  · obtain ⟨hlo, hhi⟩ := hin
    simp only [inMemBase] at hlo hhi h
    exact .inr (.inl ⟨_, (Option.some.inj h).symm, by omega, by omega, hwidth⟩)
  · obtain ⟨hlo, hhi⟩ := hout
    simp only [outMemBase] at hlo hhi h
    exact .inr (.inr ⟨_, (Option.some.inj h).symm, by omega, by omega, hwidth⟩)

theorem RegName.offset_mem (r : RegName) :
    r.offset ∈ [0x000, 0x004, 0x008, 0x00C, 0x010, 0x014, 0x018, 0x01C, 0x020] := by
  cases r <;> decide

/-- Settles O17: an access that reaches nothing faults, what an access does reach is at an offset and of a width that
the hypothesis excludes, and a write that reaches OUT_MEM faults. -/
theorem illegalAccessesFault : Obligations.IllegalAccessesFault := by
  intro s a off hr hp haddr hlt hillegal
  have hoff : s.params.offset? a.addr = some off := haddr ▸ offset?_base_add s.params hlt
  rcases access_cases s a with ⟨hreset, -⟩ | ⟨-, hnone, -⟩ | ⟨off', -, hoff', ⟨-, h⟩ | ⟨t, ht, hmade⟩⟩
  · exact nomatch hr.symm.trans hreset
  · exact nomatch hoff.symm.trans hnone
  · exact h
  · obtain rfl := Option.some.inj (hoff.symm.trans hoff')
    obtain ⟨-, -, hinCap, -⟩ := hp
    rcases hillegal with ⟨hnotReg, hnotIn, hnotOut⟩ | ⟨hlo, -, lanes, hwrite⟩
    · rcases targetAt_cases ht with ⟨r, -, rfl, hwidth⟩ | ⟨i, -, rfl, hi, hwidth⟩ | ⟨i, -, rfl, hi, hwidth⟩
      · exact absurd ⟨hwidth, r.offset_mem⟩ hnotReg
      · exact absurd ⟨hwidth, by omega, by omega⟩ hnotIn
      · exact absurd ⟨hwidth, by omega, by omega⟩ hnotOut
    · rcases targetAt_cases ht with ⟨r, -, rfl, -⟩ | ⟨i, -, rfl, hi, -⟩ | ⟨i, rfl, -, -, -⟩
      · have hwindow : r.offset ≤ 0x020 := by cases r <;> decide
        omega
      · omega
      · rcases hmade with ⟨w, addr, rfl, -⟩ | ⟨addr, lanes', -, h⟩
        · cases hwrite
        · exact h

/-! ## Reads -/

section
variable {s : State}

theorem readTarget_specified {t : Target} {lanes : List Byte} (h : s.peek t = some lanes) :
    s.readTarget t = { s with response := .data lanes } := by
  rw [State.readTarget, h]

theorem readTarget_unspecified {t : Target} (h : s.peek t = none) :
    s.readTarget t = { s with response := .data (drawLanes s.hostDraws t), hostDraws := s.hostDraws + 1 } := by
  rw [State.readTarget, h]

theorem access_read_of_target (hr : s.inReset = false) {off width : Nat} (hoff : off < 2 ^ 26) {t : Target}
    (ht : targetAt s.params off width = some t) :
    s.access (.read width (s.params.base + off)) = s.readTarget t := by
  simp [State.access, hr, Access.addr, Access.width, offset?_base_add _ hoff, ht]

theorem access_read_inMem (hr : s.inReset = false) (hp : s.params.legal) {j : Nat} (hj : j < s.params.inCap) :
    s.access (.read 1 (s.params.base + 0x01000000 + j)) = s.readTarget (.inByte j) := by
  obtain ⟨-, -, hcap, -⟩ := hp
  rw [Nat.add_assoc, access_read_of_target hr (by omega) (targetAt_inMem hj)]

theorem targetAt_outMem {p : Params} (hp : p.legal) {j : Nat} (h : j < p.outCap) :
    targetAt p (0x02000000 + j) 1 = some (.outByte j) := by
  obtain ⟨-, -, hcap, -⟩ := hp
  have hwindow : ¬ 0x02000000 + j < 0x100 := by omega
  have hin : ¬ (inMemBase ≤ 0x02000000 + j ∧ 0x02000000 + j < inMemBase + p.inCap) := by
    rw [inMemBase]
    omega
  have hout : outMemBase ≤ 0x02000000 + j ∧ 0x02000000 + j < outMemBase + p.outCap :=
    ⟨Nat.le_add_right _ _, Nat.add_lt_add_left h _⟩
  rw [targetAt, if_neg hwindow, if_neg hin, if_pos hout, if_pos rfl, outMemBase, Nat.add_sub_cancel_left]

theorem access_read_outMem (hr : s.inReset = false) (hp : s.params.legal) {j : Nat} (hj : j < s.params.outCap) :
    s.access (.read 1 (s.params.base + 0x02000000 + j)) = s.readTarget (.outByte j) := by
  have ht := targetAt_outMem hp hj
  obtain ⟨-, -, -, -, hcap, -⟩ := hp
  rw [Nat.add_assoc, access_read_of_target hr (by omega) ht]

theorem access_read_inMem_value (hr : s.inReset = false) (hp : s.params.legal) {j : Nat} (hj : j < s.params.inCap)
    {v : Byte} (hv : s.inMem.read j = some v) :
    s.access (.read 1 (s.params.base + 0x01000000 + j)) = { s with response := .data [v] } := by
  rw [access_read_inMem hr hp hj, readTarget_specified (by rw [State.peek, hv]; rfl)]

theorem outByte_unspecified (h : s.status.busy = true ∨ s.status.err = true) (j : Nat) : s.outByte j = none :=
  if_neg fun hspec => resultsSpecified_iff.mp hspec h

theorem outByte_completed (c : Ctrl) (r : Result) (j : Nat) : (s.completed c r).outByte j = r.out[j]? :=
  Memory.read_ofBytes_zero r.out j

end

/-- Settles O21: a byte without a value is drawn, and the results are unspecified while busy and after an error. -/
theorem unspecifiedBytesAreDraws : Obligations.UnspecifiedBytesAreDraws := by
  refine ⟨?reads, fun s j => ⟨fun h => outByte_unspecified h j, fun _ => rfl⟩⟩
  intro s j hr hp drawn
  refine ⟨fun hj hnone => ?_, fun hj hnone => ?_⟩
  · exact (access_read_inMem hr hp hj).trans (readTarget_unspecified (by rw [State.peek, hnone]; rfl))
  · exact (access_read_outMem hr hp hj).trans (readTarget_unspecified (by rw [State.peek, hnone]; rfl))

/-- Settles O20: after Finish(OK) OUT_MEM has the bytes of the output as its specified ones. -/
theorem outMemHoldsTheOutput : Obligations.OutMemHoldsTheOutput := by
  intro s c r j hr hp hj t
  have hread : t.access (.read 1 (s.params.base + 0x02000000 + j)) = t.readTarget (.outByte j) :=
    access_read_outMem (s := s.completed c r) hr hp hj
  have hpeek : t.peek (.outByte j) = (r.out[j]?).map fun b => [b] :=
    congrArg (Option.map _) (outByte_completed c r j)
  rw [hread]
  cases hbyte : r.out[j]? with
  | some b => exact readTarget_specified (by rw [hpeek, hbyte]; rfl)
  | none => exact readTarget_unspecified (by rw [hpeek, hbyte]; rfl)

/-- A read changes the bus answer and the count of draws, and a read of a specified value the bus answer alone. -/
theorem access_read_frame (s : State) (width addr : Nat) :
    ∃ resp k, s.access (.read width addr) = { s with response := resp, hostDraws := k } ∧
      (s.readsUnspecified (.read width addr) = false → k = s.hostDraws) := by
  rcases access_cases s (.read width addr) with
    ⟨-, h⟩ | ⟨-, -, h⟩ | ⟨off, -, hoff, ⟨-, h⟩ | ⟨t, ht, ⟨-, -, -, h⟩ | ⟨_, _, hwrite, -⟩⟩⟩
  · exact ⟨_, s.hostDraws, h, fun _ => rfl⟩
  · exact ⟨_, s.hostDraws, h, fun _ => rfl⟩
  · exact ⟨_, s.hostDraws, h, fun _ => rfl⟩
  · cases hpeek : s.peek t with
    | some lanes => exact ⟨_, s.hostDraws, h.trans (readTarget_specified hpeek), fun _ => rfl⟩
    | none =>
      refine ⟨_, _, h.trans (readTarget_unspecified hpeek), fun hspec => ?_⟩
      have htarget : s.target (.read width addr) = some t := by rw [State.target, hoff, ← ht]
      simp [State.readsUnspecified, htarget, hpeek] at hspec
  · cases hwrite

/-- The bus answer has no part in a read. -/
theorem access_read_response (s : State) (resp : Response) (width addr : Nat) :
    State.access (.read width addr) { s with response := resp } = s.access (.read width addr) := rfl

/-- Settles O22: a read leaves all but the bus answer and the count of draws, and a specified one leaves that count, so
it is made again from the same state but for the bus answer. -/
theorem readsHaveNoSideEffect : Obligations.ReadsHaveNoSideEffect := by
  intro s width addr
  obtain ⟨resp, k, h, hcount⟩ := access_read_frame s width addr
  refine ⟨by rw [h]; rfl, fun hspec => ?_⟩
  obtain rfl := hcount hspec
  exact (congrArg (State.access (.read width addr)) h).trans (access_read_response s resp width addr)

/-! ## IN_MEM -/

/-- Settles O18: the port's write is `Memory.write`, and a byte with a value is read as it is. -/
theorem inMemWriteThenRead : Obligations.InMemWriteThenRead := by
  refine ⟨?write, fun s j v hr hp hj hv => access_read_inMem_value hr hp hj hv⟩
  intro s j v hr hp hidle hj t
  have ht : t = { s with inMem := s.inMem.write j v, response := .done } :=
    (access_write_inMem hr hp hj v).trans (by rw [writeIn_idle hidle])
  clear_value t
  subst ht
  have hsame := Memory.read_write_same s.inMem j v
  exact ⟨rfl, hsame, fun j' hne => Memory.read_write_other s.inMem j j' v hne,
    access_read_inMem_value (s := { s with inMem := s.inMem.write j v, response := .done }) hr hp hj hsame⟩

@[simp] theorem State.settle_inMem (t : Turn Engine) (s : State) : (s.settle t).inMem = s.inMem := by
  cases t <;> rfl

theorem State.startTurn_inMem (sel : OpSel) (n : Word) (s : State) : (s.startTurn sel n).inMem = s.inMem := by
  unfold State.startTurn
  split <;> simp

/-- No engine step writes IN_MEM. -/
theorem State.engineTurn_inMem (s : State) : s.engineTurn.inMem = s.inMem := by
  unfold State.engineTurn
  split <;> simp [State.startTurn_inMem]

/-- No command writes IN_MEM. -/
theorem exec_inMem {i : Instr} {s t : State} (h : exec i s = .next t) : t.inMem = s.inMem := by
  obtain ⟨-, -, -, hinMem, -⟩ := commandFrame i s t h
  exact hinMem

@[simp] theorem State.writeCtrl_inMem (s : State) (w : Word) : (s.writeCtrl w).inMem = s.inMem := by
  unfold State.writeCtrl
  split_ifs <;> rfl

theorem State.writeReg_inMem (s : State) (r : RegName) (w : Word) : (s.writeReg r w).inMem = s.inMem := by
  cases r
  case ctrl => exact State.writeCtrl_inMem s w
  case status | inLen =>
    unfold State.writeReg
    dsimp only
    split_ifs <;> rfl
  all_goals rfl

theorem State.writeIn_read_other (s : State) {i j : Nat} (h : j ≠ i) (v : Byte) :
    (s.writeIn i v).inMem.read j = s.inMem.read j := by
  unfold State.writeIn
  split_ifs
  · rfl
  · exact Memory.read_write_other s.inMem i j v h

/-- A host access changes no byte of IN_MEM but the one it writes. -/
theorem access_keeps_inMem_byte {s : State} {a : Access} {j : Nat}
    (h : ∀ lanes, a ≠ .write (s.params.base + 0x01000000 + j) lanes) :
    (s.access a).inMem.read j = s.inMem.read j := by
  rcases access_cases s a with ⟨-, ha⟩ | ⟨-, -, ha⟩ | ⟨off, -, hoff, ⟨-, ha⟩ | ⟨t, ht, hread | hwrite⟩⟩
  · rw [ha]
  · rw [ha]
  · rw [ha]
  · obtain ⟨w, addr, -, ha⟩ := hread
    obtain ⟨resp, k, hframe⟩ := readTarget_frame s t
    rw [ha, hframe]
  · obtain ⟨addr, lanes, rfl, ha⟩ := hwrite
    rw [ha]
    rcases targetAt_cases ht with ⟨r, rfl, -, -⟩ | ⟨i, rfl, rfl, -, -⟩ | ⟨i, rfl, -, -, -⟩
    · exact congrArg (Memory.read · j) (s.writeReg_inMem r _)
    · have hother : j ≠ i := by
        rintro rfl
        have haddr : addr = s.params.base + (0x01000000 + j) := addr_of_offset? hoff
        exact h lanes (by rw [haddr, Nat.add_assoc])
      exact s.writeIn_read_other hother _
    · rfl

/-- Settles O19: of the operations a step runs, only reset and a host write of the byte itself change the byte. -/
theorem inMemKeepsItsBytes : Obligations.InMemKeepsItsBytes := by
  intro s t j h hassert hrelease hwrite
  cases hin : s.inputs with
  | nil =>
    rw [step_of_nil hin] at h
    cases h
    rw [State.engineTurn_inMem]
  | cons input rest =>
    rw [hin] at hassert hrelease hwrite
    cases input with
    | command w =>
      cases hw : decodeWord w with
      | ok i =>
        rw [step_of_command hin hw] at h
        rw [exec_inMem h, State.answerWrite_inMem, State.pop_inMem]
      | error err =>
        rw [step_of_noCommand hin hw] at h
        cases h
        rw [State.writeCtrl_inMem, State.answerWrite_inMem, State.pop_inMem]
    | bus a =>
      rw [step_of_bus hin] at h
      cases h
      exact access_keeps_inMem_byte (s := s.pop rest) fun lanes ha => hwrite lanes (by rw [ha]; rfl)
    | engine =>
      rw [step_of_engine hin] at h
      cases h
      rw [State.engineTurn_inMem, State.pop_inMem]
    | assertReset => exact absurd rfl hassert
    | releaseReset => exact absurd rfl hrelease

/-! ## Lanes -/

/-- Settles O16: the four lanes one by one; that they carry the value back is `wordOfLanes_lanesOfWord`. -/
theorem lanesAreLittleEndian : Obligations.LanesAreLittleEndian := by
  refine fun w => ⟨rfl, wordOfLanes_lanesOfWord w, fun k b h => ?_⟩
  match k with
  | 0 | 1 | 2 | 3 => exact (Option.some.inj h).symm
  | k + 4 => cases h

end Sys2Proof.Machine
end

section
/-! Command words (30_encoding.md R90 to R93): the decoder looks at the low five bits of a word alone, so what the table
of R91 says of every word is checked on the 32 words that have nothing above them. -/

namespace Sys2Proof.Machine

/-! ## The bits that select a command -/

/-- A command word with its reserved bits 31:5 cleared (30_encoding.md R90). -/
def withoutReserved (w : Word) : Word := (w.extractLsb' 0 5).setWidth 32

@[simp] theorem withoutReserved_getLsbD (w : Word) (k : Nat) :
    (withoutReserved w).getLsbD k = (decide (k < 5) && w.getLsbD k) := by
  rw [withoutReserved, BitVec.getLsbD_setWidth, BitVec.getLsbD_extractLsb', Nat.zero_add]
  by_cases hk : k < 5
  · simp [hk, show k < 32 by omega]
  · simp [hk]

@[simp] theorem withoutReserved_extractLsb' (w : Word) {start len : Nat} (h : start + len ≤ 5) :
    (withoutReserved w).extractLsb' start len = w.extractLsb' start len := by
  refine BitVec.eq_of_getLsbD_eq fun k hk => ?_
  rw [BitVec.getLsbD_extractLsb', BitVec.getLsbD_extractLsb', withoutReserved_getLsbD,
    decide_eq_true (show start + k < 5 by omega), Bool.true_and]

/-- No mask of the table reaches above bit 4 (30_encoding.md R91). -/
theorem withoutReserved_and (w : Word) {mask : Word} (hmask : mask.toNat < 2 ^ 5) :
    withoutReserved w &&& mask = w &&& mask := by
  refine BitVec.eq_of_getLsbD_eq fun k _ => ?_
  rw [BitVec.getLsbD_and, BitVec.getLsbD_and, withoutReserved_getLsbD]
  by_cases hk : k < 5
  · rw [decide_eq_true hk, Bool.true_and]
  · have hclear : mask.getLsbD k = false :=
      Nat.testBit_lt_two_pow (hmask.trans_le (Nat.pow_le_pow_right (by omega) (by omega)))
    rw [hclear, Bool.and_false, Bool.and_false]

/-- IE, ALG and DIR are below the reserved bits (30_encoding.md R90). -/
theorem withoutReserved_fields (w : Word) :
    (withoutReserved w).getLsbD 4 = w.getLsbD 4 ∧ (withoutReserved w).extractLsb' 2 2 = w.extractLsb' 2 2 ∧
      (withoutReserved w).getLsbD 1 = w.getLsbD 1 :=
  ⟨withoutReserved_getLsbD w 4, withoutReserved_extractLsb' w (by omega), withoutReserved_getLsbD w 1⟩

/-- "Bits 31:5 may hold any value in every row without changing the selection" (30_encoding.md R91). -/
theorem decodeWord_withoutReserved (w : Word) : decodeWord (withoutReserved w) = decodeWord w := by
  obtain ⟨hie, halg, hdir⟩ := withoutReserved_fields w
  have hrow : withoutReserved w &&& 0xF#32 = w &&& 0xF#32 := withoutReserved_and w (by decide)
  have hunsupported : withoutReserved w &&& 0x9#32 = w &&& 0x9#32 := withoutReserved_and w (by decide)
  simp only [decodeWord, hrow, hunsupported, hie, halg, hdir]

theorem decodeWord_eq_of_lowBits {w w' : Word} (h : w.extractLsb' 0 5 = w'.extractLsb' 0 5) :
    decodeWord w = decodeWord w' := by
  rw [← decodeWord_withoutReserved w, ← decodeWord_withoutReserved w', withoutReserved, h, withoutReserved]

/-! ## Decode and encode -/

/-- A word decodes only to the well-formed command whose low five bits it has (30_encoding.md R91). -/
theorem encode_of_decodeWord {w : Word} {i : Instr} (h : decodeWord w = .ok i) :
    i.wellFormed = true ∧ w.extractLsb' 0 5 = (encode i).extractLsb' 0 5 := by
  have htable : ∀ low : BitVec 5, ∀ j ∈ (decodeWord (low.setWidth 32)).toOption,
      j.wellFormed = true ∧ low = (encode j).extractLsb' 0 5 := by decide
  refine htable _ i ?_
  rw [← withoutReserved, decodeWord_withoutReserved, h]
  rfl

theorem decodeWord_eq_ok_iff {w : Word} {i : Instr} :
    decodeWord w = .ok i ↔ i.wellFormed = true ∧ w.extractLsb' 0 5 = (encode i).extractLsb' 0 5 :=
  ⟨encode_of_decodeWord, fun ⟨hwf, hlow⟩ => (decodeWord_eq_of_lowBits hlow).trans (decodeWord_encode hwf)⟩

/-- Settles O1: lanes that are not four are rejected, and four carry a word, which `decodeWord_eq_ok_iff` reads. -/
theorem decodeAgreesWithEncode : Obligations.DecodeAgreesWithEncode := by
  refine ⟨fun i hwf => (decode_lanesOfWord _).trans (decodeWord_encode hwf), fun lanes i => ?_⟩
  rw [decode]
  split_ifs with hlen
  · rw [decodeWord_eq_ok_iff]
    exact ⟨fun h => ⟨hlen, h⟩, fun ⟨_, h⟩ => h⟩
  · exact ⟨nofun, fun ⟨hfour, _⟩ => absurd hfour hlen⟩

/-! ## The table of command words -/

/-- What the `match` and `mask` columns of 30_encoding.md R91 say of one word. -/
abbrev SelectsByTable (w : Word) : Prop :=
  (w &&& 0xF#32 = 0x1#32 ↔ decodeWord w = .ok (.rleEncode (w.getLsbD 4))) ∧
    (w &&& 0xF#32 = 0x3#32 ↔ decodeWord w = .ok (.rleDecode (w.getLsbD 4))) ∧
    (w &&& 0xF#32 = 0x5#32 ↔ decodeWord w = .ok (.lzEncode (w.getLsbD 4))) ∧
    (w &&& 0xF#32 = 0x7#32 ↔ decodeWord w = .ok (.lzDecode (w.getLsbD 4))) ∧
    (w &&& 0x9#32 = 0x9#32 ↔
      decodeWord w = .ok (.unsupportedAlg (w.getLsbD 4) (w.extractLsb' 2 2) (w.getLsbD 1)))

theorem selectsByTable_withoutReserved {w : Word} : SelectsByTable (withoutReserved w) ↔ SelectsByTable w := by
  obtain ⟨hie, halg, hdir⟩ := withoutReserved_fields w
  rw [SelectsByTable, decodeWord_withoutReserved, withoutReserved_and w (by decide),
    withoutReserved_and w (by decide), hie, hdir, halg]

theorem selectsByTable (w : Word) : SelectsByTable w := by
  have htable : ∀ low : BitVec 5, SelectsByTable (low.setWidth 32) := by decide
  exact selectsByTable_withoutReserved.mp (htable _)

/-- Settles O2: the rows and the reserved bits from the low five bits of a word, the CTRL values one by one. -/
theorem commandSelectionTable : Obligations.CommandSelectionTable :=
  ⟨selectsByTable, fun _ _ => decodeWord_eq_of_lowBits, by decide, by decide, by decide, by decide, by decide,
    by decide⟩

/-- Settles O3: the words of R91 one by one. -/
theorem specWordsDecode : Obligations.SpecWordsDecode := by
  unfold Obligations.SpecWordsDecode
  decide

/-! ## The unsupported algorithms -/

/-- A selector that names no command fails the start checks before IN_LEN is looked at (40_control.md R122). -/
theorem issue_unsupported {c : Ctrl} (run : Limits → List Byte → Turn Engine) {s : State} (hready : s.idleReady)
    (halg : OpSel.command { alg := c.alg, dir := c.dir } = none) :
    issue c run s = .next (s.failed c .unsupportedAlgorithm 0) := by
  have hcheck : startError s.params { alg := c.alg, dir := c.dir } s.inLen = some .unsupportedAlgorithm := if_pos halg
  rw [issue_ready hready.1 hready.2, perform_of_startError (s := s.accept c) hcheck]
  rfl

/-- Settles O29: ALG 10 and 11 name no command. -/
theorem unsupportedAlgFinishesWithItsError : Obligations.UnsupportedAlgFinishesWithItsError := by
  intro ie alg dir s hready halg
  rw [exec_eq_issue]
  refine issue_unsupported _ hready ?_
  rcases halg with rfl | rfl <;> rfl

end Sys2Proof.Machine
end

section
/-! The wire text of LZ codes (30_encoding.md R98 to R102): a field that matches `code` is the rendering of its value,
and a text is its fields joined by commas, so parsing and rendering are inverse to each other. -/

namespace Sys2Proof.Machine

/-! ## One code -/

theorem matchesCode_singleton (b : Byte) : matchesCode [b] = isDigit b := by
  have hzero : isDigit b = (b == 0x30#8 || isNzDigit b) := by
    revert b
    decide
  simp [matchesCode, hzero]

/-- One more digit keeps a code, unless the code is the digit 0, which stands alone (30_encoding.md R99). -/
theorem matchesCode_concat {f : List Byte} (hne : f ≠ []) (b : Byte) :
    matchesCode (f ++ [b]) = true ↔ matchesCode f = true ∧ f ≠ [0x30#8] ∧ isDigit b = true := by
  obtain ⟨d, ds, rfl⟩ := List.exists_cons_of_ne_nil hne
  have hzero : isNzDigit 0x30#8 = false := by decide
  by_cases hd : d = 0x30#8
  · subst hd
    simp +contextual [matchesCode, hzero]
  · simp [matchesCode, hd, and_assoc]

theorem matchesCode_dec (c : Nat) : matchesCode (dec c) = true := by
  induction c using dec_induction with
  | single d hd =>
    rw [matchesCode_singleton]
    exact isDigit_digitByte hd
  | snoc c hc ih =>
    refine (matchesCode_concat (dec_ne_nil _) _).mpr ⟨ih, fun hzero => ?_, isDigit_digitByte (Nat.mod_lt c (by omega))⟩
    have hval := val_dec (c / 10)
    rw [hzero, ← dec_zero, val_dec] at hval
    omega

/-- A code has no other spelling than the rendering of its value (30_encoding.md R99). -/
theorem dec_val_of_matchesCode {f : List Byte} (h : matchesCode f = true) : dec (val f) = f := by
  induction f using List.reverseRecOn with
  | nil => cases h
  | append_singleton f b ih =>
    by_cases hnil : f = []
    · subst hnil
      have hb : isDigit b = true := (matchesCode_singleton b).symm.trans h
      obtain ⟨-, hhi⟩ := (isDigit_iff b).mp hb
      rw [val_concat, val_nil, dec_of_lt (by omega), Nat.zero_mul, Nat.zero_add, digitByte_of_isDigit hb]
      rfl
    · obtain ⟨hf, hnotZero, hb⟩ := (matchesCode_concat hnil b).mp h
      obtain ⟨-, hhi⟩ := (isDigit_iff b).mp hb
      have hpos : val f ≠ 0 := fun hzero => hnotZero (by rw [← ih hf, hzero, dec_zero])
      have hdiv : val (f ++ [b]) / 10 = val f := by rw [val_concat]; omega
      have hmod : val (f ++ [b]) % 10 = b.toNat - 0x30 := by rw [val_concat]; omega
      rw [dec_of_ge (by rw [val_concat]; omega), hdiv, hmod, ih hf, digitByte_of_isDigit hb]

theorem comma_not_mem_dec (c : Nat) : comma ∉ dec c := fun h =>
  absurd (isDigit_of_mem_dec c comma h) (by decide)

/-! ## The fields of a text -/

/-- A text splits at every comma (30_encoding.md R101). -/
theorem fields_eq_splitOn (t : List Byte) : fields t = t.splitOn comma := by
  induction t with
  | nil => rfl
  | cons b t ih =>
    rw [List.splitOn_cons_eq_if_modifyHead, fields, ih]
    by_cases hb : b = comma
    · rw [if_pos hb, if_pos (beq_iff_eq.mpr hb)]
    · obtain ⟨f, fs, hsplit⟩ := List.exists_cons_of_ne_nil (List.splitOn_ne_nil comma t)
      rw [if_neg hb, if_neg (mt beq_iff_eq.mp hb), hsplit]
      rfl

theorem render_eq_intercalate (cs : List Nat) : render cs = [comma].intercalate (cs.map dec) := by
  induction cs using render.induct with
  | case1 => rfl
  | case2 c => simp [render]
  | case3 c c' cs ih => simp [render, ih]

theorem fields_render {cs : List Nat} (hne : cs ≠ []) : fields (render cs) = cs.map dec := by
  rw [fields_eq_splitOn, render_eq_intercalate]
  refine List.splitOn_intercalate comma (fun f hf => ?_) (by simpa using hne)
  obtain ⟨c, -, rfl⟩ := List.mem_map.mp hf
  exact comma_not_mem_dec c

/-- Fields hold codes exactly when they are the renderings of those codes. -/
theorem fieldCodes_eq_some_iff {fs : List (List Byte)} {cs : List Nat} :
    fieldCodes fs = some cs ↔ fs = cs.map dec := by
  induction fs generalizing cs with
  | nil => cases cs <;> simp [fieldCodes]
  | cons f fs ih =>
    rw [fieldCodes]
    cases cs with
    | nil => simp
    | cons c cs =>
      rw [List.map_cons, List.cons.injEq, ← ih]
      split_ifs with hf
      · have hcode : val f = c ↔ f = dec c :=
          ⟨fun h => by rw [← h, dec_val_of_matchesCode hf], fun h => by rw [h, val_dec]⟩
        simp [hcode, and_comm]
      · refine ⟨nofun, ?_⟩
        rintro ⟨rfl, -⟩
        exact absurd (matchesCode_dec c) hf

theorem render_ne_nil {cs : List Nat} (hne : cs ≠ []) : render cs ≠ [] := by
  induction cs using render.induct with
  | case1 => exact absurd rfl hne
  | case2 c => exact dec_ne_nil c
  | case3 c c' cs ih => simp [render]

/-- Settles O49: a text has the codes of its fields, and it is its fields joined by commas. -/
theorem parseAndRenderAgree : Obligations.ParseAndRenderAgree := by
  refine ⟨fun cs => ?_, fun t cs h => ?_⟩
  · by_cases hcs : cs = []
    · subst hcs
      rfl
    · rw [parseText, if_neg (render_ne_nil hcs), fields_render hcs]
      exact fieldCodes_eq_some_iff.mpr rfl
  · rw [parseText] at h
    split_ifs at h with hempty
    · cases h
      exact hempty
    · rw [render_eq_intercalate, ← fieldCodes_eq_some_iff.mp h, fields_eq_splitOn, List.intercalate_splitOn]

/-! ## Lengths -/

/-- A number below a power of ten has at most that many digits. -/
theorem dec_length_le {k : Nat} (hk : 1 ≤ k) {c : Nat} (h : c < 10 ^ k) : (dec c).length ≤ k := by
  induction k, hk using Nat.le_induction generalizing c with
  | base => rw [dec_of_lt (by omega), List.length_singleton]
  | succ k hk ih =>
    rcases Nat.lt_or_ge c 10 with hsmall | hlarge
    · rw [dec_of_lt hsmall]
      exact Nat.succ_le_succ (Nat.zero_le k)
    · have hdiv := ih (c := c / 10) (by rw [pow_succ] at h; omega)
      rw [dec_of_ge hlarge, List.length_append, List.length_singleton]
      omega

/-- `k` codes and `k - 1` separators (30_encoding.md R102). -/
theorem render_length {cs : List Nat} (hne : cs ≠ []) :
    (render cs).length = (cs.map fun c => (dec c).length).sum + (cs.length - 1) := by
  induction cs using render.induct with
  | case1 => exact absurd rfl hne
  | case2 c => simp [render]
  | case3 c c' cs ih =>
    have hrest := ih (List.cons_ne_nil _ _)
    simp only [render, List.length_append, List.length_cons, List.map_cons, List.sum_cons] at hrest ⊢
    omega

/-- Settles O50: by `render_length` and `dec_length_le`. -/
theorem wireTextLength : Obligations.WireTextLength :=
  ⟨fun _ => render_length, fun c hc => by rw [dec_of_lt (by omega), List.length_singleton], by decide,
    fun _ hc => dec_length_le (by decide) (hc.trans (by decide))⟩

end Sys2Proof.Machine
end

section
/-! Any number of engine steps under capacities, against the same number under none (00_scope.md R7). -/

namespace Sys2Proof.Machine

theorem drive_add {α : Type} (f : α → Turn α) (m n : Nat) (e : α) : drive f (m + n) e = (drive f m e).drive f n := by
  induction m generalizing e with
  | zero => rw [Nat.zero_add]; rfl
  | succ m ih =>
    rw [Nat.succ_add]
    cases hf : f e with
    | more e' => rw [drive_more _ hf, drive_more _ hf, ih]
    | ok r => rw [drive_ok _ hf, drive_ok _ hf]; rfl
    | fail err => rw [drive_fail _ hf, drive_fail _ hf]; rfl

/-- The state that steps under no capacities reach is reached under capacities that hold it. -/
theorem CutsStep.drive_reaches {α : Type} {usage : α → Usage} {step : Limits → α → Turn α} {lim : Limits}
    (h : CutsStep usage step) {k : Nat} {e e' : α}
    (hfree : Sys2Proof.Machine.drive (step Limits.unbounded) k e = .more e') (hold : lim.Holds (usage e')) :
    Sys2Proof.Machine.drive (step lim) k e = .more e' := by
  have hstart : lim.Holds (usage e) := hold.mono (h.drive_grows k e _ (by rw [hfree]; rfl))
  induction k generalizing e with
  | zero => exact hfree
  | succ k ih =>
    cases hstep : step Limits.unbounded e with
    | more e₁ =>
      rw [drive_more k hstep] at hfree
      have hnext : lim.Holds (usage e₁) := hold.mono (h.drive_grows k e₁ _ (by rw [hfree]; rfl))
      have hcut := (h lim e hstart).2
      rw [hstep, Turn.cut, if_pos hnext] at hcut
      rw [drive_more k hcut]
      exact ih hfree hnext
    | ok r =>
      rw [drive_ok k hstep] at hfree
      cases hfree
    | fail err =>
      rw [drive_fail k hstep] at hfree
      cases hfree

/-- Steps that capacities leave alone or end with CapacityExceeded make such a run. -/
theorem drive_eq_or_exceeds {α : Type} {free bounded : α → Turn α}
    (h : ∀ e, bounded e = free e ∨ bounded e = .fail .capacityExceeded) (fuel : Nat) (e : α) :
    drive bounded fuel e = drive free fuel e ∨ drive bounded fuel e = .fail .capacityExceeded := by
  induction fuel generalizing e with
  | zero => exact .inl rfl
  | succ fuel ih =>
    rcases h e with hsame | hover
    · cases hfree : free e with
      | more e' =>
        rw [drive_more fuel (hsame.trans hfree), drive_more fuel hfree]
        exact ih e'
      | ok r =>
        rw [drive_ok fuel (hsame.trans hfree), drive_ok fuel hfree]
        exact .inl rfl
      | fail err =>
        rw [drive_fail fuel (hsame.trans hfree), drive_fail fuel hfree]
        exact .inl rfl
    · exact .inr (drive_fail fuel hover)

end Sys2Proof.Machine
end

section
/-! LZ_DECODE between two fields of its text (42_lz.md R183 to R192): where the decoder stands after the codes taken so
far, and what the next field makes it do. -/

namespace Sys2Proof.Machine

/-! ## One field -/

theorem fieldAt_append {front f tail : List Byte} (hf : comma ∉ f) (htail : ∀ b, tail.head? = some b → b = comma) :
    fieldAt (front ++ (f ++ tail)) front.length = f := by
  have hall : ∀ b ∈ f, (b != comma) = true := fun b hb => bne_iff_ne.mpr fun h => hf (h ▸ hb)
  rw [fieldAt, List.drop_left, List.takeWhile_append_of_pos hall]
  cases tail with
  | nil => simp
  | cons b tail => simp [htail b rfl]

/-- A text is its first field, and then nothing, or a comma and what follows (42_lz.md R183). -/
theorem exists_field (t : List Byte) :
    ∃ f tail : List Byte, t = f ++ tail ∧ comma ∉ f ∧ ∀ b, tail.head? = some b → b = comma := by
  refine ⟨t.takeWhile (· != comma), t.dropWhile (· != comma), List.takeWhile_append_dropWhile.symm, fun h => ?_,
    fun b hb => ?_⟩
  · simpa using List.mem_takeWhile_imp h
  · have hhead := List.head?_dropWhile_not (· != comma) t
    rw [hb] at hhead
    simpa using hhead

/-- The dictionary after a code with entry `entry`: `prev ++ [entry[0]]` appended, except after the first code
(42_lz.md R187, R189). -/
def Dict.after (d : Dict) (prev : Option Phrase) (entry : Phrase) : Dict :=
  match prev with
  | none => d
  | some p => d.push (p.snoc entry.first)

theorem appendEntry_ok {lim : Limits} {d d' : Dict} {prev : Option Phrase} {entry : Phrase}
    (h : appendEntry lim d prev entry = .ok d') : d' = d.after prev entry := by
  cases prev with
  | none =>
    cases h
    rfl
  | some p =>
    rw [appendEntry] at h
    split_ifs at h
    cases h
    rfl

theorem appendEntry_error {lim : Limits} {d : Dict} {prev : Option Phrase} {entry : Phrase} {err : CodecError}
    (h : appendEntry lim d prev entry = .error err) : err = .capacityExceeded := by
  cases prev with
  | none => cases h
  | some p =>
    rw [appendEntry] at h
    split_ifs at h
    cases h
    rfl

theorem appendEntry_eq_after (d : Dict) (prev : Option Phrase) (entry : Phrase) :
    appendEntry Limits.unbounded d prev entry = .ok (d.after prev entry) := by
  cases prev with
  | none => rfl
  | some p =>
    rw [appendEntry, if_neg (unbounded_dictCap_ne _)]
    rfl

theorem lzEntriesFrom_cons (d : Dict) (prev : Option Phrase) (c : Nat) (cs : List Nat) :
    lzEntriesFrom d prev (c :: cs) =
      (resolveCode d prev c).bind fun entry =>
        (lzEntriesFrom (d.after prev entry) (some entry) cs).map (entry :: ·) := by
  rw [lzEntriesFrom]
  cases resolveCode d prev c <;> rfl

/-- What a decoder does with the entry of its next field, a field of `len` bytes, when no capacity is in the way
(42_lz.md R186). -/
def LzDec.advance (e : LzDec) (len : Nat) (entry : Phrase) : Turn LzDec :=
  let io : Io := { e.io with ip := e.fs + len, out := e.io.out ++ entry.bytes, tok := e.io.tok + 1 }
  let d := e.dict.after e.prev entry
  if e.fs + len < e.io.n then .more { io := io, dict := d, prev := some entry, fs := e.fs + len + 1 }
  else .ok (io.result d.nextCode)

/-- A field that matches no `code` (42_lz.md R184). -/
theorem lzDecodeStep_noCode (lim : Limits) {e : LzDec} (h : matchesCode (fieldAt e.io.x e.fs) = false) :
    lzDecodeStep lim e = .fail .invalidCode := by
  simp [lzDecodeStep, parseField, h]

/-- A code that has no entry (42_lz.md R187, R188). -/
theorem lzDecodeStep_noEntry (lim : Limits) {e : LzDec} (h : matchesCode (fieldAt e.io.x e.fs) = true)
    (hentry : resolveCode e.dict e.prev (val (fieldAt e.io.x e.fs)) = none) :
    lzDecodeStep lim e = .fail .invalidCode := by
  simp [lzDecodeStep, parseField, h, hentry]

theorem lzDecodeStep_entry {e : LzDec} {entry : Phrase} (h : matchesCode (fieldAt e.io.x e.fs) = true)
    (hentry : resolveCode e.dict e.prev (val (fieldAt e.io.x e.fs)) = some entry) :
    lzDecodeStep Limits.unbounded e = e.advance (fieldAt e.io.x e.fs).length entry := by
  simp [lzDecodeStep, LzDec.advance, parseField, h, hentry, emitAll_unbounded (lim := Limits.unbounded) rfl,
    appendEntry_eq_after]

/-- Capacities leave a step as it is or end it with CapacityExceeded, whatever DICT_CAP is (00_scope.md R7). -/
theorem lzDecodeStep_eq_or_exceeds (lim : Limits) (e : LzDec) :
    lzDecodeStep lim e = lzDecodeStep Limits.unbounded e ∨ lzDecodeStep lim e = .fail .capacityExceeded := by
  simp only [lzDecodeStep]
  cases parseField (fieldAt e.io.x e.fs) with
  | error err => exact .inl rfl
  | ok c =>
    dsimp only
    cases resolveCode e.dict e.prev c with
    | none => exact .inl rfl
    | some entry =>
      simp only [emitAll_unbounded (lim := Limits.unbounded) rfl, appendEntry_eq_after]
      cases hemit : emitAll lim entry.bytes { e.io with ip := e.fs + (fieldAt e.io.x e.fs).length } with
      | error err =>
        rw [emitAll_error hemit]
        exact .inr rfl
      | ok io =>
        obtain rfl := emitAll_ok hemit
        cases happend : appendEntry lim e.dict e.prev entry with
        | error err =>
          rw [appendEntry_error happend]
          exact .inr rfl
        | ok d =>
          rw [appendEntry_ok happend]
          exact .inl rfl

/-! ## Between two fields -/

/-- The codes that a text starts with, each with the separator that ends its field (30_encoding.md R98). -/
abbrev separated (cs : List Nat) : List Byte := cs.flatMap fun c => dec c ++ [comma]

theorem separated_concat (cs : List Nat) (c : Nat) : separated (cs ++ [c]) = separated cs ++ dec c ++ [comma] := by
  simp [separated]

theorem render_concat (cs : List Nat) (c : Nat) : render (cs ++ [c]) = separated cs ++ dec c := by
  induction cs with
  | nil => rfl
  | cons c' cs ih =>
    obtain ⟨c₁, cs₁, h⟩ := List.exists_cons_of_ne_nil (List.append_ne_nil_of_right_ne_nil cs (List.cons_ne_nil c []))
    rw [List.cons_append, h, render, ← h, ih]
    simp [separated]

theorem length_le_separated (cs : List Nat) : cs.length ≤ (separated cs).length := by
  induction cs with
  | nil => exact le_rfl
  | cons c cs ih =>
    simp only [separated, List.flatMap_cons, List.length_append, List.length_cons] at ih ⊢
    omega

@[simp] theorem entriesBytes_concat (es : List Phrase) (entry : Phrase) :
    entriesBytes (es ++ [entry]) = entriesBytes es ++ entry.bytes := by
  simp [entriesBytes]

/-- The decoder is between two fields of the text `x`: it has taken the codes `cs`, whose entries are `es`, each with
the separator after it, and `rest` is left. -/
structure LzDec.Between (x : List Byte) (cs : List Nat) (es : List Phrase) (rest : List Byte) (e : LzDec) : Prop where
  input : e.io.x = x
  text : x = separated cs ++ rest
  fs : e.fs = (separated cs).length
  out : e.io.out = entriesBytes es
  tok : e.io.tok = cs.length
  code : e.dict.nextCode = lzNextCode cs.length
  first : e.prev = none ↔ cs = []
  entries : ∀ more, lzEntries (cs ++ more) = (lzEntriesFrom e.dict e.prev more).map (es ++ ·)

/-- The state the first turn leaves for a text that is not empty (42_lz.md R186). -/
def LzDec.begin (x : List Byte) : LzDec := { io := Io.begin x, dict := Dict.seed, prev := none, fs := 0 }

theorem lzDecodeBegin_of_ne_nil {x : List Byte} (h : x ≠ []) : lzDecodeBegin x = .more (LzDec.begin x) := if_neg h

theorem LzDec.between_begin (x : List Byte) : LzDec.Between x [] [] x (LzDec.begin x) where
  input := rfl
  text := rfl
  fs := rfl
  out := rfl
  tok := rfl
  code := rfl
  first := ⟨fun _ => rfl, fun _ => rfl⟩
  entries more := by
    rw [List.nil_append, lzEntries]
    exact Option.map_id'.symm

section
variable {x rest : List Byte} {cs : List Nat} {es : List Phrase} {e : LzDec}

/-- The codes taken have just the entries that were emitted. -/
theorem LzDec.Between.lzEntries_eq (h : e.Between x cs es rest) : lzEntries cs = some es := by
  simpa [lzEntriesFrom] using h.entries []

theorem LzDec.Between.usage_eq (h : e.Between x cs es rest) :
    e.usage = ((entriesBytes es).length, lzNextCode cs.length) := by
  rw [LzDec.usage, h.out, h.code]

/-- One code more is resolved from the dictionary and `prev` that the codes before it left. -/
theorem LzDec.Between.lzEntries_cons (h : e.Between x cs es rest) (c : Nat) (more : List Nat) :
    lzEntries (cs ++ c :: more) =
      (resolveCode e.dict e.prev c).bind fun entry =>
        (lzEntriesFrom (e.dict.after e.prev entry) (some entry) more).map (es ++ [entry] ++ ·) := by
  rw [h.entries, lzEntriesFrom_cons]
  cases resolveCode e.dict e.prev c with
  | none => rfl
  | some entry => simp [Function.comp_def]

theorem LzDec.Between.lzEntries_concat (h : e.Between x cs es rest) (c : Nat) :
    lzEntries (cs ++ [c]) = (resolveCode e.dict e.prev c).map fun entry => es ++ [entry] := by
  rw [h.lzEntries_cons]
  cases resolveCode e.dict e.prev c <;> simp [lzEntriesFrom]

theorem LzDec.Between.nextCode_after (h : e.Between x cs es rest) (entry : Phrase) :
    (e.dict.after e.prev entry).nextCode = lzNextCode (cs.length + 1) := by
  cases hprev : e.prev with
  | none =>
    obtain rfl := h.first.mp hprev
    exact h.code
  | some p =>
    have hne : cs ≠ [] := fun hcs => nomatch hprev.symm.trans (h.first.mpr hcs)
    have hlen : cs.length ≠ 0 := mt List.length_eq_zero_iff.mp hne
    rw [Dict.after, Dict.nextCode_push, h.code, lzNextCode, lzNextCode, if_neg hlen, if_neg (Nat.succ_ne_zero _),
      Nat.add_assoc]

/-- The field that comes next, up to the separator or the end of the text (42_lz.md R183). -/
theorem LzDec.Between.fieldAt_eq {f tail : List Byte} (h : e.Between x cs es (f ++ tail)) (hf : comma ∉ f)
    (htail : ∀ b, tail.head? = some b → b = comma) : fieldAt e.io.x e.fs = f := by
  rw [h.input, h.text, h.fs, fieldAt_append hf htail]

/-- A field that matches no `code`, or whose code has no entry, raises InvalidCode, whatever room is left
(42_lz.md R184, R192). -/
theorem LzDec.Between.step_bad (lim : Limits) {f tail : List Byte} (h : e.Between x cs es (f ++ tail)) (hf : comma ∉ f)
    (htail : ∀ b, tail.head? = some b → b = comma)
    (hbad : matchesCode f = false ∨ lzEntries (cs ++ [val f]) = none) :
    lzDecodeStep lim e = .fail .invalidCode := by
  have hfield := h.fieldAt_eq hf htail
  cases hcode : matchesCode f with
  | false => exact lzDecodeStep_noCode lim (hfield ▸ hcode)
  | true =>
    have hnone : lzEntries (cs ++ [val f]) = none := hbad.resolve_left (by simp [hcode])
    rw [h.lzEntries_concat, Option.map_eq_none_iff] at hnone
    exact lzDecodeStep_noEntry lim (hfield ▸ hcode) (hfield ▸ hnone)

/-- A code with an entry that a separator follows takes the decoder to the next field. -/
theorem LzDec.Between.step_more {c : Nat} {entry : Phrase} (h : e.Between x cs es (dec c ++ comma :: rest))
    (hentry : resolveCode e.dict e.prev c = some entry) :
    ∃ e', lzDecodeStep Limits.unbounded e = .more e' ∧ e'.Between x (cs ++ [c]) (es ++ [entry]) rest := by
  have hfield := h.fieldAt_eq (comma_not_mem_dec c) (by simp)
  have hstep := lzDecodeStep_entry (hfield ▸ matchesCode_dec c) (by rw [hfield, val_dec]; exact hentry)
  have hlt : e.fs + (dec c).length < e.io.n := by
    rw [Io.n, h.input, h.text, h.fs]
    simp
  rw [hfield, LzDec.advance, if_pos hlt] at hstep
  refine ⟨_, hstep, ?_⟩
  exact
    { input := h.input
      text := by rw [h.text, separated_concat]; simp
      fs := by rw [separated_concat, h.fs]; simp [Nat.add_assoc]
      out := by rw [entriesBytes_concat, h.out]
      tok := by rw [h.tok, List.length_append, List.length_singleton]
      code := by rw [h.nextCode_after, List.length_append, List.length_singleton]
      first := by simp
      entries := fun more => by
        rw [List.append_assoc, List.singleton_append, h.lzEntries_cons, hentry, Option.bind_some] }

/-- A code with an entry at the end of the text finishes the command. -/
theorem LzDec.Between.step_last {c : Nat} {entry : Phrase} (h : e.Between x cs es (dec c))
    (hentry : resolveCode e.dict e.prev c = some entry) :
    lzDecodeStep Limits.unbounded e =
      .ok { out := entriesBytes (es ++ [entry]), tok := cs.length + 1, nextCode := lzNextCode (cs.length + 1) } := by
  have hfield : fieldAt e.io.x e.fs = dec c :=
    LzDec.Between.fieldAt_eq (tail := []) (by rwa [List.append_nil]) (comma_not_mem_dec c) nofun
  have hstep := lzDecodeStep_entry (hfield ▸ matchesCode_dec c) (by rw [hfield, val_dec]; exact hentry)
  have hend : ¬ e.fs + (dec c).length < e.io.n := by
    rw [Io.n, h.input, h.text, h.fs]
    simp
  rw [hfield, LzDec.advance, if_neg hend] at hstep
  rw [hstep, Io.result, h.nextCode_after, entriesBytes_concat, ← h.out, h.tok]

/-- All a step under no capacities can do between two fields: raise InvalidCode, go on to the next field, or finish with
the text the rendering of codes that all have entries. -/
theorem LzDec.Between.step_cases (h : e.Between x cs es rest) :
    lzDecodeStep Limits.unbounded e = .fail .invalidCode ∨
      (∃ e' cs' es' rest', lzDecodeStep Limits.unbounded e = .more e' ∧ e'.Between x cs' es' rest') ∨
      ∃ r cs' es', lzDecodeStep Limits.unbounded e = .ok r ∧ x = render cs' ∧ lzEntries cs' = some es' := by
  obtain ⟨f, tail, rfl, hf, htail⟩ := exists_field rest
  by_cases hbad : matchesCode f = false ∨ lzEntries (cs ++ [val f]) = none
  · exact .inl (h.step_bad _ hf htail hbad)
  · obtain ⟨hcode, hsome⟩ := not_or.mp hbad
    obtain ⟨c, rfl⟩ : ∃ c, f = dec c := ⟨val f, (dec_val_of_matchesCode (by simpa using hcode)).symm⟩
    rw [val_dec, h.lzEntries_concat, Option.map_eq_none_iff] at hsome
    obtain ⟨entry, hentry⟩ := Option.ne_none_iff_exists'.mp hsome
    cases tail with
    | nil =>
      rw [List.append_nil] at h
      refine .inr (.inr ⟨_, cs ++ [c], es ++ [entry], h.step_last hentry, ?_, ?_⟩)
      · rw [render_concat]
        exact h.text
      · rw [h.lzEntries_concat, hentry, Option.map_some]
    | cons b tail =>
      obtain rfl := htail b rfl
      obtain ⟨e', hstep, h'⟩ := h.step_more hentry
      exact .inr (.inl ⟨e', _, _, _, hstep, h'⟩)

/-- Under no capacities the decoder takes any codes with entries, one step each. -/
theorem LzDec.Between.drive_codes {more : List Nat} {es' : List Phrase} (h : e.Between x cs es (separated more ++ rest))
    (hentries : lzEntries (cs ++ more) = some es') :
    ∃ e', drive (lzDecodeStep Limits.unbounded) more.length e = .more e' ∧ e'.Between x (cs ++ more) es' rest := by
  induction more generalizing cs es e with
  | nil =>
    rw [List.append_nil] at hentries ⊢
    obtain rfl := Option.some.inj (h.lzEntries_eq.symm.trans hentries)
    exact ⟨e, rfl, h⟩
  | cons c more ih =>
    obtain ⟨entry, hentry⟩ : ∃ entry, resolveCode e.dict e.prev c = some entry := by
      refine Option.ne_none_iff_exists'.mp fun hnone => ?_
      rw [h.lzEntries_cons, hnone] at hentries
      cases hentries
    have htext : separated (c :: more) ++ rest = dec c ++ comma :: (separated more ++ rest) := by simp [separated]
    rw [htext] at h
    obtain ⟨e₁, hstep, h₁⟩ := h.step_more hentry
    have happend : cs ++ c :: more = cs ++ [c] ++ more := by simp
    rw [happend] at hentries ⊢
    rw [List.length_cons, drive_more _ hstep]
    exact ih h₁ hentries

end

end Sys2Proof.Machine
end

section
/-! The texts LZ_DECODE rejects (42_lz.md R184, R187, R188, R192): the whole run over a text that denotes no entries,
and over a text with a bad field after fields that fit the capacities. -/

namespace Sys2Proof.Machine

/-- A text that is a rendering of codes that all have entries (42_lz.md R186). -/
abbrev Denotes (x : List Byte) : Prop := ∃ cs es, x = render cs ∧ lzEntries cs = some es

/-- The turn finishes OK only where the text denotes entries, and fails only with InvalidCode. -/
abbrev Turn.RejectsOnly {α : Type} (x : List Byte) (t : Turn α) : Prop :=
  (∀ r, t = .ok r → Denotes x) ∧ ∀ err, t = .fail err → err = .invalidCode

theorem LzDec.Between.drive_rejects {x rest : List Byte} {cs : List Nat} {es : List Phrase} {e : LzDec}
    (h : e.Between x cs es rest) (fuel : Nat) : (drive (lzDecodeStep Limits.unbounded) fuel e).RejectsOnly x := by
  induction fuel generalizing cs es rest e with
  | zero => exact ⟨nofun, nofun⟩
  | succ fuel ih =>
    rcases h.step_cases with hfail | ⟨e', cs', es', rest', hmore, h'⟩ | ⟨r, cs', es', hok, hdenotes⟩
    · rw [drive_fail fuel hfail]
      exact ⟨nofun, fun err herr => (Turn.fail.inj herr).symm⟩
    · rw [drive_more fuel hmore]
      exact ih h'
    · rw [drive_ok fuel hok]
      exact ⟨fun _ _ => ⟨cs', es', hdenotes⟩, nofun⟩

/-- The run on a text that is not empty, without the first turn. -/
theorem lzDecodeRun_of_ne_nil (lim : Limits) {x : List Byte} (h : x ≠ []) :
    lzDecodeRun lim x = (drive (lzDecodeStep lim) (x.length + 1) (LzDec.begin x)).map .lzDecode := by
  rw [lzDecodeRun, lzDecodeBegin_of_ne_nil h]
  rfl

theorem denotes_nil : Denotes [] := ⟨[], [], rfl, rfl⟩

theorem lzDecodeRun_rejectsOnly (x : List Byte) : (lzDecodeRun Limits.unbounded x).RejectsOnly x := by
  by_cases hx : x = []
  · subst hx
    exact ⟨fun _ _ => denotes_nil, nofun⟩
  · rw [lzDecodeRun_of_ne_nil _ hx]
    obtain ⟨hok, hfail⟩ := (LzDec.between_begin x).drive_rejects (x.length + 1)
    exact ⟨fun r hr => hok r (Turn.map_eq_ok.mp hr), fun err herr => hfail err (Turn.map_eq_fail.mp herr)⟩

theorem lzDecodeRun_of_not_denotes {x : List Byte} (hx : ¬ Denotes x) :
    lzDecodeRun Limits.unbounded x = .fail .invalidCode := by
  obtain ⟨hok, hfail⟩ := lzDecodeRun_rejectsOnly x
  rcases Turn.finishes_iff.mp (engineOf_finishes (.lzDecode false) Limits.unbounded x) with ⟨r, hr⟩ | ⟨err, herr⟩
  · exact absurd (hok r hr) hx
  · exact hfail err herr ▸ herr

/-- A run under capacities is the run under none, or ends with CapacityExceeded, whatever DICT_CAP is. -/
theorem lzDecodeRun_eq_or_exceeds (lim : Limits) (x : List Byte) :
    lzDecodeRun lim x = lzDecodeRun Limits.unbounded x ∨ lzDecodeRun lim x = .fail .capacityExceeded := by
  by_cases hx : x = []
  · subst hx
    exact .inl rfl
  · rw [lzDecodeRun_of_ne_nil _ hx, lzDecodeRun_of_ne_nil _ hx]
    rcases drive_eq_or_exceeds (lzDecodeStep_eq_or_exceeds lim) (x.length + 1) (LzDec.begin x) with hsame | hover
    · exact .inl (by rw [hsame])
    · exact .inr (by rw [hover]; rfl)

/-- Codes with entries that fit the capacities, and then a bad field: the run reaches the field and raises InvalidCode
there (42_lz.md R192). -/
theorem lzDecodeRun_of_bad_field {lim : Limits} {cs : List Nat} {es : List Phrase} {f tail : List Byte}
    (hne : separated cs ++ (f ++ tail) ≠ []) (hf : comma ∉ f) (htail : ∀ b, tail.head? = some b → b = comma)
    (hentries : lzEntries cs = some es) (hbad : matchesCode f = false ∨ lzEntries (cs ++ [val f]) = none)
    (hold : lim.Holds ((entriesBytes es).length, lzNextCode cs.length)) :
    lzDecodeRun lim (separated cs ++ (f ++ tail)) = .fail .invalidCode := by
  obtain ⟨e, hfree, hbetween⟩ := (LzDec.between_begin (separated cs ++ (f ++ tail))).drive_codes hentries
  have hreach := lzDecodeStep_cuts.drive_reaches hfree (lim := lim) (by rwa [hbetween.usage_eq])
  obtain ⟨fuel, hfuel⟩ : ∃ fuel, (separated cs ++ (f ++ tail)).length + 1 = cs.length + (fuel + 1) := by
    have hle := length_le_separated cs
    rw [List.length_append]
    exact ⟨(separated cs).length + (f ++ tail).length - cs.length, by omega⟩
  rw [lzDecodeRun_of_ne_nil _ hne, hfuel, drive_add, hreach, Turn.drive,
    drive_fail fuel (hbetween.step_bad lim hf htail hbad)]
  rfl

/-- A supported command whose input fits finishes with its engine's error (40_control.md R126, R128). -/
theorem exec_failed {i : Instr} {s : State} {err : CodecError} (hready : s.idleReady)
    (hstart : startError s.params { alg := (fieldsOf i).alg, dir := (fieldsOf i).dir } s.inLen = none)
    (hrun : engineOf i s.params.limits s.input = .fail err) :
    exec i s = .next (s.failed (fieldsOf i) err s.inLen.toNat) := by
  rw [exec_eq_issue, issue_ready hready.1 hready.2, perform_of_startOk (s := s.accept (fieldsOf i)) hstart]
  have hinput : (s.accept (fieldsOf i)).inputBytes s.inLen.toNat = s.input := rfl
  rw [hinput, State.accept_params, hrun]
  rfl

theorem exec_lzDecode_failed (ie : Bool) {s : State} {err : CodecError} (hready : s.idleReady) (hfits : s.inputFits)
    (hrun : lzDecodeRun s.params.limits s.input = .fail err) :
    exec (.lzDecode ie) s = .next (s.failed { dir := true, alg := 1#2, ie := ie } err s.inLen.toNat) :=
  exec_failed (i := .lzDecode ie) hready (startError_none.mpr ⟨nofun, hfits⟩) hrun

/-- Settles O56: the runs on texts that denote no entries, and on texts with a bad field after fields that fit. -/
theorem lzDecodeRejectsOtherTexts : Obligations.LzDecodeRejectsOtherTexts := by
  have hnot : ∀ x : List Byte, (∀ cs es, x = render cs → lzEntries cs ≠ some es) → ¬ Denotes x :=
    fun x h ⟨cs, es, htext, hentries⟩ => h cs es htext hentries
  refine ⟨fun x hx => lzDecodeRun_of_not_denotes (hnot x hx), fun ie s hready hfits hx => ?_, ?_⟩
  · rcases lzDecodeRun_eq_or_exceeds s.params.limits s.input with hsame | hover
    · exact ⟨_, by simp, exec_lzDecode_failed ie hready hfits (hsame.trans (lzDecodeRun_of_not_denotes (hnot _ hx)))⟩
    · exact ⟨_, by simp, exec_lzDecode_failed ie hready hfits hover⟩
  · intro ie s cs es f tail hready hfits hne htext hf htail hentries hbad hout hdict
    rw [List.append_assoc] at htext
    refine exec_lzDecode_failed ie hready hfits ?_
    rw [htext] at hne ⊢
    exact lzDecodeRun_of_bad_field hne hf htail hentries hbad (Params.holds_limits.mpr ⟨hout, hdict⟩)

end Sys2Proof.Machine
end

section
/-! The control of a command (40_control.md R120 to R131): nothing stops, what the start checks and `raise` leave, and
on what the outcome of a command depends. -/

namespace Sys2Proof.Machine

/-! ## Every command and every step answers -/

theorem issue_next (c : Ctrl) (run : Limits → List Byte → Turn Engine) (s : State) : ∃ t, issue c run s = .next t := by
  rw [issue]
  split_ifs
  · exact ⟨_, rfl⟩
  · exact ⟨_, rfl⟩

theorem exec_next (i : Instr) (s : State) : ∃ t, exec i s = .next t := by
  rw [exec_eq_issue]
  exact issue_next _ _ s

theorem step_next (s : State) : ∃ t, step s = .next t := by
  cases hin : s.inputs with
  | nil => exact ⟨_, step_of_nil hin⟩
  | cons input rest =>
    cases input with
    | bus a => exact ⟨_, step_of_bus hin⟩
    | engine => exact ⟨_, step_of_engine hin⟩
    | assertReset => exact ⟨_, step_of_reset (level := true) hin⟩
    | releaseReset => exact ⟨_, step_of_reset (level := false) hin⟩
    | command w =>
      cases hw : decodeWord w with
      | ok i =>
        rw [step_of_command hin hw]
        exact exec_next i _
      | error err => exact ⟨_, step_of_noCommand hin hw⟩

/-- Settles O5: a command is an `issue`, which always answers, and so does the operation of each input. -/
theorem nothingStops : Obligations.NothingStops := ⟨exec_next, step_next⟩

/-! ## Errors -/

/-- After an error no result register has a specified value (10_state.md R34). -/
theorem regValue_result_of_err {s : State} (herr : s.status.err = true) :
    s.regValue .outLen = none ∧ s.regValue .tokenCount = none ∧ s.regValue .nextCode = none := by
  have hspec : ¬ s.resultsSpecified = true := by simp [State.resultsSpecified, herr]
  exact ⟨if_neg hspec, if_neg hspec, if_neg hspec⟩

/-- Settles O26: `raise` is Finish(E), and its ERR leaves the results unspecified. -/
theorem raiseRecordsOnlyTheError : Obligations.RaiseRecordsOnlyTheError :=
  ⟨rfl, fun _ _ => ⟨rfl, rfl, outByte_unspecified (.inr rfl), regValue_result_of_err rfl⟩⟩

/-- Settles O30: ALG 00 and 01 name a command, so the check of IN_LEN decides. -/
theorem tooLongInputFinishesWithItsError : Obligations.TooLongInputFinishesWithItsError := by
  intro ie s hready hlong
  exact ⟨issue_tooLong rleEncodeRun hready nofun hlong, issue_tooLong rleDecodeRun hready nofun hlong,
    issue_tooLong lzEncodeRun hready nofun hlong, issue_tooLong lzDecodeRun hready nofun hlong⟩

/-! ## What a command word selects -/

/-- `op_sel` of a command word (40_control.md R120). -/
def selectorOf (i : Instr) : OpSel := { alg := (fieldsOf i).alg, dir := (fieldsOf i).dir }

/-- The whole engine of a command (41_rle.md R141, R151; 42_lz.md R172, R186). -/
def Command.run : Command → Limits → List Byte → Turn Engine
  | .rleEncode => rleEncodeRun
  | .rleDecode => rleDecodeRun
  | .lzEncode => lzEncodeRun
  | .lzDecode => lzDecodeRun

/-- The whole engine that a selector selects (30_encoding.md R91, R92). -/
def OpSel.run (sel : OpSel) : Limits → List Byte → Turn Engine :=
  match sel.command with
  | some cmd => cmd.run
  | none => unsupportedRun

theorem OpSel.run_of_command {sel : OpSel} {cmd : Command} (h : sel.command = some cmd) : sel.run = cmd.run := by
  rw [OpSel.run, h]

/-- ALG and DIR of a command word select its engine (30_encoding.md R91). -/
theorem engineOf_eq_run {i : Instr} (h : i.wellFormed = true) : engineOf i = (selectorOf i).run := by
  cases i with
  | unsupportedAlg ie alg dir =>
    have halg : alg = 2#2 ∨ alg = 3#2 := by simpa [Instr.wellFormed] using h
    rcases halg with rfl | rfl <;> rfl
  | _ => rfl

/-- Bits 3:1 of a command word are its ALG and DIR (30_encoding.md R90). -/
theorem selectorOf_eq_of_bits {i i' : Instr} (h : (encode i).extractLsb' 1 3 = (encode i').extractLsb' 1 3) :
    selectorOf i = selectorOf i' := by
  have hfields : ∀ j : Instr, selectorOf j =
      { alg := ((encode j).extractLsb' 1 3).extractLsb' 1 2, dir := ((encode j).extractLsb' 1 3).getLsbD 0 } := by
    intro j
    rw [selectorOf, ← ctrl_ofWord_encode, Ctrl.ofWord]
    congr 1
    · apply BitVec.eq_of_getLsbD_eq
      intro k hk
      have hk3 : 1 + k < 3 := by omega
      simp [hk, hk3, ← Nat.add_assoc]
    · simp
  rw [hfields i, hfields i', h]

/-! ## The outcome of a command -/

/-- How a command taken in `s` ends: the start checks raise, or its engine finishes (40_control.md R122, R131). -/
def State.outcome (s : State) (i : Instr) : Turn Engine :=
  match startError s.params (selectorOf i) s.inLen with
  | some err => .fail err
  | none => engineOf i s.params.limits s.input

theorem State.outcome_finishes (s : State) (i : Instr) : (s.outcome i).Finishes := by
  unfold State.outcome
  split
  · exact nofun
  · exact engineOf_finishes i _ _

/-- A command that is taken settles its outcome on the accepted state, some input bytes taken. -/
theorem exec_settles {i : Instr} {s t : State} (h : exec i s = .next t) (hready : s.idleReady) :
    ∃ k, t = ((s.accept (fieldsOf i)).takeInput k).settle (s.outcome i) := by
  rw [exec_eq_issue, issue_ready hready.1 hready.2] at h
  cases h
  unfold State.outcome
  split
  · next err hcheck => exact ⟨0, perform_of_startError (s := s.accept (fieldsOf i)) hcheck⟩
  · next hcheck => exact ⟨s.inLen.toNat, perform_of_startOk (s := s.accept (fieldsOf i)) hcheck⟩

/-- The start checks look at IN_CAP alone of the parameters (40_control.md R122). -/
theorem startError_congr {p p' : Params} (h : p.inCap = p'.inCap) (sel : OpSel) (n : Word) :
    startError p sel n = startError p' sel n := by
  rw [startError, startError, h]

/-- What a Finish writes is in its turn alone (40_control.md R127, R128). -/
theorem settle_finish_congr {turn : Turn Engine} (h : turn.Finishes) (s s' : State) :
    (s.settle turn).status = (s'.settle turn).status ∧ (s.settle turn).outMem = (s'.settle turn).outMem ∧
      ((s.settle turn).status.err = false →
        (s.settle turn).outLen = (s'.settle turn).outLen ∧ (s.settle turn).tokenCount = (s'.settle turn).tokenCount ∧
          (s.settle turn).nextCode = (s'.settle turn).nextCode) := by
  rcases Turn.finishes_iff.mp h with ⟨r, rfl⟩ | ⟨err, rfl⟩
  · exact ⟨rfl, rfl, fun _ => ⟨rfl, rfl, rfl⟩⟩
  · exact ⟨rfl, rfl, nofun⟩

/-- Settles O33: both commands settle one outcome, which is computed from ALG, DIR, the input and the capacities. -/
theorem outcomeDependsOnInputAndCapacitiesOnly : Obligations.OutcomeDependsOnInputAndCapacitiesOnly := by
  intro i i' s s' t t' hwf hwf' hbits hready hready' hin hout hdict hlen hinput hexec hexec'
  have hsel := selectorOf_eq_of_bits hbits
  have hengine : engineOf i = engineOf i' := by rw [engineOf_eq_run hwf, engineOf_eq_run hwf', hsel]
  have hlimits : s.params.limits = s'.params.limits := by rw [Params.limits, Params.limits, hout, hdict]
  have houtcome : s.outcome i = s'.outcome i' := by
    rw [State.outcome, State.outcome, startError_congr hin, hsel, hlen, hengine, hlimits, hinput]
  obtain ⟨k, rfl⟩ := exec_settles hexec hready
  obtain ⟨k', rfl⟩ := exec_settles hexec' hready'
  rw [houtcome]
  exact settle_finish_congr (s'.outcome_finishes i') _ _

end Sys2Proof.Machine
end

section
/-! The engine one step at a time (40_control.md R129, R131). The steps that `State.engineTurn` makes are those that a
command's whole run drives, so any number of them settles what the run has come to. -/

namespace Sys2Proof.Machine

/-! ## One engine step as a turn -/

/-- One of the four engines runs: the start checks have passed. -/
abbrev Engine.Running (e : Engine) : Prop := e.op? ≠ none

/-- One loop iteration of a running engine (40_control.md R131). -/
def Engine.turn (lim : Limits) : Engine → Turn Engine
  | .rleEncode e => (rleEncodeStep lim e).map .rleEncode
  | .rleDecode e => (rleDecodeStep lim e).map .rleDecode
  | .lzEncode e => (lzEncodeStep lim e).map .lzEncode
  | .lzDecode e => (lzDecodeStep lim e).map .lzDecode
  | .idle => .more .idle
  | .start sel n => .more (.start sel n)

/-- The input bytes a running engine has not taken yet. -/
def Engine.left : Engine → Nat
  | .rleEncode e => e.io.left
  | .rleDecode e => e.io.left
  | .lzEncode e => e.io.left
  | .lzDecode e => e.left
  | .idle | .start _ _ => 0

/-- The three phases of an engine: idle, accepted, running. -/
theorem Engine.cases_running (e : Engine) : e = .idle ∨ (∃ sel n, e = .start sel n) ∨ e.Running := by
  cases e with
  | idle => exact .inl rfl
  | start sel n => exact .inr (.inl ⟨sel, n, rfl⟩)
  | _ => exact .inr (.inr nofun)

theorem engineTurn_of_running {s : State} (h : s.engine.Running) :
    s.engineTurn = s.settle (s.engine.turn s.params.limits) := by
  unfold State.engineTurn
  cases he : s.engine with
  | idle | start => exact absurd (by rw [he]; rfl) h
  | _ => rfl

theorem engineTurn_of_idle {s : State} (h : s.engine = .idle) : s.engineTurn = s := by
  rw [State.engineTurn, h]

theorem engineTurn_of_start {s : State} {sel : OpSel} {n : Word} (h : s.engine = .start sel n) :
    s.engineTurn = s.startTurn sel n := by
  rw [State.engineTurn, h]

theorem engineTurns_of_idle {s : State} (h : s.engine = .idle) (k : Nat) : State.engineTurns k s = s := by
  induction k with
  | zero => rfl
  | succ k ih => rw [State.engineTurns, engineTurn_of_idle h, ih]

section
variable {α β : Type}

theorem Turn.GoesOnWith.imp {P Q : α → Prop} {t : Turn α} (h : t.GoesOnWith P) (hPQ : ∀ e, P e → Q e) :
    t.GoesOnWith Q :=
  Turn.goesOnWith_iff.mpr fun e he => hPQ e (Turn.goesOnWith_iff.mp h e he)

theorem Turn.GoesOnWith.map {P : α → Prop} {Q : β → Prop} {f : α → β} {t : Turn α} (h : t.GoesOnWith P)
    (hf : ∀ e, P e → Q (f e)) : (t.map f).GoesOnWith Q := by
  cases t with
  | more e => exact hf e h
  | ok r => trivial
  | fail err => trivial

/-- A step of a running engine that goes on leaves the engine running, with less of the input to take. -/
theorem Engine.turn_progress (lim : Limits) {e : Engine} (h : e.Running) :
    (e.turn lim).GoesOnWith fun e' => e'.Running ∧ e'.left < e.left := by
  cases e with
  | idle | start => exact absurd rfl h
  | rleEncode e => exact (rleEncodeStep_progress e).map fun _ hlt => ⟨nofun, hlt⟩
  | rleDecode e => exact (rleDecodeStep_progress e).map fun _ hlt => ⟨nofun, hlt⟩
  | lzEncode e => exact (lzEncodeStep_progress e).map fun _ hlt => ⟨nofun, hlt⟩
  | lzDecode e => exact (lzDecodeStep_progress e).map fun _ hlt => ⟨nofun, hlt⟩

/-- The first turn of a command starts its engine with the whole input to take. -/
theorem Command.begin_goesOnWith (cmd : Command) (x : List Byte) :
    (cmd.begin x).GoesOnWith fun e => e.Running ∧ e.left < x.length + 1 := by
  cases cmd with
  | rleEncode => exact ⟨nofun, Io.left_begin_lt x⟩
  | lzEncode => exact ⟨nofun, Io.left_begin_lt x⟩
  | rleDecode =>
    rw [Command.begin, rleDecodeBegin]
    split_ifs
    · trivial
    · exact ⟨nofun, Io.left_begin_lt x⟩
  | lzDecode =>
    rw [Command.begin, lzDecodeBegin]
    split_ifs
    · trivial
    · exact ⟨nofun, Nat.lt_succ_self _⟩

/-! ## Driving turns -/

@[simp] theorem Turn.drive_zero (f : α → Turn α) (t : Turn α) : t.drive f 0 = t := by
  cases t <;> rfl

theorem Turn.drive_more_succ (f : α → Turn α) (k : Nat) (e : α) :
    Turn.drive f (k + 1) (.more e) = (f e).drive f k := by
  rw [Turn.drive, Nat.add_comm, drive_add]
  cases hf : f e with
  | more e' => rw [drive_more 0 hf]; rfl
  | ok r => rw [drive_ok 0 hf]
  | fail err => rw [drive_fail 0 hf]

theorem Turn.Finishes.drive {t : Turn α} (h : t.Finishes) (f : α → Turn α) (k : Nat) : t.drive f k = t := by
  rcases Turn.finishes_iff.mp h with ⟨r, rfl⟩ | ⟨err, rfl⟩ <;> rfl

theorem Turn.drive_add (f : α → Turn α) (m n : Nat) (t : Turn α) : t.drive f (m + n) = (t.drive f m).drive f n := by
  cases t with
  | more e => exact Sys2Proof.Machine.drive_add f m n e
  | ok r => rfl
  | fail err => rfl

/-- Two numbers of steps that both finish come to the same Finish. -/
theorem Turn.drive_eq_of_finishes {f : α → Turn α} {t : Turn α} {m n : Nat} (hm : (t.drive f m).Finishes)
    (hn : (t.drive f n).Finishes) : t.drive f m = t.drive f n := by
  rcases Nat.le_total m n with h | h
  · rw [← Nat.add_sub_cancel' h, Turn.drive_add, hm.drive]
  · rw [← Nat.add_sub_cancel' h, Turn.drive_add, hn.drive]

/-- An engine that is driven inside a wider one takes the same steps. -/
theorem Turn.map_drive {f : α → Turn α} {g : β → Turn β} {wide : α → β} (hstep : ∀ e, g (wide e) = (f e).map wide)
    (t : Turn α) (k : Nat) : (t.drive f k).map wide = (t.map wide).drive g k := by
  induction k generalizing t with
  | zero => simp
  | succ k ih =>
    cases t with
    | more e => rw [Turn.drive_more_succ, ih, Turn.map, Turn.drive_more_succ, hstep]
    | ok r => rfl
    | fail err => rfl

end

/-- A command's whole run is its first turn and the engine's steps after it. -/
theorem Command.run_eq_drive (cmd : Command) (lim : Limits) (x : List Byte) :
    cmd.run lim x = (cmd.begin x).drive (Engine.turn lim) (x.length + 1) := by
  cases cmd with
  | rleEncode => exact Turn.map_drive (f := rleEncodeStep lim) (g := Engine.turn lim) (fun _ => rfl) (rleEncodeBegin x) _
  | rleDecode => exact Turn.map_drive (f := rleDecodeStep lim) (g := Engine.turn lim) (fun _ => rfl) (rleDecodeBegin x) _
  | lzEncode => exact Turn.map_drive (f := lzEncodeStep lim) (g := Engine.turn lim) (fun _ => rfl) (lzEncodeBegin x) _
  | lzDecode => exact Turn.map_drive (f := lzDecodeStep lim) (g := Engine.turn lim) (fun _ => rfl) (lzDecodeBegin x) _

/-- A running engine finishes within one step more than it has bytes left. -/
theorem Turn.drive_turn_finishes (lim : Limits) {t : Turn Engine} {k : Nat}
    (h : t.GoesOnWith fun e => e.Running ∧ e.left < k) : (t.drive (Engine.turn lim) k).Finishes := by
  cases t with
  | more e =>
    obtain ⟨hrun, hleft⟩ := h
    exact Sys2Proof.Machine.drive_finishes (P := Engine.Running) Engine.left
      (fun e₁ e₂ h₁ hstep => Turn.goesOnWith_iff.mp (Engine.turn_progress lim h₁) e₂ hstep) k e hrun hleft
  | ok r => exact nofun
  | fail err => exact nofun

/-! ## Engine steps of the block -/

/-- Settling again replaces what was settled of a command in flight. -/
theorem settle_settle_more (e : Engine) (t : Turn Engine) (s : State) : (s.settle (.more e)).settle t = s.settle t := by
  cases t <;> rfl

/-- `k` engine steps after a turn settle what the turn comes to in `k` steps. -/
theorem engineTurns_settle (k : Nat) {t : Turn Engine} (ht : t.GoesOnWith Engine.Running) (s : State) :
    State.engineTurns k (s.settle t) = s.settle (t.drive (Engine.turn s.params.limits) k) := by
  induction k generalizing t with
  | zero =>
    rw [Turn.drive_zero]
    rfl
  | succ k ih =>
    cases t with
    | more e =>
      have hnext := (Engine.turn_progress s.params.limits ht).imp fun _ h => h.1
      rw [State.engineTurns, engineTurn_of_running (s := s.settle (.more e)) ht, State.settle_params,
        settle_settle_more, settle_more, ih hnext, Turn.drive_more_succ]
    | ok r => exact engineTurns_of_idle (s := s.settle (.ok r)) rfl _
    | fail err => exact engineTurns_of_idle (s := s.settle (.fail err)) rfl _

/-- The first step of a command settles a turn, which starts an engine or finishes (40_control.md R122, R124). -/
theorem startTurn_settles (sel : OpSel) (n : Word) (s : State) :
    ∃ k t, s.startTurn sel n = (s.takeInput k).settle t ∧
      t.GoesOnWith fun e => e.Running ∧ e.left < n.toNat + 1 := by
  unfold State.startTurn
  split
  · exact ⟨0, .fail _, rfl, trivial⟩
  · exact ⟨0, .fail _, rfl, trivial⟩
  · next cmd _ _ =>
    have hbegin := cmd.begin_goesOnWith (s.inputBytes n.toNat)
    rw [inputBytes_length] at hbegin
    exact ⟨n.toNat, _, rfl, hbegin⟩

/-- All an engine step can do: nothing, or settle a turn, some input bytes taken. -/
theorem engineTurn_cases (s : State) :
    s.engineTurn = s ∨ ∃ k t, s.engineTurn = (s.takeInput k).settle t := by
  rcases s.engine.cases_running with hidle | ⟨sel, n, hstart⟩ | hrun
  · exact .inl (engineTurn_of_idle hidle)
  · obtain ⟨k, t, hturn, -⟩ := startTurn_settles sel n s
    exact .inr ⟨k, t, (engineTurn_of_start hstart).trans hturn⟩
  · exact .inr ⟨0, _, engineTurn_of_running hrun⟩

/-! ## A command in flight finishes -/

/-- The block after a Finish (40_control.md R127, R128). -/
abbrev State.Finished (s : State) : Prop := s.status.busy = false ∧ s.status.done = true ∧ s.phase = .idle

theorem settle_finished {t : Turn Engine} (h : t.Finishes) (s : State) : (s.settle t).Finished := by
  rcases Turn.finishes_iff.mp h with ⟨r, rfl⟩ | ⟨err, rfl⟩ <;> exact ⟨rfl, rfl, rfl⟩

theorem engineTurns_settle_finished {t : Turn Engine} {k : Nat} (h : t.GoesOnWith fun e => e.Running ∧ e.left < k)
    (s : State) : (State.engineTurns k (s.settle t)).Finished := by
  rw [engineTurns_settle k (h.imp fun _ he => he.1)]
  exact settle_finished (Turn.drive_turn_finishes _ h) s

/-- A legal engine state has at most IN_LEN bytes left. -/
theorem Engine.left_le {e : Engine} {p : Params} {c : Ctrl} {inLen : Word} (h : e.legal p c inLen) :
    e.left ≤ inLen.toNat := by
  cases e
  case idle | start => exact Nat.zero_le _
  all_goals
    obtain ⟨-, -, ⟨hlen, -⟩, -⟩ := h
    exact hlen ▸ Nat.sub_le _ _

/-- While BUSY = 1, OUT_MEM lists what the engine has emitted, so the state is one that a turn settles. -/
theorem State.Inv.settle_engine {s : State} (h : s.Inv) (hbusy : s.status.busy = true) :
    s.settle (.more s.engine) = s := by
  obtain ⟨-, -, -, -, -, ⟨hout, -, -⟩, -, -⟩ := h
  rw [settle_more, ← hout hbusy]

/-- A block that is busy finishes within two engine steps more than its input has bytes: the start, one for each byte,
and the end. -/
theorem State.Inv.engineTurns_finished {s : State} (h : s.Inv) (hbusy : s.status.busy = true) :
    ∃ k, k ≤ s.inLen.toNat + 2 ∧ (State.engineTurns k s).Finished := by
  have hengine : s.engine.legal s.params s.ctrl s.inLen := by
    obtain ⟨-, -, -, -, -, -, hengine, -⟩ := h
    exact hengine
  rcases s.engine.cases_running with hidle | ⟨sel, n, hstart⟩ | hrun
  · obtain ⟨-, -, hphase, -⟩ := h
    exact nomatch hbusy.symm.trans (hphase.mp (Engine.phase_eq_idle.mpr hidle))
  · rw [hstart] at hengine
    obtain ⟨-, rfl⟩ := hengine
    obtain ⟨k, t, hturn, ht⟩ := startTurn_settles sel s.inLen s
    refine ⟨s.inLen.toNat + 2, le_rfl, ?_⟩
    rw [State.engineTurns, engineTurn_of_start hstart, hturn]
    exact engineTurns_settle_finished ht _
  · refine ⟨s.inLen.toNat + 1, Nat.le_succ _, ?_⟩
    rw [← h.settle_engine hbusy]
    exact engineTurns_settle_finished (t := .more s.engine) ⟨hrun, Nat.lt_succ_of_le (Engine.left_le hengine)⟩ s

@[simp] theorem State.settle_inputs (t : Turn Engine) (s : State) : (s.settle t).inputs = s.inputs := by
  cases t <;> rfl

theorem State.engineTurn_inputs (s : State) : s.engineTurn.inputs = s.inputs := by
  rcases engineTurn_cases s with h | ⟨k, t, h⟩
  · rw [h]
  · rw [h, State.settle_inputs, State.takeInput_inputs]

theorem run_of_step {s s' : State} (h : step s = .next s') (k : Nat) :
    Host.Core.run Sys2Proof.core (k + 1) s = Host.Core.run Sys2Proof.core k s' := by
  simp [Host.Core.run, Sys2Proof.core, h]

/-- With nothing pending every step is an engine step (log 13). -/
theorem run_of_no_inputs {s : State} (h : s.inputs = []) (k : Nat) :
    Host.Core.run Sys2Proof.core k s = .next (State.engineTurns k s) := by
  induction k generalizing s with
  | zero => rfl
  | succ k ih => rw [run_of_step (step_of_nil h), ih (s.engineTurn_inputs.trans h), State.engineTurns]

/-- Settles O34: with nothing pending a run is engine steps, and the engine has no more bytes left than IN_LEN. -/
theorem everyCommandFinishes : Obligations.EveryCommandFinishes := by
  intro s hinv _ hbusy hin
  obtain ⟨k, hk, hfinished⟩ := hinv.engineTurns_finished hbusy
  exact ⟨k, _, hk, run_of_no_inputs hin k, hfinished⟩

end Sys2Proof.Machine
end

section
/-! A command taken step by step (40_control.md R131). The engine sees nothing of what a host does while BUSY = 1, so the
engine steps of a run with host accesses in between are those of a run without; and these come to what the
one-transition meaning gives. -/

namespace Sys2Proof.Machine

/-! ## Engine steps come to what the one transition gives -/

theorem settle_busy_of_not_finishes {s : State} (hbusy : s.status.busy = true) {t : Turn Engine}
    (h : (s.settle t).status.busy = false) : t.Finishes := by
  rintro e rfl
  exact nomatch hbusy.symm.trans h

/-- The start of a command fails the start checks, or settles the first turn of the command's engine. -/
theorem startTurn_cases (sel : OpSel) (n : Word) (s : State) :
    (∃ err, startError s.params sel n = some err ∧ s.startTurn sel n = s.finishError err) ∨
      ∃ cmd, startError s.params sel n = none ∧ sel.command = some cmd ∧
        s.startTurn sel n = (s.takeInput n.toNat).settle (cmd.begin (s.inputBytes n.toNat)) := by
  cases hcheck : startError s.params sel n with
  | some err => exact .inl ⟨err, rfl, by rw [State.startTurn, hcheck]⟩
  | none =>
    obtain ⟨hsel, -⟩ := startError_none.mp hcheck
    obtain ⟨cmd, hcmd⟩ := Option.ne_none_iff_exists'.mp hsel
    exact .inr ⟨cmd, rfl, hcmd, by rw [State.startTurn, hcheck, hcmd]⟩

/-- As many engine steps as an accepted command needs to finish are its one transition (40_control.md R131). -/
theorem engineTurns_eq_perform {s : State} {sel : OpSel} {n : Word} (hengine : s.engine = .start sel n)
    (hbusy : s.status.busy = true) {k : Nat} (hdone : (State.engineTurns (k + 1) s).status.busy = false) :
    State.engineTurns (k + 1) s = s.perform sel.run sel n := by
  rw [State.engineTurns, engineTurn_of_start hengine] at hdone ⊢
  rcases startTurn_cases sel n s with ⟨err, hcheck, hstart⟩ | ⟨cmd, hcheck, hcmd, hstart⟩
  · rw [hstart, engineTurns_of_idle (State.finishError_engine err s), perform_of_startError hcheck]
  · have hbegin := cmd.begin_goesOnWith (s.inputBytes n.toNat)
    rw [hstart, engineTurns_settle k (hbegin.imp fun _ h => h.1)] at hdone ⊢
    rw [perform_of_startOk hcheck, OpSel.run_of_command hcmd, Command.run_eq_drive]
    have hfinishes := settle_busy_of_not_finishes (s := s.takeInput n.toNat) hbusy hdone
    exact congrArg (State.settle · _) (Turn.drive_eq_of_finishes hfinishes (Turn.drive_turn_finishes _ hbegin))

/-! ## What the engine sees -/

/-- What the engine sees of the block: everything but the outside world's inputs, the bus answer and the host's draws. -/
def State.engineView (s : State) : State := { s with inputs := [], response := .none, hostDraws := 0 }

theorem view_eq_of_engineView {s t : State} (h : s.engineView = t.engineView) : s.view = t.view := by
  have hview := congrArg State.view h
  exact hview

theorem busy_eq_of_engineView {s t : State} (h : s.engineView = t.engineView) : s.status.busy = t.status.busy := by
  have hbusy := congrArg (fun u : State => u.status.busy) h
  exact hbusy

theorem settle_engineView (t : Turn Engine) (s : State) : (s.settle t).engineView = s.engineView.settle t := by
  cases t <;> rfl

theorem startTurn_engineView (sel : OpSel) (n : Word) (s : State) :
    (s.startTurn sel n).engineView = s.engineView.startTurn sel n := by
  rcases startTurn_cases sel n s with ⟨err, hcheck, hstart⟩ | ⟨cmd, hcheck, hcmd, hstart⟩
  · have hview : startError s.engineView.params sel n = some err := hcheck
    rw [hstart, State.startTurn, hview]
    rfl
  · have hview : startError s.engineView.params sel n = none := hcheck
    rw [hstart, State.startTurn, hview, hcmd, settle_engineView]
    rfl

theorem engineTurn_engineView (s : State) : s.engineTurn.engineView = s.engineView.engineTurn := by
  rcases s.engine.cases_running with hidle | ⟨sel, n, hstart⟩ | hrun
  · rw [engineTurn_of_idle hidle, engineTurn_of_idle (s := s.engineView) hidle]
  · rw [engineTurn_of_start hstart, engineTurn_of_start (s := s.engineView) hstart, startTurn_engineView]
  · rw [engineTurn_of_running hrun, engineTurn_of_running (s := s.engineView) hrun, settle_engineView]
    rfl

theorem engineTurns_engineView (k : Nat) (s : State) :
    (State.engineTurns k s).engineView = State.engineTurns k s.engineView := by
  induction k generalizing s with
  | zero => rfl
  | succ k ih => rw [State.engineTurns, ih, engineTurn_engineView, State.engineTurns]

theorem engineTurns_congr {s t : State} (h : s.engineView = t.engineView) (k : Nat) :
    (State.engineTurns k s).engineView = (State.engineTurns k t).engineView := by
  rw [engineTurns_engineView, engineTurns_engineView, h]

/-- No host access reaches the engine while BUSY = 1 (10_state.md R28). -/
theorem access_of_busy {s : State} (hbusy : s.status.busy = true) (a : Access) :
    ∃ resp k, s.access a = { s with response := resp, hostDraws := k } := by
  obtain ⟨t, resp, k, h, heffect⟩ := access_effect s a
  have ht : t = s := by
    rcases heffect with rfl | ⟨-, ⟨r, w, rfl⟩ | ⟨i, v, -, rfl⟩⟩
    · rfl
    · exact writeReg_busy hbusy r w
    · exact writeIn_busy hbusy i v
  exact ⟨resp, k, ht ▸ h⟩

/-! ## A run with host accesses in between -/

/-- The engine never sets BUSY. -/
theorem busy_of_engineTurn_busy {s : State} (h : s.engineTurn.status.busy = true) : s.status.busy = true := by
  rcases engineTurn_cases s with hsame | ⟨k, t, hturn⟩
  · rwa [hsame] at h
  · rw [hturn] at h
    cases t with
    | more e => exact h
    | ok r => cases h
    | fail err => cases h

theorem busy_of_engineTurns_busy {k : Nat} {s : State} (h : (State.engineTurns k s).status.busy = true) :
    s.status.busy = true := by
  induction k generalizing s with
  | zero => exact h
  | succ k ih => exact busy_of_engineTurn_busy (ih h)

/-- What the engine sees of a step that is an engine turn. -/
theorem step_engine_engineView {s : State} {rest : List Input} (hin : s.inputs = .engine :: rest) :
    ∃ s', step s = .next s' ∧ s'.inputs = rest ∧ s'.engineView = s.engineTurn.engineView := by
  refine ⟨_, step_of_engine hin, State.engineTurn_inputs _, ?_⟩
  rw [engineTurn_engineView, engineTurn_engineView]
  rfl

/-- The engine sees nothing of a step that is a host access while BUSY = 1. -/
theorem step_bus_engineView {s : State} {a : Access} {rest : List Input} (hin : s.inputs = .bus a :: rest)
    (hbusy : s.status.busy = true) :
    ∃ s', step s = .next s' ∧ s'.inputs = rest ∧ s'.engineView = s.engineView := by
  obtain ⟨resp, k, haccess⟩ := access_of_busy (s := s.pop rest) hbusy a
  exact ⟨_, step_of_bus hin, by rw [haccess]; rfl, by rw [haccess]; rfl⟩

/-- A run over host accesses and engine steps, the block busy before the last of them, shows the engine just the engine
steps. -/
theorem run_busy_events {events : List Input} {s : State} (hevents : ∀ e ∈ events, e = .engine ∨ ∃ a, e = .bus a)
    (hin : s.inputs = events ++ [.engine])
    (hbusy : (State.engineTurns (events.countP (· == .engine)) s).status.busy = true) :
    ∃ u, Host.Core.run Sys2Proof.core (events.length + 1) s = .next u ∧
      u.engineView = (State.engineTurns (events.countP (· == .engine) + 1) s).engineView := by
  induction events generalizing s with
  | nil =>
    obtain ⟨s', hstep, -, hview⟩ := step_engine_engineView hin
    exact ⟨s', run_of_step hstep 0, hview⟩
  | cons event events ih =>
    have hrest : ∀ e ∈ events, e = .engine ∨ ∃ a, e = .bus a := fun e he => hevents e (List.mem_cons_of_mem _ he)
    rcases hevents event List.mem_cons_self with rfl | ⟨a, rfl⟩
    · have hcount : (Input.engine :: events).countP (· == .engine) = events.countP (· == .engine) + 1 := by simp
      rw [hcount] at hbusy ⊢
      obtain ⟨s', hstep, hin', hview'⟩ := step_engine_engineView hin
      obtain ⟨u, hrun, hview⟩ := ih hrest hin'
        ((busy_eq_of_engineView (engineTurns_congr hview' _)).trans hbusy)
      exact ⟨u, (run_of_step hstep _).trans hrun, hview.trans (engineTurns_congr hview' _)⟩
    · have hcount : (Input.bus a :: events).countP (· == .engine) = events.countP (· == .engine) := by simp
      rw [hcount] at hbusy ⊢
      obtain ⟨s', hstep, hin', hview'⟩ := step_bus_engineView hin (busy_of_engineTurns_busy hbusy)
      obtain ⟨u, hrun, hview⟩ := ih hrest hin'
        ((busy_eq_of_engineView (engineTurns_congr hview' _)).trans hbusy)
      exact ⟨u, (run_of_step hstep _).trans hrun, hview.trans (engineTurns_congr hview' _)⟩

/-! ## The two meanings of a command -/

theorem encode_start (i : Instr) : (encode i).getLsbD 0 = true := by
  cases i <;> exact (Laws.FixedBits.of_commandWord _ _ _).1

/-- The START write of a command on the bus is its acceptance (40_control.md R120). -/
theorem access_start {s : State} (hready : s.idleReady) (i : Instr) :
    s.access (.write s.params.base (lanesOfWord (encode i))) = { s.accept (fieldsOf i) with response := .done } := by
  refine (access_write_reg hready.1 .ctrl (encode i)).trans ?_
  rw [State.writeReg, writeCtrl_start hready (encode_start i), ctrl_ofWord_encode]

/-- The engine sees the acceptance of a step that is the START write of a command. -/
theorem step_start_engineView {i : Instr} {s : State} {rest : List Input} (hready : s.idleReady)
    (hin : s.inputs = .bus (.write s.params.base (lanesOfWord (encode i))) :: rest) :
    ∃ s', step s = .next s' ∧ s'.inputs = rest ∧ s'.engineView = (s.accept (fieldsOf i)).engineView := by
  have haccess := access_start (s := s.pop rest) hready i
  rw [State.pop_params] at haccess
  exact ⟨_, step_of_bus hin, by rw [haccess]; rfl, by rw [haccess]; rfl⟩

/-- As many engine steps as a command needs after its START write show the engine the end of its one transition. -/
theorem engineTurns_eq_exec {i : Instr} {s t : State} (hwf : i.wellFormed = true) (hready : s.idleReady)
    (hexec : exec i s = .next t) {accepted : State} (haccepted : accepted.engineView = (s.accept (fieldsOf i)).engineView)
    {k : Nat} (hdone : (State.engineTurns (k + 1) accepted).status.busy = false) :
    (State.engineTurns (k + 1) accepted).engineView = t.engineView := by
  have hshown := engineTurns_congr haccepted (k + 1)
  rw [busy_eq_of_engineView hshown] at hdone
  rw [exec_eq_issue, issue_ready hready.1 hready.2, engineOf_eq_run hwf] at hexec
  cases hexec
  rw [hshown, engineTurns_eq_perform (s := s.accept (fieldsOf i)) rfl rfl hdone]
  rfl

/-- Settles O35: the START write accepts the command, the accesses show the engine nothing, and the engine's steps come
to the one transition. -/
theorem steppedCommandEqualsMeaning : Obligations.SteppedCommandEqualsMeaning := by
  intro i s accepted t events hwf hready hexec haccepted hevents hbusy hdone hin
  have hshown : accepted.engineView = (s.accept (fieldsOf i)).engineView := by
    rw [haccepted, access_start hready]
    rfl
  obtain ⟨started, hstep, hrest, hstarted⟩ := step_start_engineView hready hin
  have hturns := engineTurns_congr (hstarted.trans hshown.symm)
  obtain ⟨u, hrun, hview⟩ := run_busy_events hevents hrest ((busy_eq_of_engineView (hturns _)).trans hbusy)
  refine ⟨u, (run_of_step hstep _).trans hrun, view_eq_of_engineView ?_⟩
  exact hview.trans ((hturns _).trans (engineTurns_eq_exec hwf hready hexec hshown hdone))

end Sys2Proof.Machine
end

section
/-! The runs and the tokens of an input (41_rle.md R140, R145): `runs` is the one decomposition into maximal runs, and
the tokens are found greedily from the front, as the encoder finds them. -/

namespace Sys2Proof.Machine

/-! ## Runs -/

/-- The bytes that a list of values and lengths stands for. -/
def runBytes (rs : List (Byte × Nat)) : List Byte := rs.flatMap fun r => List.replicate r.2 r.1

theorem runBytes_cons (r : Byte × Nat) (rs : List (Byte × Nat)) :
    runBytes (r :: rs) = List.replicate r.2 r.1 ++ runBytes rs := rfl

theorem runBytes_length (rs : List (Byte × Nat)) : (runBytes rs).length = (rs.map Prod.snd).sum := by
  simp only [runBytes, List.length_flatMap, List.length_replicate]

/-- `rs` are maximal runs: none is empty, and neighbouring values differ (41_rle.md R140). -/
abbrev MaximalRuns (rs : List (Byte × Nat)) : Prop := (∀ r ∈ rs, 1 ≤ r.2) ∧ rs.IsChain fun a b => a.1 ≠ b.1

theorem runs_cons_same {b : Byte} {bs : List Byte} {len : Nat} {rest : List (Byte × Nat)}
    (h : runs bs = (b, len) :: rest) : runs (b :: bs) = (b, len + 1) :: rest := by
  simp [runs, h]

theorem runs_cons_new {b : Byte} {bs : List Byte} (h : ∀ r ∈ (runs bs).head?, b ≠ r.1) :
    runs (b :: bs) = (b, 1) :: runs bs := by
  cases hruns : runs bs with
  | nil => simp [runs, hruns]
  | cons r rest =>
    rw [hruns] at h
    simp [runs, hruns, h r rfl]

/-- A byte more at the front makes the first run longer, or is a new run. -/
theorem runs_cons_cases (b : Byte) (bs : List Byte) :
    (∃ len rest, runs bs = (b, len) :: rest) ∨ ∀ r ∈ (runs bs).head?, b ≠ r.1 := by
  cases runs bs with
  | nil => exact .inr nofun
  | cons r rest =>
    obtain ⟨v, len⟩ := r
    by_cases hv : b = v
    · exact .inl ⟨len, rest, by rw [hv]⟩
    · exact .inr fun r hr => by
        cases hr
        exact hv

/-- The first run has the value of the first byte. -/
theorem runs_head? (x : List Byte) : (runs x).head?.map Prod.fst = x.head? := by
  cases x with
  | nil => rfl
  | cons b bs =>
    rcases runs_cons_cases b bs with ⟨len, rest, h⟩ | h
    · simp [runs_cons_same h]
    · simp [runs_cons_new h]

theorem runBytes_runs (x : List Byte) : runBytes (runs x) = x := by
  induction x with
  | nil => rfl
  | cons b bs ih =>
    rcases runs_cons_cases b bs with ⟨len, rest, h⟩ | h
    · rw [h] at ih
      rw [runs_cons_same h]
      simpa [runBytes_cons, List.replicate_succ] using ih
    · rw [runs_cons_new h]
      simpa [runBytes_cons] using ih

theorem maximalRuns_runs (x : List Byte) : MaximalRuns (runs x) := by
  induction x with
  | nil => exact ⟨nofun, .nil⟩
  | cons b bs ih =>
    obtain ⟨hpos, hchain⟩ := ih
    rcases runs_cons_cases b bs with ⟨len, rest, h⟩ | h
    · rw [h] at hpos hchain
      rw [runs_cons_same h]
      obtain ⟨hhead, htail⟩ := List.isChain_cons.mp hchain
      exact ⟨List.forall_mem_cons.mpr ⟨Nat.le_add_left 1 len, (List.forall_mem_cons.mp hpos).2⟩,
        List.isChain_cons.mpr ⟨hhead, htail⟩⟩
    · rw [runs_cons_new h]
      exact ⟨List.forall_mem_cons.mpr ⟨le_rfl, hpos⟩, List.isChain_cons.mpr ⟨h, hchain⟩⟩

theorem runs_replicate_append_same {v : Byte} {y : List Byte} {len : Nat} {rest : List (Byte × Nat)}
    (h : runs y = (v, len) :: rest) (n : Nat) : runs (List.replicate n v ++ y) = (v, len + n) :: rest := by
  induction n with
  | zero => exact h
  | succ n ih => exact runs_cons_same ih

theorem runs_replicate_append_new {v : Byte} {y : List Byte} (h : ∀ r ∈ (runs y).head?, v ≠ r.1) {n : Nat}
    (hn : 1 ≤ n) : runs (List.replicate n v ++ y) = (v, n) :: runs y := by
  obtain ⟨n, rfl⟩ := Nat.exists_eq_add_of_le' hn
  rw [List.replicate_succ', List.append_assoc, List.singleton_append,
    runs_replicate_append_same (runs_cons_new h), Nat.add_comm]

theorem runs_runBytes {rs : List (Byte × Nat)} (h : MaximalRuns rs) : runs (runBytes rs) = rs := by
  obtain ⟨hpos, hchain⟩ := h
  induction rs with
  | nil => rfl
  | cons r rs ih =>
    obtain ⟨hr, hpos⟩ := List.forall_mem_cons.mp hpos
    obtain ⟨hhead, htail⟩ := List.isChain_cons.mp hchain
    have hrest : runs (runBytes rs) = rs := ih hpos htail
    rw [runBytes_cons, runs_replicate_append_new (by rwa [hrest]) hr, hrest]

/-- Settles O39: `runs x` is such a list, and `runs` gives such a list back from its bytes. -/
theorem runsAreTheMaximalRuns : Obligations.RunsAreTheMaximalRuns := by
  intro x rs
  constructor
  · rintro ⟨rfl, hmax⟩
    exact (runs_runBytes hmax).symm
  · rintro rfl
    exact ⟨(runBytes_runs x).symm, maximalRuns_runs x⟩

/-! ## The tokens of one run -/

theorem splitRun_add_255 (v : Byte) (len : Nat) : splitRun (v, len + 255) = (v, 255) :: splitRun (v, len) := by
  simp [splitRun, Nat.add_div_right, List.replicate_succ]

theorem splitRun_short (v : Byte) {len : Nat} (hpos : 1 ≤ len) (hle : len ≤ 255) : splitRun (v, len) = [(v, len)] := by
  rcases hle.lt_or_eq with hlt | rfl
  · simp [splitRun, Nat.div_eq_of_lt hlt, Nat.mod_eq_of_lt hlt, Nat.pos_iff_ne_zero.mp hpos]
  · simp [splitRun]

/-- The tokens of a run from the front: none for no bytes, one for at most 254, and else a full one first. -/
theorem splitRun_induction {v : Byte} {P : Nat → List (Byte × Nat) → Prop} (empty : P 0 [])
    (short : ∀ len, 1 ≤ len → len < 255 → P len [(v, len)])
    (full : ∀ len ts, P len ts → P (len + 255) ((v, 255) :: ts)) (len : Nat) : P len (splitRun (v, len)) := by
  induction len using Nat.strong_induction_on with
  | h len ih =>
    by_cases hzero : len = 0
    · subst hzero
      simpa [splitRun] using empty
    by_cases hlt : len < 255
    · have hpos : 1 ≤ len := Nat.pos_of_ne_zero hzero
      rw [splitRun_short v hpos hlt.le]
      exact short len hpos hlt
    · obtain ⟨len, rfl⟩ := Nat.exists_eq_add_of_le' (Nat.not_lt.mp hlt)
      rw [splitRun_add_255]
      exact full len _ (ih len (by omega))

/-- Split keeps the value, and every token has a run length that a byte can hold (41_rle.md R145). -/
theorem mem_splitRun {r t : Byte × Nat} (h : t ∈ splitRun r) : t.1 = r.1 ∧ 1 ≤ t.2 ∧ t.2 ≤ 255 := by
  refine splitRun_induction (v := r.1) (P := fun _ ts => ∀ t ∈ ts, t.1 = r.1 ∧ 1 ≤ t.2 ∧ t.2 ≤ 255) nofun ?_ ?_ r.2 t h
  · intro len hpos hlt
    simp [hpos, hlt.le]
  · intro len ts ih
    simpa using ih

theorem splitRun_sum (r : Byte × Nat) : ((splitRun r).map Prod.snd).sum = r.2 := by
  refine splitRun_induction (v := r.1) (P := fun len ts => (ts.map Prod.snd).sum = len) rfl ?_ ?_ r.2
  · intro len _ _
    simp
  · intro len ts ih
    simp [ih, Nat.add_comm]

theorem splitRun_length (r : Byte × Nat) : (splitRun r).length = (r.2 + 254) / 255 := by
  refine splitRun_induction (v := r.1) (P := fun len ts => ts.length = (len + 254) / 255) rfl ?_ ?_ r.2
  · intro len hpos hlt
    simp only [List.length_singleton]
    omega
  · intro len ts ih
    simp only [List.length_cons, ih]
    omega

theorem runBytes_splitRun (r : Byte × Nat) : runBytes (splitRun r) = List.replicate r.2 r.1 := by
  refine splitRun_induction (v := r.1) (P := fun len ts => runBytes ts = List.replicate len r.1) rfl ?_ ?_ r.2
  · intro len _ _
    simp [runBytes]
  · intro len ts ih
    rw [runBytes_cons, ih, Nat.add_comm, List.replicate_add]

/-- Only a full token is followed by another of its run. -/
theorem isChain_splitRun (r : Byte × Nat) : (splitRun r).IsChain fun a b => a.1 = b.1 → a.2 = 255 := by
  refine splitRun_induction (v := r.1) (P := fun _ ts => ts.IsChain fun a b => a.1 = b.1 → a.2 = 255) .nil ?_ ?_ r.2
  · intro len _ _
    exact .singleton _
  · intro len ts ih
    exact ih.cons fun _ _ _ => rfl

theorem splitRun_ne_nil {r : Byte × Nat} (h : 1 ≤ r.2) : splitRun r ≠ [] := by
  intro hnil
  have hlen := splitRun_length r
  rw [hnil, List.length_nil] at hlen
  omega

/-! ## The tokens of an input -/

/-- The first token of an input that begins with `n` equal bytes: these bytes, where they are as many as a token holds
or the next byte differs. -/
theorem rleTokens_replicate_append {v : Byte} {y : List Byte} {n : Nat} (hpos : 1 ≤ n) (hle : n ≤ 255)
    (h : n = 255 ∨ y.head? ≠ some v) : rleTokens (List.replicate n v ++ y) = (v, n) :: rleTokens y := by
  rcases runs_cons_cases v y with ⟨len, rest, hsame⟩ | hnew
  · have hhead : y.head? = some v := by rw [← runs_head?, hsame]; rfl
    obtain rfl : n = 255 := h.resolve_right (not_not.mpr hhead)
    rw [rleTokens, rleTokens, runs_replicate_append_same hsame, hsame, List.flatMap_cons, splitRun_add_255,
      List.flatMap_cons, List.cons_append]
  · rw [rleTokens, rleTokens, runs_replicate_append_new hnew hpos, List.flatMap_cons, splitRun_short v hpos hle,
      List.singleton_append]

theorem mem_rleTokens {x : List Byte} {t : Byte × Nat} (h : t ∈ rleTokens x) : 1 ≤ t.2 ∧ t.2 ≤ 255 := by
  obtain ⟨r, -, ht⟩ := List.mem_flatMap.mp h
  exact (mem_splitRun ht).2

/-- The tokens stand for the input. -/
theorem runBytes_rleTokens (x : List Byte) : runBytes (rleTokens x) = x := by
  calc runBytes (rleTokens x)
      = (runs x).flatMap fun r => runBytes (splitRun r) := List.flatMap_assoc
    _ = runBytes (runs x) := List.flatMap_congr fun r _ => runBytes_splitRun r
    _ = x := runBytes_runs x

/-- The number of tokens is the sum of ceil(L/255) over the runs (41_rle.md R143). -/
theorem rleTokens_length (x : List Byte) : (rleTokens x).length = ((runs x).map fun r => (r.2 + 254) / 255).sum := by
  simp only [rleTokens, List.length_flatMap, splitRun_length]

/-- No more tokens than input bytes (41_rle.md R144). -/
theorem rleTokens_length_le (x : List Byte) : (rleTokens x).length ≤ x.length := by
  have hpos : ∀ len ∈ (rleTokens x).map Prod.snd, 1 ≤ len :=
    List.forall_mem_map.mpr fun t ht => (mem_rleTokens ht).1
  calc (rleTokens x).length
      = ((rleTokens x).map Prod.snd).length := (List.length_map _).symm
    _ ≤ ((rleTokens x).map Prod.snd).sum := List.length_le_sum_of_one_le _ hpos
    _ = (runBytes (rleTokens x)).length := (runBytes_length _).symm
    _ = x.length := by rw [runBytes_rleTokens]

/-- Neighbouring tokens of one value come from one run, where the earlier one is full (41_rle.md R145). -/
theorem isChain_rleTokens (x : List Byte) : (rleTokens x).IsChain fun a b => a.1 = b.1 → a.2 = 255 := by
  obtain ⟨hpos, hchain⟩ := maximalRuns_runs x
  have hne : [] ∉ (runs x).map splitRun := by
    simp only [List.mem_map, not_exists, not_and]
    exact fun r hr => splitRun_ne_nil (hpos r hr)
  rw [rleTokens, List.flatMap_def, List.isChain_flatten hne]
  refine ⟨?_, (List.isChain_map splitRun).mpr (hchain.imp fun a b hab s hs t ht hst => absurd hst ?_)⟩
  · simp only [List.mem_map]
    rintro _ ⟨r, -, rfl⟩
    exact isChain_splitRun r
  · rw [(mem_splitRun (List.mem_of_mem_getLast? hs)).1, (mem_splitRun (List.mem_of_mem_head? ht)).1]
    exact hab

/-! ## The byte form of tokens -/

theorem tokenBytes_cons (t : Byte × Nat) (ts : List (Byte × Nat)) :
    tokenBytes (t :: ts) = t.1 :: BitVec.ofNat 8 t.2 :: tokenBytes ts := rfl

theorem tokenBytes_length (ts : List (Byte × Nat)) : (tokenBytes ts).length = 2 * ts.length := by
  induction ts with
  | nil => rfl
  | cons t ts ih => simp [tokenBytes_cons, ih, Nat.mul_add]

/-- The run length of a token is at the odd offset. -/
theorem tokenBytes_getElem?_odd (ts : List (Byte × Nat)) (k : Nat) :
    (tokenBytes ts)[2 * k + 1]? = ts[k]?.map fun t => BitVec.ofNat 8 t.2 := by
  induction ts generalizing k with
  | nil => rfl
  | cons t ts ih =>
    cases k with
    | zero => rfl
    | succ k => exact ih k

theorem toNat_tokenLength {x : List Byte} {t : Byte × Nat} (h : t ∈ rleTokens x) :
    (BitVec.ofNat 8 t.2).toNat = t.2 :=
  Nat.mod_eq_of_lt (Nat.lt_succ_of_le (mem_rleTokens h).2)

theorem rleEnc_length (x : List Byte) : (rleEnc x).length = 2 * (rleTokens x).length := tokenBytes_length _

/-- Settles O43: the framing of the tokens, byte by byte and run by run. -/
theorem rleFraming : Obligations.RleFraming := by
  intro x
  refine ⟨by rw [rleEnc_length, Nat.mul_mod_right], ?_, ?_, ?_⟩
  · intro j b hodd hb
    obtain ⟨k, rfl⟩ : ∃ k, j = 2 * k + 1 := ⟨j / 2, by omega⟩
    rw [rleEnc, tokenBytes_getElem?_odd, Option.map_eq_some_iff] at hb
    obtain ⟨t, ht, rfl⟩ := hb
    have hmem := List.mem_of_getElem? ht
    rw [toNat_tokenLength hmem]
    exact mem_rleTokens hmem
  · intro j a b ha hb
    obtain ⟨_, rfl⟩ := List.getElem?_eq_some_iff.mp ha
    obtain ⟨hlt, rfl⟩ := List.getElem?_eq_some_iff.mp hb
    exact (isChain_rleTokens x).getElem j hlt
  · exact fun r _ => ⟨splitRun_sum r, fun _ => mem_splitRun⟩

end Sys2Proof.Machine
end

section
/-! Engines whose steps keep the outcome that lies ahead, and the RLE_ENCODE engine as one of them: what it has written
and the tokens of the bytes still ahead make up `rle_enc(x)` at every step (41_rle.md R141 to R144). -/

namespace Sys2Proof.Machine

/-! ## The outcome that lies ahead -/

/-- The Finish that an outcome is. -/
def Turn.finish {α : Type} : Except CodecError Result → Turn α
  | .ok r => .ok r
  | .error err => .fail err

/-- A step from `e` goes on with `P` and the same outcome ahead, or finishes with it. -/
def LeadsTo {α : Type} (P : α → Prop) (outcome : α → Except CodecError Result) (e : α) (t : Turn α) : Prop :=
  (∃ e', t = .more e' ∧ P e' ∧ outcome e' = outcome e) ∨ t = .finish (outcome e)

/-- An engine whose steps keep the outcome that lies ahead ends with it, if it ends. -/
theorem drive_eq_finish {α : Type} {f : α → Turn α} {P : α → Prop} {outcome : α → Except CodecError Result}
    (hstep : ∀ e, P e → LeadsTo P outcome e (f e)) {fuel : Nat} {e : α} (he : P e)
    (hends : (drive f fuel e).Finishes) : drive f fuel e = .finish (outcome e) := by
  induction fuel generalizing e with
  | zero => exact absurd rfl (hends e)
  | succ fuel ih =>
    rcases hstep e he with ⟨e', hmore, he', hsame⟩ | hfinish
    · rw [drive_more fuel hmore] at hends ⊢
      rw [ih he' hends, hsame]
    · cases ho : outcome e with
      | ok r => exact drive_ok fuel (by rw [hfinish, ho]; rfl)
      | error err => exact drive_fail fuel (by rw [hfinish, ho]; rfl)

/-- A whole run from a first state. -/
theorem run_eq_finish {α β : Type} {f : α → Turn α} {P : α → Prop} {outcome : α → Except CodecError Result}
    (hstep : ∀ e, P e → LeadsTo P outcome e (f e)) {fuel : Nat} {e : α} (he : P e) {wide : α → β}
    (hends : ((drive f fuel e).map wide).Finishes) : (drive f fuel e).map wide = .finish (outcome e) := by
  have hdrive : (drive f fuel e).Finishes := fun e' h => hends (wide e') (by rw [h]; rfl)
  rw [drive_eq_finish hstep he hdrive]
  cases outcome e <;> rfl

section
variable {α : Type} (bytesOf : α → List Byte)

/-- The result of an RLE command once the tokens `ts`, each written as `bytesOf` says, have been written too. -/
def Io.resultAfter (io : Io) (ts : List α) : Result :=
  { out := io.out ++ ts.flatMap bytesOf, tok := io.tok + ts.length, nextCode := 0 }

theorem Io.resultAfter_nil (io : Io) : io.resultAfter bytesOf [] = io.result 0 := by
  simp [Io.resultAfter, Io.result]

theorem Io.resultAfter_cons (io : Io) (t : α) (ts : List α) :
    io.resultAfter bytesOf (t :: ts) = (io.token (bytesOf t)).resultAfter bytesOf ts := by
  simp [Io.resultAfter, Io.token, Nat.add_assoc, Nat.add_comm 1]

end

/-! ## The encoder -/

theorem Io.drop_of_getElem? {io : Io} {b : Byte} (h : io.x[io.ip]? = some b) :
    io.x.drop io.ip = b :: io.x.drop (io.ip + 1) := by
  obtain ⟨hlt, rfl⟩ := List.getElem?_eq_some_iff.mp h
  exact List.drop_eq_getElem_cons hlt

/-- The two bytes of a token (30_encoding.md R96). -/
abbrev pairBytes (t : Byte × Nat) : List Byte := [t.1, BitVec.ofNat 8 t.2]

/-- The bytes of the current run, which are not in the output yet. -/
def Run.bytes? : Option Run → List Byte
  | none => []
  | some r => List.replicate r.len r.val

/-- The input bytes that are not in the output yet: the current run, and what has not been taken. -/
def RleEnc.ahead (e : RleEnc) : List Byte := Run.bytes? e.run ++ e.io.x.drop e.io.ip

/-- The outcome that lies ahead under no capacities. -/
def RleEnc.outcome (e : RleEnc) : Except CodecError Result := .ok (e.io.resultAfter pairBytes (rleTokens e.ahead))

/-- `run_len` is in 1..255 (10_state.md R37). -/
def RleEnc.RunLegal (e : RleEnc) : Prop := ∀ r, e.run = some r → 1 ≤ r.len ∧ r.len ≤ 255

theorem RleEnc.runLegal_start (io : Io) (b : Byte) :
    RleEnc.RunLegal { io := io, run := some { val := b, len := 1 } } := by
  rintro _ ⟨⟩
  exact ⟨le_rfl, Nat.le_add_left 1 254⟩

/-- The flush of a run that is full, or that the next byte does not continue, is its first token's. -/
theorem Io.resultAfter_flush (io : Io) {r : Run} (hlen : 1 ≤ r.len ∧ r.len ≤ 255) {y : List Byte}
    (hnext : r.len = 255 ∨ y.head? ≠ some r.val) :
    io.resultAfter pairBytes (rleTokens (List.replicate r.len r.val ++ y)) =
      (io.token [r.val, BitVec.ofNat 8 r.len]).resultAfter pairBytes (rleTokens y) := by
  rw [rleTokens_replicate_append hlen.1 hlen.2 hnext, Io.resultAfter_cons]

theorem rleEncodeStep_leadsTo {e : RleEnc} (h : e.RunLegal) :
    LeadsTo RleEnc.RunLegal RleEnc.outcome e (rleEncodeStep Limits.unbounded e) := by
  obtain ⟨io, run⟩ := e
  simp only [rleEncodeStep, emitRun_eq_emitToken, emitToken_unbounded]
  cases hbyte : io.x[io.ip]? with
  | some b =>
    have hdrop := Io.drop_of_getElem? hbyte
    left
    cases run with
    | none =>
      refine ⟨_, rfl, RleEnc.runLegal_start _ b, ?_⟩
      rw [RleEnc.outcome, RleEnc.outcome, RleEnc.ahead, RleEnc.ahead, hdrop]
      rfl
    | some r =>
      have hlen := h r rfl
      dsimp only
      split_ifs with hsame
      · obtain ⟨rfl, hlt⟩ := hsame
        refine ⟨_, rfl, ?_, ?_⟩
        · rintro _ ⟨⟩
          exact ⟨Nat.le_add_left 1 r.len, hlt⟩
        · simp only [RleEnc.outcome, RleEnc.ahead, Run.bytes?, hdrop, List.replicate_succ', List.append_assoc,
            List.singleton_append]
          rfl
      · have hnext : r.len = 255 ∨ (io.x.drop io.ip).head? ≠ some r.val := by
          rw [hdrop, List.head?_cons, ne_eq, Option.some_inj]
          exact (not_and_or.mp hsame).symm.imp_left fun hfull => hlen.2.antisymm (not_lt.mp hfull)
        refine ⟨_, rfl, RleEnc.runLegal_start _ b, ?_⟩
        simp only [RleEnc.outcome, RleEnc.ahead, Run.bytes?]
        rw [Io.resultAfter_flush io hlen hnext, hdrop]
        rfl
  | none =>
    have hdrop : io.x.drop io.ip = [] := List.drop_eq_nil_of_le (List.getElem?_eq_none_iff.mp hbyte)
    right
    cases run with
    | none => simp [RleEnc.outcome, RleEnc.ahead, Run.bytes?, hdrop, rleTokens, runs, Io.resultAfter_nil, Turn.finish]
    | some r =>
      simp only [RleEnc.outcome, RleEnc.ahead, Run.bytes?, hdrop]
      rw [Io.resultAfter_flush io (h r rfl) (.inr (by simp))]
      simp [rleTokens, runs, Io.resultAfter_nil, Turn.finish]

theorem rleEncodeRun_unbounded (x : List Byte) :
    rleEncodeRun Limits.unbounded x = .ok { out := rleEnc x, tok := (rleTokens x).length, nextCode := 0 } := by
  have hrun := run_eq_finish (fun _ => rleEncodeStep_leadsTo) (e := { io := Io.begin x, run := none }) nofun
    (engineOf_finishes (.rleEncode false) Limits.unbounded x)
  refine hrun.trans ?_
  simp only [RleEnc.outcome, RleEnc.ahead, Run.bytes?, Io.begin, List.drop_zero, List.nil_append, Io.resultAfter,
    Nat.zero_add]
  rfl

/-- Settles O40: the run under no capacities, cut to OUT_CAP. -/
theorem rleEncodeEngineComputesRleEnc : Obligations.RleEncodeEngineComputesRleEnc := by
  intro cap dictCap x
  refine ⟨rleEnc_length x, ?_⟩
  have hfits : Limits.Holds { outCap := some cap, dictCap := dictCap } ((rleEnc x).length, 0) ↔
      2 * (rleTokens x).length ≤ cap := by
    rw [rleEnc_length]
    refine ⟨fun hold => hold.1 cap rfl, fun hle => ⟨?_, Limits.holdsDict_zero _⟩⟩
    rintro _ ⟨⟩
    exact hle
  rw [(rleEncodeRun_capacityOnly x).1 _ (rleEncodeRun_unbounded x), if_congr hfits rfl rfl]

/-! ## The command -/

/-- A supported command whose input fits completes with its engine's result (40_control.md R127). -/
theorem exec_completed {i : Instr} {s : State} {r : Result} (hready : s.idleReady)
    (hstart : startError s.params { alg := (fieldsOf i).alg, dir := (fieldsOf i).dir } s.inLen = none)
    (hrun : engineOf i s.params.limits s.input = .ok r) : exec i s = .next (s.completed (fieldsOf i) r) := by
  rw [exec_eq_issue, issue_ready hready.1 hready.2, perform_of_startOk (s := s.accept (fieldsOf i)) hstart]
  have hinput : (s.accept (fieldsOf i)).inputBytes s.inLen.toNat = s.input := rfl
  rw [hinput, State.accept_params, hrun]
  rfl

section
variable {s : State} (hready : s.idleReady) (hfits : s.inputFits) (ie : Bool)
include hready hfits

theorem exec_rleEncode_completed (hout : 2 * (rleTokens s.input).length ≤ s.params.outCap) :
    exec (.rleEncode ie) s =
      .next (s.completed { dir := false, alg := 0#2, ie := ie }
        { out := rleEnc s.input, tok := (rleTokens s.input).length, nextCode := 0 }) := by
  obtain ⟨-, hrun⟩ := rleEncodeEngineComputesRleEnc s.params.outCap (some s.params.dictCap) s.input
  rw [if_pos hout] at hrun
  exact exec_completed (i := .rleEncode ie) hready (startError_none.mpr ⟨nofun, hfits⟩) hrun

theorem exec_rleEncode_failed (hout : s.params.outCap < 2 * (rleTokens s.input).length) :
    exec (.rleEncode ie) s =
      .next (s.failed { dir := false, alg := 0#2, ie := ie } .capacityExceeded s.inLen.toNat) := by
  obtain ⟨-, hrun⟩ := rleEncodeEngineComputesRleEnc s.params.outCap (some s.params.dictCap) s.input
  rw [if_neg (Nat.not_le.mpr hout)] at hrun
  exact exec_failed (i := .rleEncode ie) hready (startError_none.mpr ⟨nofun, hfits⟩) hrun

end

@[simp] theorem State.input_length (s : State) : s.input.length = s.inLen.toNat := inputBytes_length s _

/-- Settles O41: the engine's result when the output fits. -/
theorem rleEncodeCompletes : Obligations.RleEncodeCompletes := fun ie s hready hfits hout =>
  ⟨exec_rleEncode_completed hready hfits ie hout, rleEnc_length s.input, rleTokens_length s.input⟩

/-- Settles O42: the output fits or it does not, and it has at most two bytes for each input byte. -/
theorem rleEncodeFailsOnlyOnCapacity : Obligations.RleEncodeFailsOnlyOnCapacity := by
  intro ie s hready hfits
  have htwice : 2 * (rleTokens s.input).length ≤ 2 * s.inLen.toNat := by
    rw [← s.input_length]
    exact Nat.mul_le_mul_left 2 (rleTokens_length_le s.input)
  have hok : 2 * (rleTokens s.input).length ≤ s.params.outCap →
      ∃ t, exec (.rleEncode ie) s = .next t ∧ t.status.done = true ∧ t.status.err = false :=
    fun hout => ⟨_, exec_rleEncode_completed hready hfits ie hout, rfl, rfl⟩
  exact ⟨exec_rleEncode_failed hready hfits ie, hok, htwice,
    fun hcap => hok (htwice.trans ((Nat.mul_le_mul_left 2 hfits).trans hcap))⟩

end Sys2Proof.Machine
end

section
/-! The RLE_DECODE engine is `rle_dec` (41_rle.md R150 to R153): the outcome that `rle_dec` finds for the pairs still
ahead is the same at every step, errors with their order included. The round trip of R155 follows. -/

namespace Sys2Proof.Machine

/-! ## The functional rule -/

/-- The bytes of a pair (41_rle.md R150). -/
abbrev pairRun (p : Byte × Byte) : List Byte := List.replicate p.2.toNat p.1

/-- The sum of the run lengths. -/
abbrev runSum (ps : List (Byte × Byte)) : Nat := (ps.map fun p => p.2.toNat).sum

theorem expandPairs_length (ps : List (Byte × Byte)) : (expandPairs ps).length = runSum ps := by
  simp only [expandPairs, List.length_flatMap, List.length_replicate]

theorem bytePairs_length : ∀ y : List Byte, (bytePairs y).length = y.length / 2
  | [] => rfl
  | [_] => by simp [bytePairs]
  | _ :: _ :: rest => by
    simp only [bytePairs, List.length_cons, bytePairs_length rest]
    omega

/-- A run length is at most 255 (41_rle.md R153). -/
theorem runSum_le (ps : List (Byte × Byte)) : runSum ps ≤ 255 * ps.length := by
  induction ps with
  | nil => exact le_rfl
  | cons p ps ih =>
    have hbyte := p.2.isLt
    simp only [runSum, List.map_cons, List.sum_cons, List.length_cons] at ih ⊢
    omega

section
variable {outCap : Option Nat} {S : Nat} {p : Byte × Byte}

theorem outCap_any_lt_iff {n : Nat} :
    outCap.any (fun cap => cap < n) = true ↔ ¬ ∀ cap, outCap = some cap → n ≤ cap := by
  cases outCap <;> simp

theorem rleDecCheck_zero (hp : p.2 = 0#8) (ps : List (Byte × Byte)) :
    rleDecCheck outCap S (p :: ps) = .error .malformedStream := if_pos hp

theorem rleDecCheck_over (hp : p.2 ≠ 0#8) (hover : ¬ ∀ cap, outCap = some cap → S + p.2.toNat ≤ cap)
    (ps : List (Byte × Byte)) : rleDecCheck outCap S (p :: ps) = .error .capacityExceeded := by
  rw [rleDecCheck, if_neg hp, if_pos (outCap_any_lt_iff.mpr hover)]

theorem rleDecCheck_fits (hp : p.2 ≠ 0#8) (hfit : ∀ cap, outCap = some cap → S + p.2.toNat ≤ cap)
    (ps : List (Byte × Byte)) : rleDecCheck outCap S (p :: ps) = rleDecCheck outCap (S + p.2.toNat) ps := by
  rw [rleDecCheck, if_neg hp, if_neg (fun hany => outCap_any_lt_iff.mp hany hfit)]

/-- Pairs with nonzero run lengths whose sum fits are passed over. -/
theorem rleDecCheck_append {good : List (Byte × Byte)} (hgood : ∀ p ∈ good, p.2 ≠ 0#8)
    (hfit : ∀ cap, outCap = some cap → S + runSum good ≤ cap) (rest : List (Byte × Byte)) :
    rleDecCheck outCap S (good ++ rest) = rleDecCheck outCap (S + runSum good) rest := by
  induction good generalizing S with
  | nil => rfl
  | cons p good ih =>
    obtain ⟨hp, hgood⟩ := List.forall_mem_cons.mp hgood
    simp only [runSum, List.map_cons, List.sum_cons, ← Nat.add_assoc] at hfit ⊢
    have hfirst : ∀ cap, outCap = some cap → S + p.2.toNat ≤ cap :=
      fun cap hcap => (Nat.le_add_right _ _).trans (hfit cap hcap)
    rw [List.cons_append, rleDecCheck_fits hp hfirst, ih hgood hfit]

end

theorem rleDec_odd (outCap : Option Nat) {y : List Byte} (h : y.length % 2 = 1) :
    rleDec outCap y = .error .malformedStream := if_pos h

theorem rleDec_even (outCap : Option Nat) {y : List Byte} (h : y.length % 2 = 0) :
    rleDec outCap y = (rleDecCheck outCap 0 (bytePairs y)).map fun _ => expandPairs (bytePairs y) := by
  rw [rleDec, if_neg (by omega)]
  cases rleDecCheck outCap 0 (bytePairs y) <;> rfl

/-- `rle_dec` of good pairs is what they stand for. -/
theorem rleDec_of_good {outCap : Option Nat} {y : List Byte} (heven : y.length % 2 = 0)
    (hgood : ∀ p ∈ bytePairs y, p.2 ≠ 0#8)
    (hfit : ∀ cap, outCap = some cap → (expandPairs (bytePairs y)).length ≤ cap) :
    rleDec outCap y = .ok (expandPairs (bytePairs y)) := by
  have hpass := rleDecCheck_append (S := 0) hgood (by simpa [expandPairs_length] using hfit) []
  rw [List.append_nil] at hpass
  rw [rleDec_even outCap heven, hpass]
  rfl

/-- An output of `rle_dec` is the pairs expanded. -/
theorem eq_expandPairs_of_rleDec {outCap : Option Nat} {x y : List Byte} (h : rleDec outCap x = .ok y) :
    y = expandPairs (bytePairs x) := by
  rcases Nat.mod_two_eq_zero_or_one x.length with heven | hodd
  · rw [rleDec_even outCap heven] at h
    cases hcheck : rleDecCheck outCap 0 (bytePairs x) with
    | ok _ =>
      rw [hcheck] at h
      exact (Except.ok.inj h).symm
    | error _ =>
      rw [hcheck] at h
      cases h
  · rw [rleDec_odd outCap hodd] at h
    cases h

/-- Settles O46: the good pairs are passed over, and the pair after them is looked at. -/
theorem rleDecodeErrorOrder : Obligations.RleDecodeErrorOrder := by
  intro cap y
  refine ⟨rleDec_odd (some cap), fun good rest v r heven hpairs hgood hsum => ?_⟩
  have hfit : ∀ c, some cap = some c → 0 + runSum good ≤ c := by
    rintro _ ⟨⟩
    rwa [Nat.zero_add]
  have hreach := rleDecCheck_append hgood hfit ((v, r) :: rest)
  rw [Nat.zero_add] at hreach
  rw [rleDec_even (some cap) heven, hpairs, hreach]
  refine ⟨fun hzero => ?_, fun hover hr => ?_⟩
  · rw [rleDecCheck_zero hzero]
    rfl
  · rw [rleDecCheck_over hr fun hle => absurd (hle cap rfl) (Nat.not_le.mpr hover)]
    rfl

/-! ## The engine -/

theorem takePair_nil {e : RleDec} (h : e.io.x.drop e.io.ip = []) : takePair e = none := by
  have hend := List.drop_eq_nil_iff.mp h
  simp [takePair, List.getElem?_eq_none_iff.mpr hend]

theorem takePair_cons {e : RleDec} {v r : Byte} {rest : List Byte} (h : e.io.x.drop e.io.ip = v :: r :: rest) :
    takePair e = some (.ok { io := { e.io with ip := e.io.ip + 2 }, pair := some { v := v, r := r } }) := by
  have hv : e.io.x[e.io.ip]? = some v := by rw [← List.head?_drop, h]; rfl
  have hr : e.io.x[e.io.ip + 1]? = some r := by rw [← List.getElem?_drop, h]; rfl
  simp only [takePair, hv, hr]

/-- The pairs not taken yet. -/
def RleDec.ahead (e : RleDec) : List (Byte × Byte) := bytePairs (e.io.x.drop e.io.ip)

/-- The outcome that lies ahead: what `rle_dec` finds for the pairs not taken yet, after the bytes written so far. -/
def RleDec.outcome (outCap : Option Nat) (e : RleDec) : Except CodecError Result :=
  (rleDecCheck outCap e.io.out.length e.ahead).map fun _ => e.io.resultAfter pairRun e.ahead

/-- Between two pairs: whole pairs are ahead, and the output is within the capacity. -/
def RleDec.Between (lim : Limits) (e : RleDec) : Prop :=
  (e.io.x.drop e.io.ip).length % 2 = 0 ∧ lim.HoldsOut e.io.out.length

/-- The engine after a good pair `p` whose bytes fit. -/
def RleDec.afterPair (e : RleDec) (p : Byte × Byte) : RleDec :=
  { io := { e.io with ip := e.io.ip + 2 }.token (pairRun p), pair := some { v := p.1, r := p.2 } }

theorem RleDec.afterPair_out_length (e : RleDec) (p : Byte × Byte) :
    (e.afterPair p).io.out.length = e.io.out.length + p.2.toNat := by
  simp [RleDec.afterPair]

theorem rleDecodeStep_leadsTo {lim : Limits} {e : RleDec} (h : e.Between lim) :
    LeadsTo (RleDec.Between lim) (RleDec.outcome lim.outCap) e (rleDecodeStep lim e) := by
  obtain ⟨heven, hout⟩ := h
  match hdrop : e.io.x.drop e.io.ip with
  | [] =>
    right
    simp [rleDecodeStep, takePair_nil hdrop, RleDec.outcome, RleDec.ahead, hdrop, bytePairs, rleDecCheck,
      Io.resultAfter_nil, Except.map, Turn.finish]
  | [_] =>
    rw [hdrop] at heven
    cases heven
  | v :: r :: rest =>
    have hnext : (e.afterPair (v, r)).io.x.drop (e.afterPair (v, r)).io.ip = rest := by
      show e.io.x.drop (e.io.ip + 2) = rest
      rw [← List.drop_drop, hdrop]
      rfl
    have hahead : e.ahead = (v, r) :: (e.afterPair (v, r)).ahead := by
      rw [RleDec.ahead, RleDec.ahead, hdrop, hnext, bytePairs]
    have hlen := e.afterPair_out_length (v, r)
    simp only [rleDecodeStep, takePair_cons hdrop]
    by_cases hzero : r = 0#8
    · right
      rw [expandPair, if_pos hzero, RleDec.outcome, hahead, rleDecCheck_zero hzero]
      rfl
    · rw [expandPair_eq_emitToken lim hzero]
      rcases emitToken_cases (List.replicate r.toNat v) (io := { e.io with ip := e.io.ip + 2 }) hout with
        ⟨hfit, hemit⟩ | ⟨hover, hemit⟩
      · refine .inl ⟨e.afterPair (v, r), by rw [hemit]; rfl, ⟨?_, hfit⟩, ?_⟩
        · rw [hdrop, List.length_cons, List.length_cons] at heven
          rw [hnext]
          omega
        · rw [RleDec.outcome, RleDec.outcome, hahead, rleDecCheck_fits hzero (by rwa [← hlen]),
            Io.resultAfter_cons, hlen]
          rfl
      · right
        rw [hemit, RleDec.outcome, hahead, rleDecCheck_over hzero (by rwa [← hlen])]
        rfl

/-- The whole run is `rle_dec`, with one token for each pair. -/
theorem rleDecodeRun_eq_rleDec (lim : Limits) (x : List Byte) :
    rleDecodeRun lim x =
      .finish ((rleDec lim.outCap x).map fun y => { out := y, tok := x.length / 2, nextCode := 0 }) := by
  have hends := engineOf_finishes (.rleDecode false) lim x
  rw [engineOf, rleDecodeRun, rleDecodeBegin] at hends
  rw [rleDecodeRun, rleDecodeBegin]
  rcases Nat.mod_two_eq_zero_or_one x.length with heven | hodd
  · rw [if_neg (by omega)] at hends ⊢
    rw [rleDec_even lim.outCap heven]
    refine (run_eq_finish (fun _ => rleDecodeStep_leadsTo) (e := { io := Io.begin x, pair := none })
      ⟨heven, lim.holdsOut_zero⟩ hends).trans ?_
    rw [← bytePairs_length]
    simp only [RleDec.outcome, RleDec.ahead, Io.begin, Io.resultAfter, List.drop_zero, List.length_nil, Nat.zero_add,
      List.nil_append]
    cases rleDecCheck lim.outCap 0 (bytePairs x) <;> rfl
  · rw [if_pos hodd, rleDec_odd lim.outCap hodd]
    rfl

/-! ## The command -/

section
variable {s : State} (hready : s.idleReady) (hfits : s.inputFits) (ie : Bool)
include hready hfits

theorem exec_rleDecode_completed {y : List Byte} (h : rleDec (some s.params.outCap) s.input = .ok y) :
    exec (.rleDecode ie) s =
      .next (s.completed { dir := true, alg := 0#2, ie := ie }
        { out := y, tok := s.inLen.toNat / 2, nextCode := 0 }) := by
  have hrun := rleDecodeRun_eq_rleDec s.params.limits s.input
  rw [Params.limits, h, s.input_length] at hrun
  exact exec_completed (i := .rleDecode ie) hready (startError_none.mpr ⟨nofun, hfits⟩) hrun

theorem exec_rleDecode_failed {err : CodecError} (h : rleDec (some s.params.outCap) s.input = .error err) :
    exec (.rleDecode ie) s = .next (s.failed { dir := true, alg := 0#2, ie := ie } err s.inLen.toNat) := by
  have hrun := rleDecodeRun_eq_rleDec s.params.limits s.input
  rw [Params.limits, h] at hrun
  exact exec_failed (i := .rleDecode ie) hready (startError_none.mpr ⟨nofun, hfits⟩) hrun

end

/-- Settles O44: the engine's result when `rle_dec` gives an output. -/
theorem rleDecodeCompletes : Obligations.RleDecodeCompletes := by
  intro ie s y hready hfits h
  obtain rfl := eq_expandPairs_of_rleDec h
  have hlen := expandPairs_length (bytePairs s.input)
  refine ⟨exec_rleDecode_completed hready hfits ie h, rfl, hlen, ?_⟩
  have hsum := runSum_le (bytePairs s.input)
  rw [bytePairs_length, s.input_length] at hsum
  omega

/-- Settles O45: the engine's error is the one `rle_dec` finds. -/
theorem rleDecodeFailsAsRleDec : Obligations.RleDecodeFailsAsRleDec := fun ie _ _ hready hfits h =>
  exec_rleDecode_failed hready hfits ie h

/-! ## The round trip -/

theorem bytePairs_tokenBytes (ts : List (Byte × Nat)) :
    bytePairs (tokenBytes ts) = ts.map fun t => (t.1, BitVec.ofNat 8 t.2) := by
  induction ts with
  | nil => rfl
  | cons t ts ih => rw [tokenBytes_cons, bytePairs, ih, List.map_cons]

/-- The pairs of an encoding stand for the input. -/
theorem expandPairs_rleEnc (x : List Byte) : expandPairs (bytePairs (rleEnc x)) = x := by
  calc expandPairs (bytePairs (rleEnc x))
      = (rleTokens x).flatMap fun t => List.replicate (BitVec.ofNat 8 t.2).toNat t.1 := by
        rw [rleEnc, bytePairs_tokenBytes, expandPairs, List.flatMap_map]
    _ = runBytes (rleTokens x) := List.flatMap_congr fun t ht => by rw [toNat_tokenLength ht]
    _ = x := runBytes_rleTokens x

theorem bytePairs_rleEnc_ne_zero (x : List Byte) : ∀ p ∈ bytePairs (rleEnc x), p.2 ≠ 0#8 := by
  rw [rleEnc, bytePairs_tokenBytes]
  refine List.forall_mem_map.mpr fun t ht hzero => ?_
  have hlen := toNat_tokenLength ht
  have hpos := (mem_rleTokens ht).1
  rw [show BitVec.ofNat 8 t.2 = 0#8 from hzero] at hlen
  exact absurd hlen.symm (Nat.pos_iff_ne_zero.mp hpos)

/-- Decoding an encoding gives the input back under every capacity that it fits. -/
theorem rleDec_rleEnc {outCap : Option Nat} {x : List Byte} (hfit : ∀ cap, outCap = some cap → x.length ≤ cap) :
    rleDec outCap (rleEnc x) = .ok x := by
  have heven : (rleEnc x).length % 2 = 0 := by rw [rleEnc_length, Nat.mul_mod_right]
  have hgood := rleDec_of_good heven (bytePairs_rleEnc_ne_zero x) (outCap := outCap)
  rw [expandPairs_rleEnc] at hgood
  exact hgood hfit

/-- An RLE_ENCODE that finishes OK leaves `rle_enc` of its input in OUT_MEM. -/
theorem outMem_of_rleEncode_ok {ie : Bool} {s t : State} (hready : s.idleReady) (hfits : s.inputFits)
    (hexec : exec (.rleEncode ie) s = .next t) (hok : t.status.err = false) :
    t.outMem.map Prod.snd = rleEnc s.input := by
  rcases Nat.lt_or_ge s.params.outCap (2 * (rleTokens s.input).length) with hover | hout
  · rw [exec_rleEncode_failed hready hfits ie hover] at hexec
    cases hexec
    cases hok
  · rw [exec_rleEncode_completed hready hfits ie hout] at hexec
    cases hexec
    exact Memory.map_snd_ofBytes 0 _

/-- Settles O47: `rle_dec` of `rle_enc`, and the two commands that compute them. -/
theorem rleRoundTrip : Obligations.RleRoundTrip := by
  refine ⟨fun x => rleDec_rleEnc nofun, fun ie ie' s t u hready hfits hexec hok hready' hfits' hinput hout => ?_⟩
  rw [outMem_of_rleEncode_ok hready hfits hexec hok] at hinput
  have hdec : rleDec (some u.params.outCap) u.input = .ok s.input := by
    rw [hinput]
    refine rleDec_rleEnc ?_
    rintro _ ⟨⟩
    exact hout
  have htokens : u.inLen.toNat / 2 = (rleTokens s.input).length := by
    rw [← u.input_length, hinput, rleEnc_length, Nat.mul_div_cancel_left _ Nat.two_pos]
  rw [← htokens]
  exact exec_rleDecode_completed hready' hfits' ie' hdec

end Sys2Proof.Machine
end

section
/-! How LZ codes are resolved (42_lz.md R185, R187, R188), and where the decoder's dictionary stands before each code:
what the entries so far say of the code that comes next. -/

namespace Sys2Proof.Machine

/-! ## Dictionary codes -/

section
variable {d : Dict} {c : Nat}

theorem Dict.phrase?_of_lt (d : Dict) (h : c < 256) : d.phrase? c = some (Phrase.single (BitVec.ofNat 8 c)) := if_pos h

theorem Dict.phrase?_added (d : Dict) (j : Nat) : d.phrase? (256 + j) = d.added[j]? := by
  rw [Dict.phrase?, if_neg (by omega), Nat.add_sub_cancel_left]

theorem Dict.phrase?_eq_none_iff : d.phrase? c = none ↔ d.nextCode ≤ c := by
  rw [Dict.nextCode]
  rcases Nat.lt_or_ge c 256 with hlt | hge
  · rw [d.phrase?_of_lt hlt]
    exact iff_of_false nofun (by omega)
  · obtain ⟨j, rfl⟩ := Nat.exists_eq_add_of_le hge
    rw [d.phrase?_added, List.getElem?_eq_none_iff]
    omega

theorem Dict.phrase?_isSome_iff : (d.phrase? c).isSome = true ↔ c < d.nextCode := by
  rw [← Nat.not_le, ← Dict.phrase?_eq_none_iff, Option.isSome_iff_ne_none]

/-! ## Resolution -/

theorem resolveCode_known (h : c < d.nextCode) (prev : Option Phrase) : resolveCode d prev c = d.phrase? c := by
  obtain ⟨entry, hentry⟩ := Option.isSome_iff_exists.mp (Dict.phrase?_isSome_iff.mpr h)
  cases prev with
  | none => rfl
  | some p => rw [resolveCode, hentry]

theorem resolveCode_nextCode (d : Dict) (p : Phrase) : resolveCode d (some p) d.nextCode = some (p.snoc p.first) := by
  rw [resolveCode, Dict.phrase?_eq_none_iff.mpr le_rfl]
  exact if_pos rfl

theorem resolveCode_above (h : d.nextCode < c) (prev : Option Phrase) : resolveCode d prev c = none := by
  have hunknown : d.phrase? c = none := Dict.phrase?_eq_none_iff.mpr h.le
  cases prev with
  | none => exact hunknown
  | some p =>
    rw [resolveCode, hunknown]
    exact if_neg h.ne'

theorem le_nextCode_of_resolveCode {prev : Option Phrase} {entry : Phrase} (h : resolveCode d prev c = some entry) :
    c ≤ d.nextCode := by
  by_contra hlt
  rw [resolveCode_above (Nat.not_le.mp hlt)] at h
  cases h

end

/-- Settles O58: below `next_code`, at it, and above it; and the seed has one phrase for each byte. -/
theorem codeResolution : Obligations.CodeResolution := by
  intro d p c
  refine ⟨fun h => ⟨resolveCode_known h _, Dict.phrase?_isSome_iff.mpr h⟩, ?_, fun h => resolveCode_above h _,
    Dict.seed.phrase?_of_lt, fun h => Dict.phrase?_eq_none_iff.mpr h⟩
  rintro rfl
  exact resolveCode_nextCode d p

/-! ## The entries of a code sequence -/

/-- The dictionary that entries leave: each entry extended by the first byte of the entry after it
(42_lz.md R187, R189). -/
def entriesDict (es : List Phrase) : Dict := { added := List.zipWith (fun q r => q.snoc r.first) es es.tail }

theorem Dict.after_added (d : Dict) (prev : Option Phrase) (entry : Phrase) :
    (d.after prev entry).added = d.added ++ (prev.map (·.snoc entry.first)).toList := by
  cases prev with
  | none => exact (List.append_nil _).symm
  | some p => rfl

theorem entriesDict_concat (es : List Phrase) (p : Phrase) :
    entriesDict (es ++ [p]) = (entriesDict es).after es.getLast? p := by
  refine congrArg Dict.mk (Eq.trans ?_ (Dict.after_added _ _ p).symm)
  induction es with
  | nil => rfl
  | cons q es ih =>
    cases es with
    | nil => rfl
    | cons r es =>
      rw [List.getLast?_cons_cons]
      exact congrArg (q.snoc r.first :: ·) ih

theorem entriesDict_nextCode (es : List Phrase) : (entriesDict es).nextCode = 256 + (es.length - 1) := by
  simp [entriesDict, Dict.nextCode]

theorem lzEntriesFrom_cons_eq_some {d : Dict} {prev : Option Phrase} {c : Nat} {cs : List Nat} {es : List Phrase} :
    lzEntriesFrom d prev (c :: cs) = some es ↔
      ∃ entry later, resolveCode d prev c = some entry ∧
        lzEntriesFrom (d.after prev entry) (some entry) cs = some later ∧ entry :: later = es := by
  simp [lzEntriesFrom_cons, Option.bind_eq_some_iff]

theorem lzEntriesFrom_length {d : Dict} {prev : Option Phrase} {cs : List Nat} {es : List Phrase}
    (h : lzEntriesFrom d prev cs = some es) : es.length = cs.length := by
  induction cs generalizing d prev es with
  | nil =>
    cases h
    rfl
  | cons c cs ih =>
    obtain ⟨entry, later, -, hlater, rfl⟩ := lzEntriesFrom_cons_eq_some.mp h
    rw [List.length_cons, List.length_cons, ih hlater]

/-- After the entries `front`, each code is resolved from the dictionary and `prev` that the entries before it leave. -/
theorem resolveCode_of_lzEntriesFrom {front es : List Phrase} {cs : List Nat}
    (h : lzEntriesFrom (entriesDict front) front.getLast? cs = some es) {i c : Nat} {p : Phrase}
    (hc : cs[i]? = some c) (hp : es[i]? = some p) :
    resolveCode (entriesDict (front ++ es.take i)) (front ++ es.take i).getLast? c = some p := by
  induction cs generalizing front es i with
  | nil => cases hc
  | cons c' cs ih =>
    obtain ⟨entry, later, hentry, hlater, rfl⟩ := lzEntriesFrom_cons_eq_some.mp h
    cases i with
    | zero =>
      cases hc
      cases hp
      rwa [List.take_zero, List.append_nil]
    | succ i =>
      rw [← entriesDict_concat, ← List.getLast?_concat (l := front)] at hlater
      have hresolve := ih hlater hc hp
      rwa [List.append_assoc] at hresolve

section
variable {cs : List Nat} {es : List Phrase} (h : lzEntries cs = some es)
include h

theorem lzEntries_length : es.length = cs.length := lzEntriesFrom_length h

theorem resolveCode_of_lzEntries {i c : Nat} {p : Phrase} (hc : cs[i]? = some c) (hp : es[i]? = some p) :
    resolveCode (entriesDict (es.take i)) (es.take i).getLast? c = some p :=
  resolveCode_of_lzEntriesFrom (front := []) h hc hp

theorem exists_entry_of_lzEntries {i c : Nat} (hc : cs[i]? = some c) :
    ∃ p, es[i]? = some p ∧ resolveCode (entriesDict (es.take i)) (es.take i).getLast? c = some p := by
  have hlt : i < es.length := (lzEntries_length h).symm ▸ (List.getElem?_eq_some_iff.mp hc).1
  exact ⟨es[i], List.getElem?_eq_getElem hlt, resolveCode_of_lzEntries h hc (List.getElem?_eq_getElem hlt)⟩

/-- The first code is a byte, and stands for it (42_lz.md R176, property 2; R187). -/
theorem entry_of_head_code {c : Nat} (hc : cs[0]? = some c) :
    c < 256 ∧ es[0]? = some (Phrase.single (BitVec.ofNat 8 c)) := by
  obtain ⟨p, hp, hresolve⟩ := exists_entry_of_lzEntries h hc
  have hknown : Dict.seed.phrase? c = some p := hresolve
  have hlt : c < 256 := Dict.phrase?_isSome_iff.mp (Option.isSome_of_eq_some hknown)
  exact ⟨hlt, by rw [hp, ← hknown, Dict.phrase?_of_lt _ hlt]⟩

/-- Before code `j` the dictionary has at most `j - 1` phrases, and `next_code` is the last code with an entry
(42_lz.md R176, property 3). -/
theorem code_lt_of_lzEntries {j c : Nat} (hc : cs[j]? = some c) : c < 256 + j := by
  cases j with
  | zero => exact (entry_of_head_code h hc).1
  | succ j =>
    obtain ⟨p, -, hresolve⟩ := exists_entry_of_lzEntries h hc
    have hle := le_nextCode_of_resolveCode hresolve
    rw [entriesDict_nextCode, List.length_take] at hle
    omega

/-- Code `256 + j` stands for entry `j` extended by the first byte of entry `j + 1`, from the dictionary or, sent just
after code `j`, as the self-reference (42_lz.md R176, property 4). -/
theorem entry_of_added_code {i j : Nat} {p q r : Phrase} (hlt : j < i) (hc : cs[i]? = some (256 + j))
    (hp : es[i]? = some p) (hq : es[j]? = some q) (hr : es[j + 1]? = some r) : p = q.snoc r.first := by
  have hresolve := resolveCode_of_lzEntries h hc hp
  have hlen : i < es.length := (List.getElem?_eq_some_iff.mp hp).1
  have hnext : (entriesDict (es.take i)).nextCode = 256 + (i - 1) := by
    rw [entriesDict_nextCode, List.length_take, Nat.min_eq_left hlen.le]
  rcases Nat.lt_or_ge (j + 1) i with hknown | hself
  · rw [resolveCode_known (by omega), Dict.phrase?_added] at hresolve
    have hadded : (entriesDict (es.take i)).added[j]? = some (q.snoc r.first) := by
      simp [entriesDict, List.getElem?_zipWith, hlt, hknown, hq, hr]
    exact Option.some.inj (hresolve.symm.trans hadded)
  · obtain rfl : i = j + 1 := by omega
    obtain rfl : p = r := Option.some.inj (hp.symm.trans hr)
    have hprev : (es.take (j + 1)).getLast? = some q := by
      simp [List.getLast?_take, hq]
    rw [hprev, show 256 + j = (entriesDict (es.take (j + 1))).nextCode by omega, resolveCode_nextCode] at hresolve
    obtain rfl := Option.some.inj hresolve
    rfl

end

/-- A phrase is never empty (00_scope.md R9). -/
theorem length_le_entriesBytes (es : List Phrase) : es.length ≤ (entriesBytes es).length := by
  induction es with
  | nil => exact le_rfl
  | cons e es ih =>
    simp only [entriesBytes, List.flatMap_cons, List.length_append, List.length_cons, Phrase.bytes] at ih ⊢
    omega

end Sys2Proof.Machine
end

section
/-! The code sequence of LZ_ENCODE (42_lz.md R172, R176): the decoder's dictionary is the encoder's but for the phrase
whose last byte is the first byte of `cur`, and from it every code that the encoder sends is resolved to its phrase. -/

namespace Sys2Proof.Machine

section
variable {d d' : Dict} {p : Phrase} {prev : Option Phrase}

/-- The code of a phrase in the domain of `Dict_E` stands for it (42_lz.md R171). -/
theorem Dict.phrase?_codeOf (h : d.has p = true) : d.phrase? (d.codeOf p) = some p := by
  obtain ⟨b, rest⟩ := p
  cases rest with
  | nil =>
    have hbyte := d.phrase?_of_lt b.isLt
    rwa [BitVec.ofNat_toNat, BitVec.setWidth_eq] at hbyte
  | cons b' rest =>
    have hmem : { first := b, rest := b' :: rest } ∈ d.added := by simpa [Dict.has] using h
    rw [Dict.codeOf, if_neg (by simp), d.phrase?_added]
    exact List.getElem?_idxOf hmem

theorem Dict.phrase?_push_of_lt {c : Nat} (h : c < d.nextCode) (q : Phrase) : (d.push q).phrase? c = d.phrase? c := by
  rw [Dict.nextCode] at h
  rcases Nat.lt_or_ge c 256 with hlt | hge
  · rw [Dict.phrase?_of_lt _ hlt, Dict.phrase?_of_lt _ hlt]
  · obtain ⟨j, rfl⟩ := Nat.exists_eq_add_of_le hge
    rw [Dict.phrase?_added, Dict.phrase?_added, Dict.push, List.getElem?_append_left (by omega)]

theorem Dict.phrase?_push_nextCode (d : Dict) (q : Phrase) : (d.push q).phrase? d.nextCode = some q := by
  rw [Dict.nextCode, Dict.phrase?_added, Dict.push, List.getElem?_concat_length]

/-- The decoder resolves the code of `cur`, though its dictionary lacks the encoder's last phrase: where the code is
that phrase's, it is the self-reference (42_lz.md R188, R195). -/
theorem resolveCode_codeOf (hd : d'.after prev p = d) (hp : d.has p = true) :
    resolveCode d' prev (d.codeOf p) = some p := by
  have hphrase := Dict.phrase?_codeOf hp
  cases prev with
  | none =>
    obtain rfl : d' = d := hd
    exact hphrase
  | some q =>
    obtain rfl : d'.push (q.snoc p.first) = d := hd
    generalize (d'.push (q.snoc p.first)).codeOf p = c at hphrase ⊢
    have hlt := Dict.phrase?_isSome_iff.mp (Option.isSome_of_eq_some hphrase)
    rw [Dict.nextCode_push] at hlt
    rcases Nat.lt_or_eq_of_le (Nat.le_of_lt_succ hlt) with hknown | rfl
    · rw [resolveCode_known hknown, ← hphrase, Dict.phrase?_push_of_lt hknown]
    · rw [Dict.phrase?_push_nextCode] at hphrase
      have hself : q.snoc p.first = p := Option.some.inj hphrase
      have hfirst : q.first = p.first := congrArg (fun r => r.first) hself
      rw [resolveCode_nextCode, hfirst, hself]

end

theorem Phrase.bytes_snoc (p : Phrase) (b : Byte) : (p.snoc b).bytes = p.bytes ++ [b] := rfl

/-- The codes from `cur` on have entries, which concatenate to `cur` and the rest of the input. -/
theorem lzEntriesFrom_lzCodesFrom {d d' : Dict} {p : Phrase} {prev : Option Phrase} (bs : List Byte)
    (hd : d'.after prev p = d) (hp : d.has p = true) :
    ∃ es, lzEntriesFrom d' prev (lzCodesFrom d (some p) bs) = some es ∧ entriesBytes es = p.bytes ++ bs := by
  induction bs generalizing d d' p prev with
  | nil =>
    exact ⟨[p], lzEntriesFrom_cons_eq_some.mpr ⟨p, [], resolveCode_codeOf hd hp, rfl, rfl⟩, by simp [entriesBytes]⟩
  | cons b bs ih =>
    rw [lzCodesFrom]
    split_ifs with hhas
    · have hafter : d'.after prev (p.snoc b) = d := by rw [← hd]; cases prev <;> rfl
      obtain ⟨es, hentries, hbytes⟩ := ih hafter hhas
      exact ⟨es, hentries, by rw [hbytes, Phrase.bytes_snoc, List.append_assoc, List.singleton_append]⟩
    · obtain ⟨es, hentries, hbytes⟩ := ih (d' := d) (prev := some p) rfl (Dict.has_single _ b)
      refine ⟨p :: es, lzEntriesFrom_cons_eq_some.mpr ⟨p, es, resolveCode_codeOf hd hp, ?_, rfl⟩, ?_⟩
      · rwa [hd]
      · exact congrArg (p.bytes ++ ·) hbytes

/-- The codes of an input have entries, which concatenate to it (42_lz.md R176, properties 1 and 2; R195). -/
theorem lzEntries_lzCodes (x : List Byte) : ∃ es, lzEntries (lzCodes x) = some es ∧ entriesBytes es = x := by
  cases x with
  | nil => exact ⟨[], rfl, rfl⟩
  | cons b bs => exact lzEntriesFrom_lzCodesFrom bs rfl (Dict.has_single _ b)

theorem lzCodes_length_le (x : List Byte) : (lzCodes x).length ≤ x.length := by
  obtain ⟨es, hentries, hbytes⟩ := lzEntries_lzCodes x
  have hle := length_le_entriesBytes es
  rwa [hbytes, lzEntries_length hentries] at hle

theorem lzCodes_getElem?_lt {x : List Byte} {j c : Nat} (h : (lzCodes x)[j]? = some c) : c < 256 + j := by
  obtain ⟨es, hentries, -⟩ := lzEntries_lzCodes x
  exact code_lt_of_lzEntries hentries h

/-- The first byte of the entries is the one the first code stands for. -/
theorem head?_entriesBytes {cs : List Nat} {es : List Phrase} (h : lzEntries cs = some es) :
    (entriesBytes es).head?.map BitVec.toNat = cs.head? := by
  cases cs with
  | nil =>
    cases h
    rfl
  | cons c cs =>
    obtain ⟨hlt, hfirst⟩ := entry_of_head_code h rfl
    rw [← List.head?_eq_getElem?, List.head?_eq_some_iff] at hfirst
    obtain ⟨es, rfl⟩ := hfirst
    simp [entriesBytes, Phrase.single, Phrase.bytes, Nat.mod_eq_of_lt hlt]

/-- Settles O53: the decoder has entries for the codes, and what holds of any codes with entries holds of them. -/
theorem lzCodeSequence : Obligations.LzCodeSequence := by
  intro x
  obtain ⟨es, hentries, hbytes⟩ := lzEntries_lzCodes x
  exact ⟨es, hentries, hbytes, lzEntries_length hentries, by rw [← head?_entriesBytes hentries, hbytes],
    fun _ _ => lzCodes_getElem?_lt, fun _ _ _ _ _ => entry_of_added_code hentries, lzCodes_length_le x⟩

end Sys2Proof.Machine
end

section
/-! The LZ_ENCODE engine (42_lz.md R172 to R179): what it has written and the codes of the bytes still ahead make up
`render(cs)` at every step. -/

namespace Sys2Proof.Machine

/-! ## The text of the codes still ahead -/

/-- The codes after the first, each with the separator before it (30_encoding.md R98). -/
abbrev laterText (cs : List Nat) : List Byte := cs.flatMap fun c => comma :: dec c

theorem render_cons (c : Nat) (cs : List Nat) : render (c :: cs) = dec c ++ laterText cs := by
  induction cs generalizing c with
  | nil => exact (List.append_nil _).symm
  | cons c' cs ih => rw [render, ih, laterText, laterText, List.flatMap_cons, List.cons_append]

/-- What `EmitCode` writes for the codes `cs` after `tok` tokens (42_lz.md R173). -/
def textAfter (tok : Nat) (cs : List Nat) : List Byte := if tok = 0 then render cs else laterText cs

@[simp] theorem textAfter_nil (tok : Nat) : textAfter tok [] = [] := ite_self _

theorem textAfter_cons (io : Io) (c : Nat) (cs : List Nat) :
    textAfter io.tok (c :: cs) = codeBytes io c ++ textAfter (io.tok + 1) cs := by
  rw [textAfter, textAfter, codeBytes, if_neg (Nat.succ_ne_zero _)]
  split_ifs with hzero hpos
  · omega
  · rw [render_cons, List.nil_append]
  · rfl
  · omega

/-- The result of LZ_ENCODE once the codes `cs` have been written too: all of them but the last insert a phrase
(42_lz.md R176, property 5). -/
def LzEnc.resultAfter (e : LzEnc) (cs : List Nat) : Result :=
  { out := e.io.out ++ textAfter e.io.tok cs, tok := e.io.tok + cs.length,
    nextCode := e.dict.nextCode + (cs.length - 1) }

/-- A code that others follow is emitted, and a phrase inserted. -/
theorem LzEnc.resultAfter_insert {e : LzEnc} {c : Nat} {cs : List Nat} (p cur : Phrase) (hne : cs ≠ []) :
    e.resultAfter (c :: cs) =
      LzEnc.resultAfter { io := e.io.token (codeBytes e.io c), dict := e.dict.push p, cur := some cur } cs := by
  have hpos := List.length_pos_iff.mpr hne
  simp only [LzEnc.resultAfter, Io.token, textAfter_cons, List.append_assoc, List.length_cons, Dict.nextCode_push,
    Result.mk.injEq, true_and]
  omega

/-- The codes that lie ahead. -/
def LzEnc.ahead (e : LzEnc) : List Nat := lzCodesFrom e.dict e.cur (e.io.x.drop e.io.ip)

/-- The outcome that lies ahead under no capacities. -/
def LzEnc.outcome (e : LzEnc) : Except CodecError Result := .ok (e.resultAfter e.ahead)

theorem LzEnc.outcome_congr {e e' : LzEnc} (hout : e'.io.out = e.io.out) (htok : e'.io.tok = e.io.tok)
    (hdict : e'.dict = e.dict) (hahead : e'.ahead = e.ahead) : e'.outcome = e.outcome := by
  rw [LzEnc.outcome, LzEnc.outcome, LzEnc.resultAfter, LzEnc.resultAfter, hout, htok, hdict, hahead]

theorem lzCodesFrom_ne_nil (d : Dict) (p : Phrase) (bs : List Byte) : lzCodesFrom d (some p) bs ≠ [] := by
  induction bs generalizing d p with
  | nil => exact List.cons_ne_nil _ _
  | cons b bs ih =>
    rw [lzCodesFrom]
    split_ifs
    · exact ih d _
    · exact List.cons_ne_nil _ _

theorem lzCodes_length_pos {x : List Byte} (h : 1 ≤ x.length) : 1 ≤ (lzCodes x).length := by
  cases x with
  | nil => exact h
  | cons b bs => exact List.length_pos_iff.mpr (lzCodesFrom_ne_nil Dict.seed (Phrase.single b) bs)

/-! ## The engine -/

theorem lzEncodeStep_leadsTo (e : LzEnc) :
    LeadsTo (fun _ => True) LzEnc.outcome e (lzEncodeStep Limits.unbounded e) := by
  obtain ⟨io, d, cur⟩ := e
  simp only [lzEncodeStep, emitCode_eq_emitToken, emitToken_unbounded]
  cases hbyte : io.x[io.ip]? with
  | some b =>
    have hdrop := Io.drop_of_getElem? hbyte
    left
    cases cur with
    | none =>
      exact ⟨_, rfl, trivial,
        LzEnc.outcome_congr rfl rfl rfl (by rw [LzEnc.ahead, LzEnc.ahead, hdrop, lzCodesFrom])⟩
    | some p =>
      dsimp only
      by_cases hhas : d.has (p.snoc b) = true
      · rw [if_pos hhas]
        exact ⟨_, rfl, trivial,
          LzEnc.outcome_congr rfl rfl rfl (by rw [LzEnc.ahead, LzEnc.ahead, hdrop, lzCodesFrom, if_pos hhas])⟩
      · rw [if_neg hhas, if_neg (unbounded_dictCap_ne _)]
        refine ⟨_, rfl, trivial, ?_⟩
        rw [LzEnc.outcome, LzEnc.outcome, LzEnc.ahead, LzEnc.ahead, hdrop, lzCodesFrom, if_neg hhas,
          LzEnc.resultAfter_insert (p.snoc b) (Phrase.single b) (lzCodesFrom_ne_nil _ _ _)]
        rfl
  | none =>
    have hdrop : io.x.drop io.ip = [] := List.drop_eq_nil_of_le (List.getElem?_eq_none_iff.mp hbyte)
    right
    cases cur with
    | none => simp [LzEnc.outcome, LzEnc.ahead, LzEnc.resultAfter, hdrop, lzCodesFrom, Io.result, Turn.finish]
    | some p =>
      simp [LzEnc.outcome, LzEnc.ahead, LzEnc.resultAfter, hdrop, lzCodesFrom, textAfter_cons, Io.token, Io.result,
        Turn.finish]

theorem lzNextCode_eq (k : Nat) : lzNextCode k = 256 + (k - 1) := by
  rw [lzNextCode]
  split_ifs <;> omega

/-- The result of LZ_ENCODE that R177 states. -/
def lzEncodeResult (x : List Byte) : Result :=
  { out := render (lzCodes x), tok := (lzCodes x).length, nextCode := lzNextCode (lzCodes x).length }

theorem lzEncodeRun_unbounded (x : List Byte) : lzEncodeRun Limits.unbounded x = .ok (lzEncodeResult x) := by
  have hrun := run_eq_finish (fun e _ => lzEncodeStep_leadsTo e)
    (e := { io := Io.begin x, dict := Dict.seed, cur := none }) trivial
    (engineOf_finishes (.lzEncode false) Limits.unbounded x)
  refine hrun.trans ?_
  rw [lzEncodeResult, lzNextCode_eq]
  simp [LzEnc.outcome, LzEnc.resultAfter, LzEnc.ahead, Io.begin, textAfter, lzCodes, Dict.seed, Dict.nextCode,
    Turn.finish]

/-! ## The command -/

/-- Codes and separators: nine bytes for each code at most, where there are at most 2^24 (42_lz.md R178). -/
theorem render_length_le {cs : List Nat} {n : Nat} (hlen : cs.length ≤ n) (hcodes : ∀ c ∈ cs, c < 10 ^ 8) :
    (render cs).length ≤ 9 * n := by
  have hdec : (cs.map fun c => (dec c).length).sum ≤ cs.length * 8 := by
    simpa using List.sum_le_card_nsmul (cs.map fun c => (dec c).length) 8 (by
      simpa using fun c hc => dec_length_le (by decide) (hcodes c hc))
  by_cases hcs : cs = []
  · simp [hcs, render]
  · rw [render_length hcs]
    omega

theorem render_lzCodes_length_le {x : List Byte} (hlen : x.length ≤ 2 ^ 24) :
    (render (lzCodes x)).length ≤ 9 * x.length := by
  have hle := lzCodes_length_le x
  refine render_length_le hle fun c hc => ?_
  obtain ⟨j, hlt, rfl⟩ := List.mem_iff_getElem.mp hc
  have hcode := lzCodes_getElem?_lt (List.getElem?_eq_getElem hlt)
  omega

theorem le_lzNextCode (k : Nat) : 256 ≤ lzNextCode k := by
  rw [lzNextCode_eq]
  exact Nat.le_add_right _ _

theorem Params.holdsDict_limits {p : Params} {code : Nat} : p.limits.HoldsDict code ↔ code ≤ p.dictCap := by
  simp [Limits.HoldsDict, Params.limits]

/-- A supported command whose input fits and whose engine finishes OK under no capacities: it completes where the result
is within the capacities, and fails with CapacityExceeded where not (00_scope.md R7). -/
theorem exec_of_free_ok {i : Instr} {s : State} {r : Result} (hready : s.idleReady)
    (hstart : startError s.params { alg := (fieldsOf i).alg, dir := (fieldsOf i).dir } s.inLen = none)
    (hcuts : CapacityOnly s.params.limits (engineOf i Limits.unbounded s.input) (engineOf i s.params.limits s.input))
    (hfree : engineOf i Limits.unbounded s.input = .ok r) :
    (s.params.limits.Holds r.usage → exec i s = .next (s.completed (fieldsOf i) r)) ∧
      (¬ s.params.limits.Holds r.usage →
        exec i s = .next (s.failed (fieldsOf i) .capacityExceeded s.inLen.toNat)) := by
  have hrun := hcuts.1 r hfree
  refine ⟨fun hold => exec_completed hready hstart ?_, fun hover => exec_failed hready hstart ?_⟩
  · rw [hrun, if_pos hold]
  · rw [hrun, if_neg hover]

theorem lzEncodeResult_holds {p : Params} {x : List Byte} :
    p.limits.Holds (lzEncodeResult x).usage ↔
      (render (lzCodes x)).length ≤ p.outCap ∧ lzNextCode (lzCodes x).length ≤ p.dictCap :=
  Params.holds_limits

theorem exec_lzEncode {s : State} (hready : s.idleReady) (hfits : s.inputFits) (hseed : 256 ≤ s.params.dictCap)
    (ie : Bool) :
    (s.params.limits.Holds (lzEncodeResult s.input).usage →
      exec (.lzEncode ie) s =
        .next (s.completed { dir := false, alg := 1#2, ie := ie } (lzEncodeResult s.input))) ∧
      (¬ s.params.limits.Holds (lzEncodeResult s.input).usage →
        exec (.lzEncode ie) s =
          .next (s.failed { dir := false, alg := 1#2, ie := ie } .capacityExceeded s.inLen.toNat)) :=
  exec_of_free_ok (i := .lzEncode ie) hready (startError_none.mpr ⟨nofun, hfits⟩)
    (lzEncodeRun_capacityOnly (Params.holdsDict_limits.mpr hseed) s.input) (lzEncodeRun_unbounded s.input)

/-- Settles O51: the result is within the capacities, and an input that is not empty has a code. -/
theorem lzEncodeCompletes : Obligations.LzEncodeCompletes := by
  intro ie s hready hfits hout hdict
  have hseed : 256 ≤ s.params.dictCap := (le_lzNextCode _).trans hdict
  refine ⟨(exec_lzEncode hready hfits hseed ie).1 (lzEncodeResult_holds.mpr ⟨hout, hdict⟩), fun hzero => ?_,
    fun hpos => ?_⟩
  · have hnil : s.input = [] := List.length_eq_zero_iff.mp (s.input_length.trans hzero)
    rw [hnil]
    rfl
  · have hcodes := lzCodes_length_pos (s.input_length.symm ▸ hpos)
    rw [lzNextCode_eq]
    omega

/-- Settles O52: the result is within the capacities or not, and each code takes at most nine bytes. -/
theorem lzEncodeFailsOnlyOnCapacity : Obligations.LzEncodeFailsOnlyOnCapacity := by
  intro ie s hready hfits hseed k tooBig
  obtain ⟨hcompletes, hfails⟩ := exec_lzEncode hready hfits hseed ie
  have htooBig : tooBig ↔ ¬ s.params.limits.Holds (lzEncodeResult s.input).usage := by
    rw [lzEncodeResult_holds, lzNextCode_eq]
    simp only [tooBig, k]
    omega
  refine ⟨fun h => hfails (htooBig.mp h), fun h => ?_, fun hlen hcap => ?_⟩
  · exact ⟨_, hcompletes (not_not.mp (mt htooBig.mpr h)), rfl, rfl⟩
  · have htext := render_lzCodes_length_le (s.input_length.trans_le hlen)
    rw [s.input_length] at htext
    exact htext.trans ((Nat.mul_le_mul_left 9 hfits).trans hcap)

end Sys2Proof.Machine
end

section
/-! LZ_DECODE of a text of codes with entries (42_lz.md R186 to R193), and of a text with more fields after it
(R183, R192). -/

namespace Sys2Proof.Machine

/-! ## The whole run -/

theorem lzEntriesFrom_front {d : Dict} {prev : Option Phrase} {front more : List Nat} {es : List Phrase}
    (h : lzEntriesFrom d prev (front ++ more) = some es) : ∃ es', lzEntriesFrom d prev front = some es' := by
  induction front generalizing d prev es with
  | nil => exact ⟨[], rfl⟩
  | cons c front ih =>
    obtain ⟨entry, later, hentry, hlater, -⟩ := lzEntriesFrom_cons_eq_some.mp h
    obtain ⟨es', hfront⟩ := ih hlater
    exact ⟨entry :: es', lzEntriesFrom_cons_eq_some.mpr ⟨entry, es', hentry, hfront, rfl⟩⟩

/-- The result of LZ_DECODE that R193 states. -/
def lzDecodeResult (cs : List Nat) (es : List Phrase) : Result :=
  { out := entriesBytes es, tok := cs.length, nextCode := lzNextCode cs.length }

theorem lzDecodeRun_unbounded {cs : List Nat} {es : List Phrase} (h : lzEntries cs = some es) :
    lzDecodeRun Limits.unbounded (render cs) = .ok (lzDecodeResult cs es) := by
  cases cs using List.reverseRecOn with
  | nil =>
    cases h
    rfl
  | append_singleton cs c =>
    have hne : render (cs ++ [c]) ≠ [] := render_ne_nil (by simp)
    obtain ⟨front, hfront⟩ := lzEntriesFrom_front h
    have hbegin := LzDec.between_begin (render (cs ++ [c]))
    rw [render_concat] at hbegin hne ⊢
    obtain ⟨e, hreach, hbetween⟩ := hbegin.drive_codes hfront
    rw [List.nil_append] at hbetween
    obtain ⟨entry, hentry, rfl⟩ := Option.map_eq_some_iff.mp ((hbetween.lzEntries_concat c).symm.trans h)
    have hle : cs.length ≤ (separated cs ++ dec c).length :=
      (length_le_separated cs).trans (List.length_append ▸ Nat.le_add_right _ _)
    obtain ⟨fuel, hfuel⟩ := Nat.exists_eq_add_of_le hle
    rw [lzDecodeRun_of_ne_nil _ hne, hfuel, Nat.add_assoc, drive_add, hreach, Turn.drive,
      drive_ok fuel (hbetween.step_last hentry), lzDecodeResult, List.length_append]
    rfl

/-! ## Fields after a text -/

/-- The decoder's state with more text after its input. -/
def LzDec.extend (more : List Byte) (e : LzDec) : LzDec := { e with io := { e.io with x := e.io.x ++ more } }

theorem LzDec.io_n_le_extend (e : LzDec) (more : List Byte) : e.io.n ≤ (e.extend more).io.n := by
  simp [Io.n, LzDec.extend]

/-- `Emit` does not look at the input. -/
theorem emit_withInput (lim : Limits) (v : Byte) (io : Io) (y : List Byte) :
    emit lim v { io with x := y } = (emit lim v io).map fun io' => { io' with x := y } := by
  rcases emit_cases lim v io with ⟨hroom, hemit⟩ | ⟨hfull, hemit⟩
  · rw [hemit]
    exact if_neg hroom
  · rw [hemit]
    exact if_pos hfull

theorem emitAll_withInput (lim : Limits) (vs : List Byte) (io : Io) (y : List Byte) :
    emitAll lim vs { io with x := y } = (emitAll lim vs io).map fun io' => { io' with x := y } := by
  induction vs generalizing io with
  | nil => rfl
  | cons v vs ih =>
    simp only [emitAll, emit_withInput]
    cases emit lim v io with
    | error err => rfl
    | ok io' => exact ih io'

/-- A separator after the text ends its last field where the end of the text did. -/
theorem fieldAt_append_comma {x : List Byte} {fs : Nat} (h : fs ≤ x.length) (rest : List Byte) :
    fieldAt (x ++ comma :: rest) fs = fieldAt x fs := by
  have hstop : (comma :: rest).takeWhile (· != comma) = [] := rfl
  rw [fieldAt, fieldAt, List.drop_append_of_le_length h, List.takeWhile_append, hstop, List.append_nil]
  split_ifs with hall
  · exact ((List.takeWhile_prefix _).eq_of_length hall).symm
  · rfl

/-- More fields after the text change nothing in a step that does not finish OK. -/
theorem lzDecodeStep_extend_cases (lim : Limits) {e : LzDec} (h : e.fs ≤ e.io.x.length) (rest : List Byte) :
    (∃ e', lzDecodeStep lim e = .more e' ∧ e'.fs ≤ e'.io.x.length ∧
      lzDecodeStep lim (e.extend (comma :: rest)) = .more (e'.extend (comma :: rest))) ∨
    (∃ err, lzDecodeStep lim e = .fail err ∧ lzDecodeStep lim (e.extend (comma :: rest)) = .fail err) ∨
      ∃ r, lzDecodeStep lim e = .ok r := by
  have hfield := fieldAt_append_comma h rest
  have hemits := fun vs fe => emitAll_withInput lim vs { e.io with ip := fe } (e.io.x ++ comma :: rest)
  simp only [lzDecodeStep, LzDec.extend, hfield] at hemits ⊢
  cases parseField (fieldAt e.io.x e.fs) with
  | error err => exact .inr (.inl ⟨err, rfl, rfl⟩)
  | ok c =>
    dsimp only
    cases resolveCode e.dict e.prev c with
    | none => exact .inr (.inl ⟨_, rfl, rfl⟩)
    | some entry =>
      dsimp only
      rw [hemits]
      cases hemit : emitAll lim entry.bytes { e.io with ip := e.fs + (fieldAt e.io.x e.fs).length } with
      | error err => exact .inr (.inl ⟨err, rfl, rfl⟩)
      | ok io =>
        obtain rfl := emitAll_ok hemit
        dsimp only [Except.map]
        cases appendEntry lim e.dict e.prev entry with
        | error err => exact .inr (.inl ⟨err, rfl, rfl⟩)
        | ok d =>
          dsimp only
          by_cases hlast : e.fs + (fieldAt e.io.x e.fs).length < e.io.n
          · have hlonger := hlast.trans_le (e.io_n_le_extend (comma :: rest))
            rw [if_pos hlast]
            exact .inl ⟨_, rfl, hlast, if_pos hlonger⟩
          · rw [if_neg hlast]
            exact .inr (.inr ⟨_, rfl⟩)

theorem drive_fail_extend (lim : Limits) (rest : List Byte) {fuel : Nat} {e : LzDec} {err : CodecError}
    (h : e.fs ≤ e.io.x.length) (hfail : drive (lzDecodeStep lim) fuel e = .fail err) :
    drive (lzDecodeStep lim) fuel (e.extend (comma :: rest)) = .fail err := by
  induction fuel generalizing e with
  | zero => cases hfail
  | succ fuel ih =>
    rcases lzDecodeStep_extend_cases lim h rest with
      ⟨e', hmore, hle, hmore'⟩ | ⟨err', hstep, hstep'⟩ | ⟨r, hok⟩
    · rw [drive_more fuel hmore] at hfail
      rw [drive_more fuel hmore']
      exact ih hle hfail
    · rw [drive_fail fuel hstep] at hfail
      rw [drive_fail fuel hstep', hfail]
    · rw [drive_ok fuel hok] at hfail
      cases hfail

/-- Settles O57: the step that fails does so with more fields after the text, too. -/
theorem lzDecodeStreamsOverFields : Obligations.LzDecodeStreamsOverFields := by
  intro lim t rest err hfail
  have hne : t ≠ [] := by
    rintro rfl
    cases hfail
  rw [lzDecodeRun_of_ne_nil lim hne, Turn.map_eq_fail] at hfail
  have hlonger := drive_fail_extend lim rest (Nat.zero_le _) hfail
  rw [lzDecodeRun_of_ne_nil lim (List.append_ne_nil_of_left_ne_nil hne _), Turn.map_eq_fail, List.length_append,
    Nat.add_right_comm, drive_add]
  exact congrArg (Turn.drive (lzDecodeStep lim) (comma :: rest).length) hlonger

/-! ## The command -/

theorem exec_lzDecode_completed {s : State} (hready : s.idleReady) (hfits : s.inputFits) (ie : Bool) {cs : List Nat}
    {es : List Phrase} (hinput : s.input = render cs) (hentries : lzEntries cs = some es)
    (hout : (entriesBytes es).length ≤ s.params.outCap) (hdict : lzNextCode cs.length ≤ s.params.dictCap) :
    exec (.lzDecode ie) s = .next (s.completed { dir := true, alg := 1#2, ie := ie } (lzDecodeResult cs es)) := by
  have hseed : 256 ≤ s.params.dictCap := (le_lzNextCode _).trans hdict
  have hcuts := lzDecodeRun_capacityOnly (Params.holdsDict_limits.mpr hseed) s.input
  have hfree := lzDecodeRun_unbounded hentries
  rw [← hinput] at hfree
  exact (exec_of_free_ok (i := .lzDecode ie) hready (startError_none.mpr ⟨nofun, hfits⟩) hcuts hfree).1
    (Params.holds_limits.mpr ⟨hout, hdict⟩)

/-- Settles O54: the run under no capacities is within those of the block. -/
theorem lzDecodeCompletes : Obligations.LzDecodeCompletes := fun ie _ _ _ hready hfits hinput hentries hout hdict =>
  exec_lzDecode_completed hready hfits ie hinput hentries hout hdict

theorem lzDecodeRun_exceeds {p : Params} (hseed : 256 ≤ p.dictCap) {cs : List Nat} {es : List Phrase}
    (hentries : lzEntries cs = some es)
    (hover : p.outCap < (entriesBytes es).length ∨ p.dictCap < lzNextCode cs.length) :
    lzDecodeRun p.limits (render cs) = .fail .capacityExceeded := by
  have hcuts := (lzDecodeRun_capacityOnly (Params.holdsDict_limits.mpr hseed) (render cs)).1 _
    (lzDecodeRun_unbounded hentries)
  rw [hcuts, if_neg]
  rw [Params.holds_limits, not_and_or, Nat.not_le, Nat.not_le]
  exact hover

/-- Settles O55: the run on the good fields exceeds a capacity, and it streams over what follows them. -/
theorem lzDecodeExceedsCapacity : Obligations.LzDecodeExceedsCapacity := by
  intro ie s cs es hready hfits hseed hinput hentries hover
  have hfail := lzDecodeRun_exceeds hseed hentries hover
  refine exec_lzDecode_failed ie hready hfits ?_
  rcases hinput with htext | ⟨rest, htext⟩
  · rw [htext, hfail]
  · rw [htext, lzDecodeStreamsOverFields _ _ rest _ hfail]

end Sys2Proof.Machine
end

section
/-! The LZ round trips (42_lz.md R195, R196). -/

namespace Sys2Proof.Machine

/-- Settles O59: the codes of x have entries, which concatenate to x. -/
theorem lzRoundTrip : Obligations.LzRoundTrip := by
  intro x
  obtain ⟨es, hentries, hbytes⟩ := lzEntries_lzCodes x
  refine ⟨lzEncodeResult x, lzEncodeRun_unbounded x, rfl, (lzDecodeRun_unbounded hentries).trans ?_⟩
  rw [lzDecodeResult, hbytes]
  rfl

/-- An LZ_ENCODE that finishes OK has its result within the capacities. -/
theorem lzEncodeResult_of_ok {ie : Bool} {s t : State} (hready : s.idleReady) (hfits : s.inputFits)
    (hseed : 256 ≤ s.params.dictCap) (hexec : exec (.lzEncode ie) s = .next t) (hok : t.status.err = false) :
    s.params.limits.Holds (lzEncodeResult s.input).usage ∧
      t = s.completed { dir := false, alg := 1#2, ie := ie } (lzEncodeResult s.input) := by
  obtain ⟨hcompletes, hfails⟩ := exec_lzEncode hready hfits hseed ie
  by_cases hold : s.params.limits.Holds (lzEncodeResult s.input).usage
  · rw [hcompletes hold] at hexec
    cases hexec
    exact ⟨hold, rfl⟩
  · rw [hfails hold] at hexec
    cases hexec
    cases hok

/-- Settles O60: the decoder needs the encoder's dictionary, and room for its input. -/
theorem lzCapacitySymmetry : Obligations.LzCapacitySymmetry := by
  intro ie ie' s t u hready hfits hseed hexec hok hready' hfits' hcap hinput hout
  obtain ⟨hold, rfl⟩ := lzEncodeResult_of_ok hready hfits hseed hexec hok
  obtain ⟨-, hdict⟩ := lzEncodeResult_holds.mp hold
  have htext : u.input = render (lzCodes s.input) := hinput.trans (Memory.map_snd_ofBytes 0 _)
  obtain ⟨es, hentries, hbytes⟩ := lzEntries_lzCodes s.input
  have hdecode := exec_lzDecode_completed hready' hfits' ie' htext hentries (by rwa [hbytes]) (hcap ▸ hdict)
  rw [lzDecodeResult, hbytes] at hdecode
  exact ⟨_, hdecode, rfl, rfl, rfl, rfl, rfl⟩

end Sys2Proof.Machine
end

section
/-! Which errors each command can finish with (60_exceptions.md R221): those of the start checks, and those its engine
can raise. -/

namespace Sys2Proof.Machine

/-! ## The errors of each engine -/

theorem rleEncodeRun_error {lim : Limits} {x : List Byte} {e : CodecError} (h : rleEncodeRun lim x = .fail e) :
    e = .capacityExceeded := by
  rw [(rleEncodeRun_capacityOnly x).1 _ (rleEncodeRun_unbounded x)] at h
  split_ifs at h
  exact (Turn.fail.inj h).symm

theorem rleDecCheck_error {outCap : Option Nat} {S : Nat} {ps : List (Byte × Byte)} {e : CodecError}
    (h : rleDecCheck outCap S ps = .error e) : e = .malformedStream ∨ e = .capacityExceeded := by
  induction ps generalizing S with
  | nil => cases h
  | cons p ps ih =>
    rw [rleDecCheck] at h
    split_ifs at h with hzero hover
    · exact .inl (Except.error.inj h).symm
    · exact .inr (Except.error.inj h).symm
    · exact ih h

theorem rleDec_error {outCap : Option Nat} {y : List Byte} {e : CodecError} (h : rleDec outCap y = .error e) :
    e = .malformedStream ∨ e = .capacityExceeded := by
  rw [rleDec] at h
  split at h
  · exact .inl (Except.error.inj h).symm
  · split at h
    · next hcheck =>
      cases h
      exact rleDecCheck_error hcheck
    · cases h

theorem rleDecodeRun_error {lim : Limits} {x : List Byte} {e : CodecError} (h : rleDecodeRun lim x = .fail e) :
    e = .malformedStream ∨ e = .capacityExceeded := by
  rw [rleDecodeRun_eq_rleDec] at h
  cases hdec : rleDec lim.outCap x with
  | error err =>
    rw [hdec] at h
    cases h
    exact rleDec_error hdec
  | ok y =>
    rw [hdec] at h
    cases h

/-- `EmitCode` fails only with CapacityExceeded (42_lz.md R173, R179). -/
theorem emitCode_eq_or_exceeds (lim : Limits) (c : Nat) (io : Io) :
    emitCode lim c io = emitCode Limits.unbounded c io ∨ emitCode lim c io = .error .capacityExceeded := by
  rw [emitCode, emitCode, emitAll_unbounded (lim := Limits.unbounded) rfl]
  cases hemit : emitAll lim ((if 0 < io.tok then [comma] else []) ++ dec c) io with
  | error err =>
    rw [emitAll_error hemit]
    exact .inr rfl
  | ok io' =>
    rw [emitAll_ok hemit]
    exact .inl rfl

/-- Capacities leave a step as it is or end it with CapacityExceeded, whatever DICT_CAP is (00_scope.md R7). -/
theorem lzEncodeStep_eq_or_exceeds (lim : Limits) (e : LzEnc) :
    lzEncodeStep lim e = lzEncodeStep Limits.unbounded e ∨ lzEncodeStep lim e = .fail .capacityExceeded := by
  obtain ⟨io, d, cur⟩ := e
  simp only [lzEncodeStep]
  cases io.x[io.ip]? with
  | some b =>
    cases cur with
    | none => exact .inl rfl
    | some p =>
      dsimp only
      by_cases hhas : d.has (p.snoc b) = true
      · simp only [if_pos hhas, true_or]
      · simp only [if_neg hhas, if_neg (unbounded_dictCap_ne _)]
        rcases emitCode_eq_or_exceeds lim (d.codeOf p) { io with ip := io.ip + 1 } with hsame | hover
        · rw [hsame, emitCode_eq_emitToken, emitToken_unbounded]
          dsimp only
          split_ifs
          · exact .inr rfl
          · exact .inl rfl
        · rw [hover]
          exact .inr rfl
  | none =>
    cases cur with
    | none => exact .inl rfl
    | some p =>
      dsimp only
      rcases emitCode_eq_or_exceeds lim (d.codeOf p) io with hsame | hover
      · exact .inl (by rw [hsame])
      · exact .inr (by rw [hover])

theorem lzEncodeRun_error {lim : Limits} {x : List Byte} {e : CodecError} (h : lzEncodeRun lim x = .fail e) :
    e = .capacityExceeded := by
  have hfree := lzEncodeRun_unbounded x
  rw [lzEncodeRun, Turn.map_eq_ok] at hfree
  rw [lzEncodeRun, Turn.map_eq_fail] at h
  rcases drive_eq_or_exceeds (lzEncodeStep_eq_or_exceeds lim) (x.length + 1)
    { io := Io.begin x, dict := Dict.seed, cur := none } with hsame | hover
  · exact nomatch h.symm.trans (hsame.trans hfree)
  · exact Turn.fail.inj (h.symm.trans hover)

theorem lzDecodeRun_error {lim : Limits} {x : List Byte} {e : CodecError} (h : lzDecodeRun lim x = .fail e) :
    e = .invalidCode ∨ e = .capacityExceeded := by
  rcases lzDecodeRun_eq_or_exceeds lim x with hsame | hover
  · exact .inl ((lzDecodeRun_rejectsOnly x).2 e (hsame.symm.trans h))
  · exact .inr (Turn.fail.inj (h.symm.trans hover))

/-! ## The table -/

/-- The rows of the table of 60_exceptions.md R221. -/
def errorsOf : Instr → List CodecError
  | .rleEncode _ => [.invalidInputType, .capacityExceeded]
  | .rleDecode _ => [.malformedStream, .invalidInputType, .capacityExceeded]
  | .lzEncode _ => [.invalidInputType, .capacityExceeded]
  | .lzDecode _ => [.invalidCode, .invalidInputType, .capacityExceeded]
  | .unsupportedAlg _ _ _ => [.unsupportedAlgorithm]

theorem mem_errorsOf_of_engine {i : Instr} {lim : Limits} {x : List Byte} {e : CodecError}
    (h : engineOf i lim x = .fail e) : e ∈ errorsOf i := by
  cases i with
  | rleEncode ie => simp [errorsOf, rleEncodeRun_error h]
  | rleDecode ie => rcases rleDecodeRun_error h with rfl | rfl <;> simp [errorsOf]
  | lzEncode ie => simp [errorsOf, lzEncodeRun_error h]
  | lzDecode ie => rcases lzDecodeRun_error h with rfl | rfl <;> simp [errorsOf]
  | unsupportedAlg ie alg dir =>
    cases h
    exact List.mem_singleton_self _

/-- The start checks raise UnsupportedAlgorithm for a selector of no command, and InvalidInputType for the others
(40_control.md R122). -/
theorem startError_cases {p : Params} {sel : OpSel} {n : Word} {e : CodecError} (h : startError p sel n = some e) :
    (sel.command = none ∧ e = .unsupportedAlgorithm) ∨ (sel.command ≠ none ∧ e = .invalidInputType) := by
  rw [startError] at h
  split_ifs at h with hnone hlong
  · exact .inl ⟨hnone, (Option.some.inj h).symm⟩
  · exact .inr ⟨hnone, (Option.some.inj h).symm⟩

theorem command_unsupportedAlg {ie : Bool} {alg : BitVec 2} {dir : Bool}
    (hwf : (Instr.unsupportedAlg ie alg dir).wellFormed = true) : OpSel.command { alg := alg, dir := dir } = none := by
  have halg : alg = 2#2 ∨ alg = 3#2 := by simpa [Instr.wellFormed] using hwf
  rcases halg with rfl | rfl <;> rfl

theorem mem_errorsOf_of_startError {i : Instr} {p : Params} {n : Word} {e : CodecError} (hwf : i.wellFormed = true)
    (h : startError p (selectorOf i) n = some e) : e ∈ errorsOf i := by
  rcases startError_cases h with ⟨hcmd, rfl⟩ | ⟨hcmd, rfl⟩
  · cases i with
    | unsupportedAlg ie alg dir => exact List.mem_singleton_self _
    | _ => cases hcmd
  · cases i with
    | unsupportedAlg ie alg dir => exact absurd (command_unsupportedAlg hwf) hcmd
    | _ => simp [errorsOf]

/-- STATUS after a command that is taken: that of Finish(OK), or of Finish(E) for an error E of its row of R221. -/
theorem exec_status {i : Instr} {s t : State} (hwf : i.wellFormed = true) (h : exec i s = .next t)
    (hready : s.idleReady) :
    t.status = Status.atFinishOk ∨ ∃ e ∈ errorsOf i, t.status = Status.atFinishError e := by
  rcases exec_outcome h hready with ⟨r, -, rfl⟩ | ⟨e, hrun, rfl⟩ | ⟨e, hcheck, rfl⟩
  · exact .inl rfl
  · exact .inr ⟨e, mem_errorsOf_of_engine hrun, rfl⟩
  · exact .inr ⟨e, mem_errorsOf_of_startError hwf hcheck, rfl⟩

/-- Settles O31: ERRCODE after an error is the code of an error of the command's row. -/
theorem errorsOfEachCommand : Obligations.ErrorsOfEachCommand := by
  intro i s t hwf hready h
  rcases exec_status hwf h hready with hok | ⟨e, he, herror⟩
  · rw [hok]
    exact ⟨rfl, rfl, nofun⟩
  · rw [herror]
    refine ⟨rfl, rfl, fun _ => ?_⟩
    have hcode : e.code ∈ (errorsOf i).map CodecError.code := List.mem_map_of_mem he
    cases i <;> exact hcode

end Sys2Proof.Machine
end

section
/-! The interrupt line (60_exceptions.md R226): every row of its table. -/

namespace Sys2Proof.Machine

section
variable {s : State}

theorem irq_of_not_done (h : s.status.done = false) : s.irq = false := by
  rw [State.irq, h, Bool.false_and]

theorem irq_of_not_enabled (h : s.ctrl.ie = false) : s.irq = false := by
  rw [State.irq, h, Bool.and_false]

theorem irq_of_done (h : s.status.done = true) : s.irq = s.ctrl.ie := by
  rw [State.irq, h, Bool.true_and]

/-- A CTRL write that is not ignored leaves its fields, with or without START (10_state.md R23, 40_control.md R120). -/
theorem writeCtrl_ctrl (hready : s.idleReady) (w : Word) : (s.writeCtrl w).ctrl = Ctrl.ofWord w := by
  cases hstart : w.getLsbD 0 with
  | true => rw [writeCtrl_start hready hstart, State.accept_ctrl]
  | false => rw [writeCtrl_noStart hready hstart]

theorem access_write_status_irq (hready : s.idleReady) (w : Word) :
    (s.access (.write (s.params.base + 0x004) (lanesOfWord w))).irq = ((s.status.afterWrite w).done && s.ctrl.ie) := by
  have hwrite := access_write_reg hready.1 .status w
  rw [writeReg_status_idle hready.2] at hwrite
  exact congrArg State.irq hwrite

theorem exec_ctrl {i : Instr} {t : State} (h : exec i s = .next t) (hready : s.idleReady) :
    t.ctrl = Ctrl.ofWord (encode i) := by
  rw [ctrl_ofWord_encode]
  rcases exec_outcome h hready with ⟨r, -, rfl⟩ | ⟨e, -, rfl⟩ | ⟨e, -, rfl⟩
  · exact State.completed_ctrl s _ r
  · exact State.failed_ctrl s _ e _
  · exact State.failed_ctrl s _ e _

/-- DONE is 1 at every completion (40_control.md R127, R128). -/
theorem exec_done {i : Instr} {t : State} (hwf : i.wellFormed = true) (h : exec i s = .next t) (hready : s.idleReady) :
    t.status.done = true := by
  rcases exec_status hwf h hready with hok | ⟨e, -, herror⟩
  · rw [hok]
    rfl
  · rw [herror]
    rfl

end

/-- Settles O27: each event of the table is looked up in DONE or in IE, one of which decides the line. -/
theorem interruptFollowsDoneAndEnable : Obligations.InterruptFollowsDoneAndEnable := by
  refine ⟨fun _ => rfl, fun s hr hidle => ?_⟩
  have hready : s.answerWrite.idleReady := ⟨hr, hidle⟩
  simp only [access_ctrl_eq_writeCtrl]
  refine ⟨?_, fun w hie => ?_, fun w hstart => ?_, fun w hstart hie hdone => ?_, fun _ => ?_, fun i t hwf h => ?_⟩
  · exact (access_write_status_irq ⟨hr, hidle⟩ 2#32).trans (Bool.false_and _)
  · refine irq_of_not_enabled ?_
    rw [writeCtrl_ctrl hready]
    exact hie
  · rw [writeCtrl_start hready hstart]
    exact irq_of_not_done rfl
  · rw [writeCtrl_noStart hready hstart]
    refine (irq_of_done ?_).trans hie
    exact hdone
  · exact irq_of_not_done rfl
  · rw [irq_of_done (exec_done hwf h ⟨hr, hidle⟩), exec_ctrl h ⟨hr, hidle⟩]
    rfl

end Sys2Proof.Machine
end

section
/-! The hazards (70_reset_and_hazards.md R264 to R268): an access with none of them reaches a target, a read finds a
specified value there, and a write completes. -/

namespace Sys2Proof.Machine

/-! ## What an access reaches -/

section
variable {s : State} {t : Target}

theorem target_eq_some_iff {a : Access} :
    s.target a = some t ↔ ∃ off, s.params.offset? a.addr = some off ∧ targetAt s.params off a.width = some t := by
  rw [State.target]
  cases s.params.offset? a.addr <;> simp

/-- A read outside reset is a read of the target it reaches. -/
theorem access_read_eq_readTarget (hr : s.inReset = false) {width addr : Nat}
    (ht : s.target (.read width addr) = some t) : s.access (.read width addr) = s.readTarget t := by
  obtain ⟨off, hoff, htarget⟩ := target_eq_some_iff.mp ht
  simp [State.access, hr, hoff, htarget]

/-- A write outside reset is a write to the target it reaches. -/
theorem access_write_eq_writeTarget (hr : s.inReset = false) {addr : Nat} {lanes : List Byte}
    (ht : s.target (.write addr lanes) = some t) : s.access (.write addr lanes) = s.writeTarget t lanes := by
  obtain ⟨off, hoff, htarget⟩ := target_eq_some_iff.mp ht
  simp [State.access, hr, hoff, htarget]

/-! ## Accesses without a hazard -/

theorem hazardFree_iff {a : Access} :
    s.hazardFree a = true ↔ s.inReset = false ∧ (∃ t, s.target a = some t) ∧ s.faults a = false ∧
      s.readsUnspecified a = false ∧ s.losesWrite a = false := by
  simp [State.hazardFree, Option.isSome_iff_exists, and_assoc]

theorem exists_peek_of_not_readsUnspecified {width addr : Nat} (ht : s.target (.read width addr) = some t)
    (hspec : s.readsUnspecified (.read width addr) = false) : ∃ lanes, s.peek t = some lanes := by
  simpa [State.readsUnspecified, ht, Option.isSome_iff_exists] using hspec

/-- Every write that reaches OUT_MEM faults (20_memory.md R68). -/
theorem faults_write_outByte {addr i : Nat} {lanes : List Byte} (ht : s.target (.write addr lanes) = some (.outByte i)) :
    s.faults (.write addr lanes) = true := by
  obtain ⟨off, hoff, -⟩ := target_eq_some_iff.mp ht
  simp [State.faults, ht, hoff]

end

/-! ## The draws and the answer of a write -/

@[simp] theorem State.writeCtrl_hostDraws (s : State) (w : Word) : (s.writeCtrl w).hostDraws = s.hostDraws := by
  unfold State.writeCtrl
  split_ifs <;> rfl

@[simp] theorem State.writeReg_hostDraws (s : State) (r : RegName) (w : Word) :
    (s.writeReg r w).hostDraws = s.hostDraws := by
  cases r
  case ctrl => exact State.writeCtrl_hostDraws s w
  case status | inLen =>
    unfold State.writeReg
    dsimp only
    split_ifs <;> rfl
  all_goals rfl

@[simp] theorem State.writeIn_hostDraws (s : State) (i : Nat) (v : Byte) :
    (s.writeIn i v).hostDraws = s.hostDraws := by
  unfold State.writeIn
  split_ifs <;> rfl

/-- No host write takes a draw. -/
theorem State.writeTarget_hostDraws (s : State) (t : Target) (lanes : List Byte) :
    (s.writeTarget t lanes).hostDraws = s.hostDraws := by
  cases t with
  | reg r => exact State.writeReg_hostDraws s r _
  | inByte i => exact State.writeIn_hostDraws s i _
  | outByte i => rfl

theorem writeTarget_response {t : Target} (h : ∀ i, t ≠ .outByte i) (s : State) (lanes : List Byte) :
    (s.writeTarget t lanes).response = .done := by
  cases t with
  | reg r => rfl
  | inByte i => rfl
  | outByte i => exact absurd rfl (h i)

/-- Settles O23: a read without a hazard finds the target's value, and a write without one reaches no byte of OUT_MEM. -/
theorem hazardFreeAccessesAreSpecified : Obligations.HazardFreeAccessesAreSpecified := by
  intro s a hfree
  obtain ⟨hr, ⟨t, ht⟩, hfaults, hspec, -⟩ := hazardFree_iff.mp hfree
  cases a with
  | read width addr =>
    obtain ⟨lanes, hpeek⟩ := exists_peek_of_not_readsUnspecified ht hspec
    have haccess : s.access (.read width addr) = { s with response := .data lanes } :=
      (access_read_eq_readTarget hr ht).trans (readTarget_specified hpeek)
    exact ⟨by rw [haccess], t, lanes, ht, hpeek, haccess⟩
  | write addr lanes =>
    have hnotOut : ∀ i, t ≠ .outByte i := by
      rintro i rfl
      exact nomatch hfaults.symm.trans (faults_write_outByte ht)
    rw [access_write_eq_writeTarget hr ht]
    exact ⟨s.writeTarget_hostDraws t lanes, writeTarget_response hnotOut s lanes⟩

end Sys2Proof.Machine
end

section
/-! The reset input (70_reset_and_hazards.md R260, R261): what it leaves, and that nothing else has an effect while it is
asserted. -/

namespace Sys2Proof.Machine

section
variable {s : State} (hr : s.inReset = true)
include hr

theorem access_inReset (a : Access) : s.access a = { s with response := .none } := if_pos hr

theorem exec_inReset (i : Instr) : exec i s = .next s := commandsAreIgnoredWhileBusyOrInReset i s (.inr hr)

/-- While reset is asserted with the engine idle, a step that is no change of the reset input leaves all the spec
names. -/
theorem step_view_inReset (hidle : s.engine = .idle) {e : Input} {rest : List Input} (hin : s.inputs = e :: rest)
    (hassert : e ≠ .assertReset) (hrelease : e ≠ .releaseReset) : ∃ t, step s = .next t ∧ t.view = s.view := by
  cases e with
  | bus a => exact ⟨_, step_of_bus hin, by rw [access_inReset (s := s.pop rest) hr]; rfl⟩
  | command w =>
    cases hw : decodeWord w with
    | ok i => exact ⟨_, (step_of_command hin hw).trans (exec_inReset (s := (s.pop rest).answerWrite) hr i), rfl⟩
    | error err =>
      exact ⟨_, step_of_noCommand hin hw, by rw [writeCtrl_inReset (s := (s.pop rest).answerWrite) hr]; rfl⟩
  | engine => exact ⟨_, step_of_engine hin, by rw [engineTurn_of_idle (s := s.pop rest) hidle]; rfl⟩
  | assertReset => exact absurd rfl hassert
  | releaseReset => exact absurd rfl hrelease

end

/-- Settles O25: `resetTo` gives the registers and buffers of `State.reset`, and while reset is asserted every operation
but `resetTo` looks at the level first or finds the engine idle. -/
theorem resetAbandonsEverything : Obligations.ResetAbandonsEverything := by
  refine ⟨fun s rest level hin => ?_, fun s e rest hr hlegal hin hassert hrelease => ?_⟩
  · obtain ⟨hctrl, hstatus, hinLen, houtLen, htok, hnext, hirq, hphase, hinMem, houtMem⟩ := resetValues
    exact ⟨_, step_of_reset hin, rfl, rfl, rfl, hctrl, hstatus, hinLen, houtLen, htok, hnext, hphase, hirq, hinMem,
      houtMem⟩
  · obtain ⟨-, -, -, -, -, -, hidle⟩ := hlegal hr
    exact step_view_inReset hr hidle hin hassert hrelease

end Sys2Proof.Machine
end
